-- ==== Sys2Proof/Word.lean ====
section
/-! DEFINITION. The word types of WMC: the 32-bit register word (10 R20) and the byte of the
data memory (20 R60). -/

namespace Sys2Proof

/-- A register value or a sample word: 32 bits (10_state.md R20). -/
abbrev Word := BitVec 32

/-- A byte of the data memory (20_memory.md R60). -/
abbrev Byte := BitVec 8

end Sys2Proof
end

