-- ==== Sys2Proof/Config.lean ====
section
/-! DEFINITION. The free values: what the spec says is unspecified after an effect that does
happen (93_implementation_defined.md U1, U2, U4, U5, U6). They have no body, so nothing can
evaluate them and every claim holds whatever they are. -/

namespace Sys2Proof

/-- The n-th free draw of a byte: scratch contents (20 R72), write regions after BUS_ERROR
(60 R244) or after a reset that abandons a command (70 R271), and a host read of a write region
while BUSY = 1 (70 R277). Safe: nothing constrains it. See notes/assumptions/6.md. -/
opaque Config.freeByte : Nat → Byte

/-- The n-th free draw of a word: what a register read that is narrower than 32 bits or not
aligned returns (10 R20, 93 U6). Safe: nothing constrains it. See notes/assumptions/6.md. -/
opaque Config.freeWord : Nat → Word

end Sys2Proof
end

