-- ==== Sys2Proof/Syntax.lean ====
section
/-! DEFINITION. The instructions of WMC: its twenty commands (30_encoding.md R92). The command
word carries no operand (30 R90); each command takes its operands from the snapshot P. -/

namespace Sys2Proof

/-- The commands, one constructor per row of the opcode map, in the table's order (30 R92). -/
inductive Instr where
  /-- NOP, OP 0x00 (44 R220). -/
  | nop
  /-- DCT1D, OP 0x01 (40 R115). -/
  | dct1d
  /-- IDCT1D, OP 0x02 (40 R116). -/
  | idct1d
  /-- DCT2D, OP 0x03 (40 R117). -/
  | dct2d
  /-- IDCT2D, OP 0x04 (40 R118). -/
  | idct2d
  /-- DWT2D, OP 0x05 (40 R124). -/
  | dwt2d
  /-- IDWT2D, OP 0x06 (40 R125). -/
  | idwt2d
  /-- CHEXT, OP 0x07 (40 R126). -/
  | chext
  /-- CHRST, OP 0x08 (40 R128). -/
  | chrst
  /-- PSNR, OP 0x09 (40 R130). -/
  | psnr
  /-- QEMBED, OP 0x0A (42 R173). -/
  | qembed
  /-- QEXTRACT, OP 0x0B (42 R174). -/
  | qextract
  /-- PACK, OP 0x0C (41 R158). -/
  | pack
  /-- UNPACK, OP 0x0D (41 R159). -/
  | unpack
  /-- DCTCAP, OP 0x10 (42 R178). -/
  | dctcap
  /-- DCTEMB, OP 0x11 (42 R180). -/
  | dctemb
  /-- DCTEXT, OP 0x12 (42 R182). -/
  | dctext
  /-- DWTCAP, OP 0x14 (43 R202). -/
  | dwtcap
  /-- DWTEMB, OP 0x15 (43 R204). -/
  | dwtemb
  /-- DWTEXT, OP 0x16 (43 R206). -/
  | dwtext
  deriving DecidableEq, Repr

end Sys2Proof
end

