-- ==== Sys2Proof/Machine/State.lean ====
section
/-! DEFINITION. The state of WMC (10_state.md R52), the ways a step can stop, and the state after
reset (70_reset_and_hazards.md R270). Everything is plain data. -/

namespace Sys2Proof.Machine

/-- Why the machine stops with a fault. -/
inductive Fault where
  /-- The HAZARD state of 70 R276: the host wrote, while BUSY = 1, a byte of a region of the
  command in flight. Raised by the host's memory write (`hostMemWrite`), never by a command's
  meaning. Safe: hardware goes on with unpredictable outputs. -/
  | hostHazard
  deriving DecidableEq, Repr

/-- Why a step has no meaning in the model. -/
inductive Refusal where
  /-- An instruction without a meaning yet; no arm of `exec` answers so. Safe. -/
  | notModelled (mnemonic : String)
  /-- A region the command is about to access maps a device, which is outside the spec and to be
  refused (20 R73, 93 U7, 70 R283). Raised by `complete` after the checks of 60 R245. Safe. -/
  | deviceRegion
  deriving DecidableEq, Repr

/-- The error codes of STATUS.ERRCODE (60 R242); the absent code 0x00 is `none` of an `Option`. -/
inductive ErrCode where
  | illegalCmd
  | badOption
  | badDim
  | badLength
  | capacity
  | align
  | addrRange
  | overlap
  | busError
  deriving DecidableEq, Repr

/-- CTRL, the interrupt enables (10 R24). -/
structure Ctrl where
  ieDone : Bool
  ieErr : Bool
  deriving DecidableEq, Repr

/-- STATUS, one field per flag of 10 R25. -/
structure Status where
  busy : Bool
  done : Bool
  err : Bool
  sat : Bool
  detect : Bool
  psnrPass : Bool
  psnrInf : Bool
  cmdOvr : Bool
  errcode : Option ErrCode
  deriving DecidableEq, Repr

/-- The host-writable parameter registers (10 R35 to R43), at the widths of 10 R21. -/
structure Params where
  width : BitVec 16
  height : BitVec 16
  srcAddr : Word
  auxAddr : Word
  dstAddr : Word
  scrAddr : Word
  len : Word
  strength : Word
  redundancy : BitVec 16
  levels : BitVec 4
  confFloor : Word
  psnrThresh : Word
  bitcap : Word
  deriving DecidableEq, Repr

/-- The result registers (10 R45). -/
structure Results where
  capBits : Word
  capBytes : Word
  units : Word
  used : Word
  bits : Word
  length : Word
  conf : Word
  psnr : Word
  deriving DecidableEq, Repr

/-- The snapshot P latched at acceptance (10 R44), meaningful only while BUSY = 1 (10 R52). -/
structure Snapshot where
  op : BitVec 8
  rsv : BitVec 24
  w : BitVec 16
  h : BitVec 16
  src : Word
  aux : Word
  dst : Word
  scr : Word
  len : Word
  s : Word
  r : BitVec 16
  lv : BitVec 4
  fl : Word
  t : Word
  n : Word
  deriving DecidableEq, Repr

/-- A byte range [base, base + size). -/
structure Span where
  base : Nat
  size : Nat
  deriving DecidableEq, Repr

/-- The platform's open parameters (00 R8), which no step changes. See notes/assumptions/2.md. -/
structure Platform where
  /-- REG_BASE. -/
  regBase : Nat
  /-- Where busOK is false (60 R244). -/
  unbacked : List Span
  /-- Where a device answers instead of plain memory (20 R73). -/
  device : List Span
  deriving DecidableEq, Repr

/-- The width of a host register access (10 R20). -/
inductive AccessSize where
  | byte
  | half
  | word
  deriving DecidableEq, Repr

/-- One access of the host, or none (00 R19). -/
inductive HostOp where
  /-- A register write at a host address. -/
  | regWrite (addr : Nat) (size : AccessSize) (v : Word)
  /-- A register read at a host address. -/
  | regRead (addr : Nat) (size : AccessSize)
  /-- A write of one byte of the data memory. -/
  | memWrite (addr : Word) (b : Byte)
  /-- A read of one byte of the data memory. -/
  | memRead (addr : Word)
  /-- The reset input is asserted (70 R270). -/
  | reset
  /-- The host does nothing: the sequencer may step (70 R282). -/
  | pause
  deriving DecidableEq, Repr

/-- The registers of the window (10 R21). -/
inductive Reg where
  | id
  | const
  | ctrl
  | status
  | cmd
  | width
  | height
  | srcAddr
  | auxAddr
  | dstAddr
  | scrAddr
  | len
  | strength
  | redundancy
  | levels
  | confFloor
  | psnrThresh
  | bitcap
  | resCapBits
  | resCapBytes
  | resUnits
  | resUsed
  | resBits
  | resLength
  | resConf
  | resPsnr
  deriving DecidableEq, Repr

/-- The data memory (20 R60): the listed bytes, addresses strictly rising, and no entry equal to
what an unlisted address reads as (`unlistedByte` of Machine/Ops.lean). -/
abbrev Memory := List Host.Cell

/-- The state of the machine: the architectural state of 10 R52, the platform's parameters, and
the model's own fields `host`, `rdata` and `draws`. -/
structure State where
  ctrl : Ctrl
  status : Status
  /-- The last accepted command word, read at CMD (10 R34). -/
  lastCmd : Word
  params : Params
  results : Results
  /-- The snapshot P (10 R44). -/
  snap : Snapshot
  /-- The data memory (20 R60). -/
  mem : Memory
  platform : Platform
  /-- The model's own: the host's coming accesses, the next one first (notes/assumptions/3.md). -/
  host : List HostOp
  /-- The model's own: what the last host read returned (notes/assumptions/5.md). -/
  rdata : Word
  /-- The model's own: how many free draws were made (notes/assumptions/6.md). -/
  draws : Nat
  deriving DecidableEq, Repr

/-- CTRL after reset (70 R270). -/
def Ctrl.reset : Ctrl := { ieDone := false, ieErr := false }

/-- STATUS after reset (70 R270). -/
def Status.reset : Status :=
  { busy := false, done := false, err := false, sat := false, detect := false,
    psnrPass := false, psnrInf := false, cmdOvr := false, errcode := none }

/-- The parameter registers after reset (70 R270). -/
def Params.reset : Params :=
  { width := 0, height := 0, srcAddr := 0, auxAddr := 0, dstAddr := 0, scrAddr := 0, len := 0,
    strength := 0, redundancy := 0, levels := 0, confFloor := 0x0000C000,
    psnrThresh := 0x00001E00, bitcap := 0 }

/-- All result registers 0: after reset (70 R270) and at acceptance (10 R44). -/
def Results.zero : Results :=
  { capBits := 0, capBytes := 0, units := 0, used := 0, bits := 0, length := 0, conf := 0,
    psnr := 0 }

/-- The snapshot once discarded (70 R270). DESIGN CHOICE, unsafe only for a claim about P while
idle: all fields 0. See notes/assumptions/7.md. -/
def Snapshot.discarded : Snapshot :=
  { op := 0, rsv := 0, w := 0, h := 0, src := 0, aux := 0, dst := 0, scr := 0, len := 0, s := 0,
    r := 0, lv := 0, fl := 0, t := 0, n := 0 }

/-- The platform assumed for the reset state. DESIGN CHOICE, unsafe for a claim about the reset
state's platform: REG_BASE 0, all memory backed, no device. See notes/assumptions/2.md. -/
def Platform.plain : Platform := { regBase := 0, unbacked := [], device := [] }

/-- The machine right after reset (70 R270), with nothing listed in memory (DESIGN CHOICE,
unsafe, notes/assumptions/1.md) and the host idle. -/
def State.reset : State :=
  { ctrl := Ctrl.reset, status := Status.reset, lastCmd := 0, params := Params.reset,
    results := Results.zero, snap := Snapshot.discarded, mem := [], platform := Platform.plain,
    host := [], rdata := 0, draws := 0 }

end Sys2Proof.Machine
end

