-- ==== Sys2Proof/Machine/Flags.lean ====
section
/-! DEFINITION. STATUS and CTRL: their words, the write-one-to-clear rule, how completion and
saturation set the flags, and the interrupt output (10_state.md R24 to R33, R47). -/

namespace Sys2Proof.Machine

/-- The code a STATUS read shows in ERRCODE (60 R242). -/
def ErrCode.code : ErrCode → BitVec 8
  | .illegalCmd => 0x01
  | .badOption => 0x02
  | .badDim => 0x03
  | .badLength => 0x04
  | .capacity => 0x05
  | .align => 0x06
  | .addrRange => 0x07
  | .overlap => 0x08
  | .busError => 0x09

/-- ERRCODE, 0x00 when there is none (60 R242). -/
def errcodeByte : Option ErrCode → BitVec 8
  | none => 0x00
  | some e => e.code

/-- The word a read of STATUS returns (10 R25). -/
def Status.toWord (st : Status) : Word :=
  (0 : BitVec 16) ++ errcodeByte st.errcode ++ BitVec.ofBool st.cmdOvr ++ BitVec.ofBool st.psnrInf
    ++ BitVec.ofBool st.psnrPass ++ BitVec.ofBool st.detect ++ BitVec.ofBool st.sat
    ++ BitVec.ofBool st.err ++ BitVec.ofBool st.done ++ BitVec.ofBool st.busy

/-- The word a read of CTRL returns (10 R24). -/
def Ctrl.toWord (c : Ctrl) : Word :=
  (0 : BitVec 30) ++ BitVec.ofBool c.ieErr ++ BitVec.ofBool c.ieDone

/-- CTRL after a write of v (10 R24). -/
def Ctrl.ofWord (v : Word) : Ctrl := { ieDone := v.getLsbD 0, ieErr := v.getLsbD 1 }

/-- STATUS after a host write of v: DONE, ERR and CMD_OVR are cleared by a 1 (10 R33). -/
def Status.writeOneToClear (st : Status) (v : Word) : Status :=
  { st with
    done := st.done && !v.getLsbD 1
    err := st.err && !v.getLsbD 2
    cmdOvr := st.cmdOvr && !v.getLsbD 7 }

/-- STATUS at acceptance: every flag but CMD_OVR cleared, then BUSY set (10 R44). -/
def Status.accepted (st : Status) : Status :=
  { busy := true, done := false, err := false, sat := false, detect := false,
    psnrPass := false, psnrInf := false, cmdOvr := st.cmdOvr, errcode := none }

/-- STATUS after a completion without error (10 R28, 60 R240). -/
def Status.succeeded (st : Status) : Status := { st with done := true, busy := false }

/-- STATUS after a completion with error e (60 R243). -/
def Status.failed (st : Status) (e : ErrCode) : Status :=
  { st with err := true, errcode := some e, done := false, busy := false }

/-- SAT is set when a sat32 of the command clipped (10 R26). -/
def noteSat (clipped : Bool) (s : State) : State :=
  { s with status := { s.status with sat := s.status.sat || clipped } }

/-- The interrupt output (10 R47, 60 R248). -/
def irq (s : State) : Bool :=
  (s.status.done && s.ctrl.ieDone) || (s.status.err && s.ctrl.ieErr)

end Sys2Proof.Machine
end

