-- ==== Sys2Proof/WellFormed.lean ====
section
/-! DEFINITION. Which command words are well formed (30_encoding.md R90, R97). A command takes no
operand in its word, so every term of `Instr` is well formed; the checks are on the word. -/

namespace Sys2Proof

/-- A command word taken apart into its two fields (30 R90). -/
structure RawCommand where
  /-- RSV, bits [31:8] of the command word. -/
  rsv : BitVec 24
  /-- OP, bits [7:0] of the command word. -/
  op : BitVec 8
  deriving DecidableEq, Repr

/-- The fields of a command word (30 R90). -/
def RawCommand.ofWord (c : Word) : RawCommand :=
  { rsv := c.extractLsb' 8 24, op := c.extractLsb' 0 8 }

/-- The opcodes the opcode map assigns (30 R92). -/
def assignedOpcodes : List Nat :=
  [0x00, 0x01, 0x02, 0x03, 0x04, 0x05, 0x06, 0x07, 0x08, 0x09, 0x0A, 0x0B, 0x0C, 0x0D,
   0x10, 0x11, 0x12, 0x14, 0x15, 0x16]

/-- RSV must be 0 (30 R90). -/
def RawCommand.reservedClear (r : RawCommand) : Bool := r.rsv == 0

/-- OP must be an assigned opcode (30 R97). -/
def RawCommand.opcodeAssigned (r : RawCommand) : Bool := assignedOpcodes.contains r.op.toNat

/-- Both checks of 30 R97. -/
def RawCommand.wellFormed (r : RawCommand) : Bool := r.reservedClear && r.opcodeAssigned

/-- A command word is well formed when its fields are (30 R97). -/
def wellFormedWord (c : Word) : Bool := (RawCommand.ofWord c).wellFormed

end Sys2Proof
end

