-- ==== Sys2Proof/Decode.lean ====
section
/-! DEFINITION. The decoder of command words, total on all 32-bit words (30_encoding.md R90, R91,
R97), and the encoder written from the same opcode map (30 R92). -/

namespace Sys2Proof

/-- Why a command word selects no row of the opcode map (30 R97). Either way the command
completes with ILLEGAL_CMD. -/
inductive DecodeError where
  /-- c[31:8] is not 0. -/
  | reservedBits
  /-- c[7:0] is in 0x0E, 0x0F, 0x13, 0x17 … 0xFF. -/
  | unknownOpcode
  deriving DecidableEq, Repr

/-- The row an OP value selects (30 R92). -/
def decodeOp (op : BitVec 8) : Option Instr :=
  match op.toNat with
  | 0x00 => some .nop
  | 0x01 => some .dct1d
  | 0x02 => some .idct1d
  | 0x03 => some .dct2d
  | 0x04 => some .idct2d
  | 0x05 => some .dwt2d
  | 0x06 => some .idwt2d
  | 0x07 => some .chext
  | 0x08 => some .chrst
  | 0x09 => some .psnr
  | 0x0A => some .qembed
  | 0x0B => some .qextract
  | 0x0C => some .pack
  | 0x0D => some .unpack
  | 0x10 => some .dctcap
  | 0x11 => some .dctemb
  | 0x12 => some .dctext
  | 0x14 => some .dwtcap
  | 0x15 => some .dwtemb
  | 0x16 => some .dwtext
  | _ => none

/-- Decoding a command word: it reads OP = c[7:0] and RSV = c[31:8] and nothing else (30 R91). -/
def decode (c : Word) : Except DecodeError Instr :=
  if (RawCommand.ofWord c).rsv = 0 then
    match decodeOp (RawCommand.ofWord c).op with
    | some i => .ok i
    | none => .error .unknownOpcode
  else .error .reservedBits

/-- The OP value of each command (30 R92). -/
def opcode : Instr → BitVec 8
  | .nop => 0x00
  | .dct1d => 0x01
  | .idct1d => 0x02
  | .dct2d => 0x03
  | .idct2d => 0x04
  | .dwt2d => 0x05
  | .idwt2d => 0x06
  | .chext => 0x07
  | .chrst => 0x08
  | .psnr => 0x09
  | .qembed => 0x0A
  | .qextract => 0x0B
  | .pack => 0x0C
  | .unpack => 0x0D
  | .dctcap => 0x10
  | .dctemb => 0x11
  | .dctext => 0x12
  | .dwtcap => 0x14
  | .dwtemb => 0x15
  | .dwtext => 0x16

/-- The command word of a command: RSV = 0 above OP (30 R90). -/
def encode (i : Instr) : Word := (0 : BitVec 24) ++ opcode i

/-- The command the decoder reads from the bits `w`, numbered as the opcode table numbers them.
A command is one 32-bit word written whole to CMD, so no byte order enters (20 R62). -/
def decodeTableWord (nbits w : Nat) : Option Instr :=
  match decode (BitVec.ofNat 32 (w % 2 ^ nbits)) with
  | .ok i => some i
  | .error _ => none

end Sys2Proof
end

