-- ==== Sys2Proof/Machine/Fixed.lean ====
section
/-! DEFINITION. The number formats: integers computed exactly, narrowed only by rnd, sat32 and
named field widths (00_scope.md R9 to R13), and the small matrix helpers (00 R15). -/

namespace Sys2Proof.Machine

/-- ceil(a / b) (00 R11). -/
def ceilDiv (a b : Nat) : Nat := (a + b - 1) / b

/-- rnd(v, s) = floor((v + 2^(s-1)) / 2^s), ties toward +∞ (00 R11). -/
def rnd (v : Int) (s : Nat) : Int := (v + ((2 ^ (s - 1) : Nat) : Int)) / ((2 ^ s : Nat) : Int)

/-- parity(q) = q mod 2, in 0 and 1 also for negative q (00 R11). -/
def parity (q : Int) : Int := q % 2

/-- sat32 (00 R13). -/
def sat32 (x : Int) : Int :=
  if x < -2147483648 then -2147483648 else if 2147483647 < x then 2147483647 else x

/-- Whether sat32 returns a value different from its argument, which sets STATUS.SAT (00 R13). -/
def clips (x : Int) : Bool := decide (sat32 x ≠ x)

/-- word32: the two's-complement pattern of an integer (00 R10). -/
def word32 (x : Int) : Word := BitVec.ofInt 32 x

/-- sext_32: the signed reading of a word (00 R10). -/
def sext32 (w : Word) : Int := w.toInt

/-- A result together with whether any sat32 clipped on the way (10 R26). -/
structure Sat (α : Type) where
  val : α
  clipped : Bool
  deriving DecidableEq, Repr

/-- sat32 on each element of a vector. -/
def satVec (xs : List Int) : Sat (List Int) := { val := xs.map sat32, clipped := xs.any clips }

/-- A matrix as the list of its rows, row 0 first (00 R15). -/
abbrev Mat := List (List Int)

/-- M[i][j] (00 R15); 0 outside the matrix. -/
def matAt (M : Mat) (i j : Nat) : Int := (M.getD i []).getD j 0

/-- The h × w matrix whose element (i, j) is f i j. -/
def matBuild (h w : Nat) (f : Nat → Nat → Int) : Mat :=
  (List.range h).map fun i => (List.range w).map fun j => f i j

/-- The h × w matrix whose elements in row-major order are xs (00 R15). -/
def matOfFlat (h w : Nat) (xs : List Int) : Mat :=
  (List.range h).map fun i => (xs.drop (i * w)).take w

/-- Columns become rows, for a matrix with w columns. -/
def matTranspose (w : Nat) (M : Mat) : Mat :=
  (List.range w).map fun j => M.map fun row => row.getD j 0

/-- sat32 on each element of a matrix. -/
def satMat (M : Mat) : Sat Mat :=
  { val := M.map fun row => row.map sat32, clipped := M.any fun row => row.any clips }

/-- The exact inner product of two vectors. -/
def dot (xs ys : List Int) : Int := (List.zipWith (· * ·) xs ys).sum

/-- The unsigned integer written by bits, most significant first. -/
def bitsToNat (bs : List Bool) : Nat := bs.foldl (fun acc b => 2 * acc + b.toNat) 0

end Sys2Proof.Machine
end

