-- ==== Sys2Proof/Machine/Operands.lean ====
section
/-! DEFINITION. What a command takes from the snapshot: which fields it reads (30_encoding.md
R94), the regions it touches (30 R93), and the checks made before any access, in their order
(60_exceptions.md R245). -/

namespace Sys2Proof.Machine

/-! ### Derived sizes -/

/-- F = 32 + 8·L, the bits of a frame (41 R150). -/
def frameBits (len : Nat) : Nat := 32 + 8 * len

/-- T = (32 + 8·L)·r, the transmitted bits (41 R151). -/
def streamBits (len r : Nat) : Nat := frameBits len * r

/-- capBits(n, r) = max(0, floor(n / r) - 32) (41 R157); the subtraction of naturals stops at 0. -/
def capBits (n r : Nat) : Nat := n / r - 32

/-- capBytes(n, r) = floor(capBits(n, r) / 8) (41 R157). -/
def capBytes (n r : Nat) : Nat := capBits n r / 8

/-- B, the number of 8×8 blocks (42 R176). -/
def dctBlocks (w h : Nat) : Nat := (w / 8) * (h / 8)

/-- W' or H': a size rounded down to a multiple of 2^Lv (43 R200). -/
def alignedSize (x lv : Nat) : Nat := x / 2 ^ lv * 2 ^ lv

/-- wl or hl: a side of the embedding subband (43 R200). -/
def bandSize (x lv : Nat) : Nat := alignedSize x lv / 2 ^ lv

/-- Nc, the coefficients of the embedding subband (43 R200). -/
def dwtCoeffs (w h lv : Nat) : Nat := bandSize w lv * bandSize h lv

/-- A side of the next level, ceil(x / 2) (40 R119). -/
def halfUp (x : Nat) : Nat := ceilDiv x 2

/-- Lsz(h, w, Lv), the words of the subband layout (30 R93, 40 R123). -/
def layoutWords (h w : Nat) : Nat → Nat
  | 0 => h * w
  | lv + 1 => 3 * (halfUp h * halfUp w) + layoutWords (halfUp h) (halfUp w) lv

/-! ### The snapshot's fields as numbers (30 R95) -/

def Snapshot.width (p : Snapshot) : Nat := p.w.toNat
def Snapshot.height (p : Snapshot) : Nat := p.h.toNat
def Snapshot.srcAddr (p : Snapshot) : Nat := p.src.toNat
def Snapshot.auxAddr (p : Snapshot) : Nat := p.aux.toNat
def Snapshot.dstAddr (p : Snapshot) : Nat := p.dst.toNat
def Snapshot.scrAddr (p : Snapshot) : Nat := p.scr.toNat
def Snapshot.length (p : Snapshot) : Nat := p.len.toNat
def Snapshot.strength (p : Snapshot) : Nat := p.s.toNat
def Snapshot.redundancy (p : Snapshot) : Nat := p.r.toNat
def Snapshot.levels (p : Snapshot) : Nat := p.lv.toNat
def Snapshot.floor (p : Snapshot) : Nat := p.fl.toNat
def Snapshot.bitcap (p : Snapshot) : Nat := p.n.toNat
/-- T is PSNR_THRESH read as signed (30 R95). -/
def Snapshot.threshold (p : Snapshot) : Int := sext32 p.t

/-- The command word latched in the snapshot (30 R90). -/
def Snapshot.word (p : Snapshot) : Word := p.rsv ++ p.op

/-- 4·w·h: the bytes of a pixel buffer (20 R65) and of a sample matrix (20 R64). -/
def Snapshot.imageBytes (p : Snapshot) : Nat := 4 * (p.width * p.height)

/-- 4·Lsz(h, w, Lv) (30 R93). -/
def Snapshot.layoutBytes (p : Snapshot) : Nat := 4 * layoutWords p.height p.width p.levels

/-- B of the snapshot's image (42 R176). -/
def Snapshot.blocks (p : Snapshot) : Nat := dctBlocks p.width p.height

/-- Nc of the snapshot's image (43 R200). -/
def Snapshot.coeffs (p : Snapshot) : Nat := dwtCoeffs p.width p.height p.levels

/-- 4·W'·H', the bytes of the scratch region (20 R72). -/
def Snapshot.scratchBytes (p : Snapshot) : Nat :=
  4 * (alignedSize p.width p.levels * alignedSize p.height p.levels)

/-! ### Regions -/

/-- What a command does with a region (30 R93). -/
inductive Access where
  | read
  | write
  deriving DecidableEq, Repr

/-- A region of the region table: its bytes, R or W, and whether it is marked S (30 R93). -/
structure Region where
  base : Nat
  size : Nat
  access : Access
  samples : Bool
  deriving DecidableEq, Repr

/-- A region read as bytes. -/
def readBytesAt (base size : Nat) : Region := ⟨base, size, .read, false⟩
/-- A region read as sample words. -/
def readSamplesAt (base size : Nat) : Region := ⟨base, size, .read, true⟩
/-- A region written as bytes. -/
def writeBytesAt (base size : Nat) : Region := ⟨base, size, .write, false⟩
/-- A region written as sample words. -/
def writeSamplesAt (base size : Nat) : Region := ⟨base, size, .write, true⟩

/-- The region table (30 R93), in the order SRC, AUX, DST, SCR. -/
def regions (i : Instr) (p : Snapshot) : List Region :=
  match i with
  | .nop => []
  | .dct1d => [readSamplesAt p.srcAddr 32, writeSamplesAt p.dstAddr 32]
  | .idct1d => [readSamplesAt p.srcAddr 32, writeSamplesAt p.dstAddr 32]
  | .dct2d => [readSamplesAt p.srcAddr 256, writeSamplesAt p.dstAddr 256]
  | .idct2d => [readSamplesAt p.srcAddr 256, writeSamplesAt p.dstAddr 256]
  | .dwt2d => [readSamplesAt p.srcAddr p.imageBytes, writeSamplesAt p.dstAddr p.layoutBytes]
  | .idwt2d => [readSamplesAt p.srcAddr p.layoutBytes, writeSamplesAt p.dstAddr p.imageBytes]
  | .chext => [readBytesAt p.srcAddr p.imageBytes, writeSamplesAt p.dstAddr p.imageBytes]
  | .chrst => [readBytesAt p.srcAddr p.imageBytes, readSamplesAt p.auxAddr p.imageBytes,
      writeBytesAt p.dstAddr p.imageBytes]
  | .psnr => [readSamplesAt p.srcAddr p.imageBytes, readSamplesAt p.auxAddr p.imageBytes]
  | .qembed => [readSamplesAt p.srcAddr (4 * p.length), readBytesAt p.auxAddr (ceilDiv p.length 8),
      writeSamplesAt p.dstAddr (4 * p.length)]
  | .qextract => [readSamplesAt p.srcAddr (4 * p.length),
      writeBytesAt p.dstAddr (ceilDiv p.length 8)]
  | .pack => [readBytesAt p.srcAddr p.length,
      writeBytesAt p.dstAddr (ceilDiv (streamBits p.length p.redundancy) 8)]
  | .unpack => [readBytesAt p.srcAddr (ceilDiv p.bitcap 8),
      writeBytesAt p.dstAddr (capBytes p.bitcap p.redundancy)]
  | .dctcap => []
  | .dctemb => [readBytesAt p.srcAddr p.imageBytes, readBytesAt p.auxAddr p.length,
      writeBytesAt p.dstAddr p.imageBytes]
  | .dctext => [readBytesAt p.srcAddr p.imageBytes,
      writeBytesAt p.dstAddr (capBytes p.blocks p.redundancy)]
  | .dwtcap => []
  | .dwtemb => [readBytesAt p.srcAddr p.imageBytes, readBytesAt p.auxAddr p.length,
      writeBytesAt p.dstAddr p.imageBytes, writeSamplesAt p.scrAddr p.scratchBytes]
  | .dwtext => [readBytesAt p.srcAddr p.imageBytes,
      writeBytesAt p.dstAddr (capBytes p.coeffs p.redundancy),
      writeSamplesAt p.scrAddr p.scratchBytes]

/-- An empty region is not checked and not accessed (20 R69). -/
def Region.nonEmpty (r : Region) : Bool := decide (0 < r.size)

/-- Whether byte address a lies in the region. -/
def Region.contains (r : Region) (a : Nat) : Bool := decide (r.base ≤ a ∧ a < r.base + r.size)

/-- Whether WMC writes the region. -/
def Region.isWrite (r : Region) : Bool := decide (r.access = .write)

/-- Two non-empty regions share a byte (20 R70). -/
def Region.overlaps (r q : Region) : Bool :=
  r.nonEmpty && q.nonEmpty && decide (r.base < q.base + q.size ∧ q.base < r.base + r.size)

/-- A non-empty sample region with a base that is no multiple of 4 (20 R68). -/
def Region.misaligned (r : Region) : Bool :=
  r.nonEmpty && r.samples && decide (r.base % 4 ≠ 0)

/-- A non-empty region that passes 2^32, computed without wrap (20 R69). -/
def Region.outOfRange (r : Region) : Bool := r.nonEmpty && decide (2 ^ 32 < r.base + r.size)

/-- Some write region overlaps another region of the list (20 R70). -/
def anyOverlap : List Region → Bool
  | [] => false
  | r :: rs => rs.any (fun q => (r.isWrite || q.isWrite) && r.overlaps q) || anyOverlap rs

/-- The write regions of a command: DST and, for the DWT codec, SCR (20 R75). -/
def writeRegions (i : Instr) (p : Snapshot) : List Region := (regions i p).filter Region.isWrite

/-! ### Which fields a command reads (30 R94) -/

/-- The command reads S. -/
def readsStrength : Instr → Bool
  | .qembed | .qextract | .dctemb | .dctext | .dwtemb | .dwtext => true
  | .nop | .dct1d | .idct1d | .dct2d | .idct2d | .dwt2d | .idwt2d | .chext | .chrst | .psnr
  | .pack | .unpack | .dctcap | .dwtcap => false

/-- The command reads R. -/
def readsRedundancy : Instr → Bool
  | .pack | .unpack | .dctcap | .dctemb | .dctext | .dwtcap | .dwtemb | .dwtext => true
  | .nop | .dct1d | .idct1d | .dct2d | .idct2d | .dwt2d | .idwt2d | .chext | .chrst | .psnr
  | .qembed | .qextract => false

/-- The command reads LV. -/
def readsLevels : Instr → Bool
  | .dwt2d | .idwt2d | .dwtcap | .dwtemb | .dwtext => true
  | .nop | .dct1d | .idct1d | .dct2d | .idct2d | .chext | .chrst | .psnr | .qembed | .qextract
  | .pack | .unpack | .dctcap | .dctemb | .dctext => false

/-- The command reads W and H. -/
def readsDims : Instr → Bool
  | .dwt2d | .idwt2d | .chext | .chrst | .psnr | .dctcap | .dctemb | .dctext | .dwtcap | .dwtemb
  | .dwtext => true
  | .nop | .dct1d | .idct1d | .dct2d | .idct2d | .qembed | .qextract | .pack | .unpack => false

/-- The command requires LEN ≥ 1 (30 R96). -/
def readsLength : Instr → Bool
  | .qembed | .qextract | .pack | .dctemb | .dwtemb => true
  | .nop | .dct1d | .idct1d | .dct2d | .idct2d | .dwt2d | .idwt2d | .chext | .chrst | .psnr
  | .unpack | .dctcap | .dctext | .dwtcap | .dwtext => false

/-- The carrier whose size an embedding must not exceed: P.N, B or Nc (60 R245). -/
def carrier (i : Instr) (p : Snapshot) : Option Nat :=
  match i with
  | .pack => some p.bitcap
  | .dctemb => some p.blocks
  | .dwtemb => some p.coeffs
  | .nop | .dct1d | .idct1d | .dct2d | .idct2d | .dwt2d | .idwt2d | .chext | .chrst | .psnr
  | .qembed | .qextract | .unpack | .dctcap | .dctext | .dwtcap | .dwtext => none

/-! ### The checks (60 R245) -/

/-- 1 ≤ S ≤ 0x7FFFFFFF (10 R38). -/
def strengthOk (p : Snapshot) : Bool := decide (1 ≤ p.strength ∧ p.strength ≤ 0x7FFFFFFF)

/-- 1 ≤ LV ≤ 7 (10 R40). -/
def levelsOk (p : Snapshot) : Bool := decide (1 ≤ p.levels ∧ p.levels ≤ 7)

/-- Condition 2 of 60 R245. -/
def badOption (i : Instr) (p : Snapshot) : Bool :=
  (readsStrength i && !strengthOk p) || (readsRedundancy i && decide (p.redundancy = 0))
    || (readsLevels i && !levelsOk p)

/-- Condition 3 of 60 R245. -/
def badDim (i : Instr) (p : Snapshot) : Bool :=
  readsDims i && decide (p.width = 0 ∨ p.height = 0)

/-- Condition 4 of 60 R245. -/
def badLength (i : Instr) (p : Snapshot) : Bool := readsLength i && decide (p.length = 0)

/-- Condition 5 of 60 R245. -/
def overCapacity (i : Instr) (p : Snapshot) : Bool :=
  match carrier i p with
  | some n => decide (n < streamBits p.length p.redundancy)
  | none => false

/-- Condition 6 of 60 R245. -/
def badAlign (i : Instr) (p : Snapshot) : Bool := (regions i p).any Region.misaligned

/-- Condition 7 of 60 R245. -/
def badRange (i : Instr) (p : Snapshot) : Bool := (regions i p).any Region.outOfRange

/-- Condition 8 of 60 R245. -/
def badOverlap (i : Instr) (p : Snapshot) : Bool := anyOverlap (regions i p)

/-- firstError for a command word that decodes to i: the lowest code that holds wins (60 R245).
Condition 1, ILLEGAL_CMD, is the decoder's. -/
def firstError (i : Instr) (p : Snapshot) : Option ErrCode :=
  if badOption i p then some .badOption
  else if badDim i p then some .badDim
  else if badLength i p then some .badLength
  else if overCapacity i p then some .capacity
  else if badAlign i p then some .align
  else if badRange i p then some .addrRange
  else if badOverlap i p then some .overlap
  else none

/-! ### The platform -/

/-- Whether byte address a lies in the span. -/
def Span.contains (u : Span) (a : Nat) : Bool := decide (u.base ≤ a ∧ a < u.base + u.size)

/-- Whether the region shares a byte with the span. -/
def Region.meets (r : Region) (u : Span) : Bool :=
  decide (0 < r.size ∧ 0 < u.size ∧ r.base < u.base + u.size ∧ u.base < r.base + r.size)

/-- busOK(a): the data memory answers a DMA access at a (60 R244). -/
def busOK (f : Platform) (a : Nat) : Bool := !f.unbacked.any (fun u => u.contains a)

/-- allBusOK: busOK at every byte of every region, tested span against region (60 R244). -/
def allBusOK (f : Platform) (rs : List Region) : Bool :=
  rs.all fun r => !f.unbacked.any fun u => r.meets u

/-- Some byte of some region maps a device (20 R73). -/
def touchesDevice (f : Platform) (rs : List Region) : Bool :=
  rs.any fun r => f.device.any fun u => r.meets u

/-! ### The command in flight -/

/-- The command of the latched word, if it is one (30 R97). -/
def inFlight (s : State) : Option Instr :=
  match decode s.snap.word with
  | .ok i => some i
  | .error _ => none

/-- The regions of the command in flight, none while BUSY = 0 (70 R276): those of 30 R93, also of a
command that is going to fail a check. DEDUCED: BUSY = 1 is the window (notes/assumptions/8.md).
DESIGN CHOICE: a size that depends on R = 0 or on an LV out of range (notes/assumptions/20.md). -/
def activeRegions (s : State) : List Region :=
  match s.status.busy, inFlight s with
  | true, some i => regions i s.snap
  | _, _ => []

end Sys2Proof.Machine
end

