-- ==== Sys2Proof/Machine/Ops.lean ====
section
/-! DEFINITION. The operations every meaning shares: the data memory (20_memory.md), the register
window (10_state.md R20 to R45), acceptance (10 R44), completion with and without error
(60_exceptions.md R240 to R244), and the reset input (70_reset_and_hazards.md R270, R271). -/

namespace Sys2Proof.Machine

/-! ### Bytes of the data memory -/

/-- What an address with no entry reads as. DESIGN CHOICE, unsafe: the spec gives no contents at
power-on (70 R272). See notes/assumptions/1.md. -/
def unlistedByte : Byte := 0x00

/-- The byte at address a. -/
def readByte : Memory → Nat → Byte
  | [], _ => unlistedByte
  | (x, b) :: m, a => if x = a then b else readByte m a

/-- The entries of the bytes bs from address a on; bytes an unlisted address reads as need none. -/
def cellsOf (a : Nat) : List Byte → Memory
  | [] => []
  | b :: bs => if b = unlistedByte then cellsOf (a + 1) bs else (a, b) :: cellsOf (a + 1) bs

/-- MemWrite of consecutive bytes from address a on (00 R14). -/
def writeBytes (m : Memory) (a : Nat) (bs : List Byte) : Memory :=
  m.filter (fun c => decide (c.1 < a)) ++ cellsOf a bs
    ++ m.filter (fun c => decide (a + bs.length ≤ c.1))

/-- The n bytes from address a on, one by one. -/
def bytesAt (m : Memory) (a n : Nat) : List Byte := (List.range n).map fun k => readByte m (a + k)

/-- `bytesAt` by halving the window, so that long windows evaluate fast. -/
def loadWindow : Nat → Memory → Nat → Nat → List Byte
  | 0, m, a, n => bytesAt m a n
  | fuel + 1, m, a, n =>
    if n ≤ 8 then bytesAt m a n
    else
      loadWindow fuel (m.filter fun c => decide (c.1 < a + n / 2)) a (n / 2)
        ++ loadWindow fuel (m.filter fun c => decide (a + n / 2 ≤ c.1)) (a + n / 2) (n - n / 2)

/-- The n bytes from address a on: `bytesAt m a n`, see Laws.loadBytes_eq. -/
def loadBytes (m : Memory) (a n : Nat) : List Byte :=
  loadWindow 40 (m.filter fun c => decide (a ≤ c.1 ∧ c.1 < a + n)) a n

/-- The form every memory keeps: addresses strictly rising and below 2^32 (20 R60), no entry equal
to what an unlisted address reads as. -/
def Memory.wf : Memory → Bool
  | [] => true
  | (a, b) :: m =>
    decide (a < 2 ^ 32) && decide (b ≠ unlistedByte) && m.all (fun c => decide (a < c.1))
      && Memory.wf m

/-! ### Samples, pixels, bits -/

/-- The bytes of a word, least significant first (20 R62). -/
def wordBytes (v : Word) : List Byte :=
  [v.extractLsb' 0 8, v.extractLsb' 8 8, v.extractLsb' 16 8, v.extractLsb' 24 8]

/-- The word whose bytes, least significant first, are given (20 R62). -/
def wordOfBytes (b0 b1 b2 b3 : Byte) : Word := b3 ++ b2 ++ b1 ++ b0

/-- The sample words in consecutive bytes (20 R62, R64). -/
def samplesOfBytes : List Byte → List Int
  | b0 :: b1 :: b2 :: b3 :: bs => sext32 (wordOfBytes b0 b1 b2 b3) :: samplesOfBytes bs
  | _ => []

/-- Sample(a) = sext_32(MemRead(a, 4)) (00 R14). -/
def sampleAt (m : Memory) (a : Nat) : Int :=
  sext32 (wordOfBytes (readByte m a) (readByte m (a + 1)) (readByte m (a + 2)) (readByte m (a + 3)))

/-- Sample(a), Sample(a + 4), …, n of them (20 R64). -/
def loadSamples (m : Memory) (a n : Nat) : List Int := samplesOfBytes (loadBytes m a (4 * n))

/-- An h × w sample matrix at a (20 R64). -/
def loadMatrix (m : Memory) (a h w : Nat) : Mat := matOfFlat h w (loadSamples m a (h * w))

/-- The bytes PutSample writes for consecutive values (00 R14). -/
def sampleBytes (xs : List Int) : List Byte := xs.flatMap fun x => wordBytes (word32 (sat32 x))

/-- Bit j of a byte sequence, most significant bit of a byte first (20 R66). -/
def bitOfByte (b : Byte) (j : Nat) : Bool := b.getLsbD (7 - j)

/-- The eight bits of a byte, most significant first (20 R66, 41 R150). -/
def byteBits (b : Byte) : List Bool := (List.range 8).map fun j => bitOfByte b j

/-- Bit(a, j) of the pseudocode (00 R14, 20 R66). -/
def bitAt (m : Memory) (a j : Nat) : Bool := bitOfByte (readByte m (a + j / 8)) (j % 8)

/-- The n-bit array at a; pad bits are ignored (20 R66). -/
def loadBits (m : Memory) (a n : Nat) : List Bool :=
  ((loadBytes m a (ceilDiv n 8)).flatMap byteBits).take n

/-- The byte whose bits, most significant first, are the first eight given; missing ones are 0. -/
def byteOfBits (bs : List Bool) : Byte :=
  BitVec.ofNat 8 (bitsToNat ((List.range 8).map fun j => bs.getD j false))

/-- A bit array as bytes, most significant bit first, pad bits 0 (20 R66). -/
def packBits (bs : List Bool) : List Byte :=
  (List.range (ceilDiv bs.length 8)).map fun k => byteOfBits (bs.drop (8 * k))

/-! ### Updates of the state -/

/-- MemWrite on the state. -/
def putBytes (a : Nat) (bs : List Byte) (s : State) : State :=
  { s with mem := writeBytes s.mem a bs }

/-- PutSample of consecutive values from address a on (00 R14). -/
def putSamples (a : Nat) (xs : List Int) (s : State) : State := putBytes a (sampleBytes xs) s

/-- The next n free draws, as bytes. -/
def freeBytes (draws n : Nat) : List Byte :=
  (List.range n).map fun k => Config.freeByte (draws + k)

/-- Every byte of a region holds an unspecified value: a free draw each (20 R72). Bytes past 2^32
do not exist (20 R60). -/
def drawRegion (r : Region) (s : State) : State :=
  let n := min r.size (2 ^ 32 - r.base)
  { s with mem := writeBytes s.mem r.base (freeBytes s.draws n), draws := s.draws + n }

/-- `drawRegion` on each region in turn. -/
def drawRegions : List Region → State → State
  | [], s => s
  | r :: rs, s => drawRegions rs (drawRegion r s)

/-! ### Acceptance (10 R44) -/

/-- The snapshot latched for the command word c. -/
def latch (c : Word) (q : Params) : Snapshot :=
  { op := c.extractLsb' 0 8, rsv := c.extractLsb' 8 24, w := q.width, h := q.height,
    src := q.srcAddr, aux := q.auxAddr, dst := q.dstAddr, scr := q.scrAddr, len := q.len,
    s := q.strength, r := q.redundancy, lv := q.levels, fl := q.confFloor, t := q.psnrThresh,
    n := q.bitcap }

/-- Acceptance of the command word c, as one step (10 R44). -/
def accept (c : Word) (s : State) : State :=
  { s with lastCmd := c, status := s.status.accepted, results := Results.zero,
           snap := latch c s.params }

/-! ### The register window -/

/-- The register at a byte offset (10 R21); `none` is unmapped. -/
def Reg.ofOffset (off : Nat) : Option Reg :=
  match off with
  | 0x000 => some .id
  | 0x004 => some .const
  | 0x008 => some .ctrl
  | 0x00C => some .status
  | 0x010 => some .cmd
  | 0x014 => some .width
  | 0x018 => some .height
  | 0x01C => some .srcAddr
  | 0x020 => some .auxAddr
  | 0x024 => some .dstAddr
  | 0x028 => some .scrAddr
  | 0x02C => some .len
  | 0x030 => some .strength
  | 0x034 => some .redundancy
  | 0x038 => some .levels
  | 0x03C => some .confFloor
  | 0x040 => some .psnrThresh
  | 0x044 => some .bitcap
  | 0x080 => some .resCapBits
  | 0x084 => some .resCapBytes
  | 0x088 => some .resUnits
  | 0x08C => some .resUsed
  | 0x090 => some .resBits
  | 0x094 => some .resLength
  | 0x098 => some .resConf
  | 0x09C => some .resPsnr
  | _ => none

/-- ID (10 R22). -/
def idValue : Word := 0x574D4301

/-- CONST (10 R23). -/
def constValue : Word := 0x0037A043

/-- What a 32-bit read of a register returns (10 R21). -/
def readReg (s : State) : Reg → Word
  | .id => idValue
  | .const => constValue
  | .ctrl => s.ctrl.toWord
  | .status => s.status.toWord
  | .cmd => s.lastCmd
  | .width => s.params.width.setWidth 32
  | .height => s.params.height.setWidth 32
  | .srcAddr => s.params.srcAddr
  | .auxAddr => s.params.auxAddr
  | .dstAddr => s.params.dstAddr
  | .scrAddr => s.params.scrAddr
  | .len => s.params.len
  | .strength => s.params.strength
  | .redundancy => s.params.redundancy.setWidth 32
  | .levels => s.params.levels.setWidth 32
  | .confFloor => s.params.confFloor
  | .psnrThresh => s.params.psnrThresh
  | .bitcap => s.params.bitcap
  | .resCapBits => s.results.capBits
  | .resCapBytes => s.results.capBytes
  | .resUnits => s.results.units
  | .resUsed => s.results.used
  | .resBits => s.results.bits
  | .resLength => s.results.length
  | .resConf => s.results.conf
  | .resPsnr => s.results.psnr

/-- A host write of c to CMD (10 R34). -/
def writeCmd (c : Word) (s : State) : State :=
  if s.status.busy then { s with status := { s.status with cmdOvr := true } } else accept c s

/-- A 32-bit write of v to a register; reserved bits and read-only registers ignore it (10 R20,
R21). -/
def writeReg (r : Reg) (v : Word) (s : State) : State :=
  match r with
  | .id => s
  | .const => s
  | .ctrl => { s with ctrl := Ctrl.ofWord v }
  | .status => { s with status := s.status.writeOneToClear v }
  | .cmd => writeCmd v s
  | .width => { s with params := { s.params with width := v.setWidth 16 } }
  | .height => { s with params := { s.params with height := v.setWidth 16 } }
  | .srcAddr => { s with params := { s.params with srcAddr := v } }
  | .auxAddr => { s with params := { s.params with auxAddr := v } }
  | .dstAddr => { s with params := { s.params with dstAddr := v } }
  | .scrAddr => { s with params := { s.params with scrAddr := v } }
  | .len => { s with params := { s.params with len := v } }
  | .strength => { s with params := { s.params with strength := v } }
  | .redundancy => { s with params := { s.params with redundancy := v.setWidth 16 } }
  | .levels => { s with params := { s.params with levels := v.setWidth 4 } }
  | .confFloor => { s with params := { s.params with confFloor := v } }
  | .psnrThresh => { s with params := { s.params with psnrThresh := v } }
  | .bitcap => { s with params := { s.params with bitcap := v } }
  | .resCapBits => s
  | .resCapBytes => s
  | .resUnits => s
  | .resUsed => s
  | .resBits => s
  | .resLength => s
  | .resConf => s
  | .resPsnr => s

/-! ### Completion (60 R240 to R244) -/

/-- Completion without error: DONE set, BUSY cleared (60 R240). -/
def finish (s : State) : State := { s with status := s.status.succeeded }

/-- errorCompletion(e) for a check error: no byte of memory and no result changes (60 R243). -/
def errorCompletion (e : ErrCode) (s : State) : State := { s with status := s.status.failed e }

/-- errorCompletion(BUS_ERROR): every byte of every write region becomes unspecified (60 R243,
R244). -/
def busErrorCompletion (i : Instr) (s : State) : State :=
  errorCompletion .busError (drawRegions (writeRegions i s.snap) s)

/-- complete(): the one atomic step of command i, given the operation its rule describes (60
R240). A region that maps a device is refused once the checks have passed (20 R73). -/
def complete (i : Instr) (operation : State → State) (s : State) :
    Host.Outcome State Fault Refusal :=
  match firstError i s.snap with
  | some e => .next (errorCompletion e s)
  | none =>
    if touchesDevice s.platform (regions i s.snap) then .refused .deviceRegion
    else if allBusOK s.platform (regions i s.snap) then .next (finish (operation s))
    else .next (busErrorCompletion i s)

/-! ### The reset input (70 R270, R271) -/

/-- The write regions a reset leaves unspecified: those of the command in flight (70 R271). DESIGN
CHOICE: a byte that also lies in a read region is one of theirs (notes/assumptions/21.md). -/
def abandonedRegions (s : State) : List Region := (activeRegions s).filter Region.isWrite

/-- The reset input asserted (70 R270). A command in flight is abandoned and its write regions
hold free draws (70 R271); no other byte of memory changes (70 R272). -/
def resetInput (s : State) : State :=
  { drawRegions (abandonedRegions s) s with
    ctrl := Ctrl.reset, status := Status.reset, lastCmd := 0, params := Params.reset,
    results := Results.zero, snap := Snapshot.discarded }

end Sys2Proof.Machine
end

