-- ==== Sys2Proof/Machine/Control.lean ====
section
/-! DEFINITION. NOP (44_control.md R220). -/

namespace Sys2Proof.Machine

/-- NOP (44 R220): no operation; completion alone sets DONE. -/
def execNop (s : State) : Host.Outcome State Fault Refusal := complete .nop (fun s => s) s

end Sys2Proof.Machine
end

