-- ==== Sys2Proof/Machine/BitPack.lean ====
section
/-! DEFINITION. The bit-packing protocol: frame, repetition code, majority decode, PACK and UNPACK
(41_bitpack.md R150 to R159). -/

namespace Sys2Proof.Machine

/-- The length header: bit i is bit (31 - i) of L (41 R150). -/
def headerBits (len : Nat) : List Bool := (List.range 32).map fun i => len.testBit (31 - i)

/-- The frame of a payload: its byte count, then its bits, most significant first (41 R150). -/
def frame (payload : List Byte) : List Bool :=
  headerBits payload.length ++ payload.flatMap byteBits

/-- The transmitted stream: each frame bit r times in a row (41 R151). -/
def stream (f : List Bool) (r : Nat) : List Bool := f.flatMap fun b => List.replicate r b

/-- k_i: the number of 1s in chunk i (41 R152). -/
def chunkOnes (s : List Bool) (r i : Nat) : Nat := (((s.drop (i * r)).take r).filter id).length

/-- bit_i: the majority of chunk i, a tie giving 0 (41 R152). -/
def majority (s : List Bool) (r i : Nat) : Bool := decide (r < 2 * chunkOnes s r i)

/-- a_i = max(k_i, r - k_i) (41 R153). -/
def agreement (s : List Bool) (r i : Nat) : Nat := max (chunkOnes s r i) (r - chunkOnes s r i)

/-- The length the header chunks carry (41 R154). -/
def decodedLength (s : List Bool) (r : Nat) : Nat :=
  bitsToNat ((List.range 32).map fun i => majority s r i)

/-- Payload byte m (41 R154). -/
def decodedByte (s : List Bool) (r m : Nat) : Byte :=
  BitVec.ofNat 8 (bitsToNat ((List.range 8).map fun j => majority s r (32 + 8 * m + j)))

/-- plausible(L, N, r) (41 R155). -/
def plausible (len n r : Nat) : Bool := decide (1 ≤ len ∧ streamBits len r ≤ n)

/-- A: the agreeing copies of all F chunks, header included (41 R154, R156). -/
def totalAgreement (s : List Bool) (r len : Nat) : Nat :=
  ((List.range (frameBits len)).map fun i => agreement s r i).sum

/-- The payload and the confidence in Q16.16 of a successful decode (41 R154). -/
structure Decoded where
  payload : List Byte
  conf : Nat
  deriving DecidableEq, Repr

/-- decode(s, N, r, Fl), with N the length of s; `none` is FAIL (41 R154). -/
def decodeStream (s : List Bool) (r fl : Nat) : Option Decoded :=
  let len := decodedLength s r
  let agree := totalAgreement s r len
  if s.length < 32 * r then none
  else if !plausible len s.length r then none
  else if agree * 65536 < fl * r * frameBits len then none
  else some { payload := (List.range len).map fun m => decodedByte s r m
              conf := agree * 65536 / (r * frameBits len) }

/-- RES_CAP_BITS and RES_CAP_BYTES for a carrier of n positions (41 R157). -/
def reportCapacity (n r : Nat) (s : State) : State :=
  { s with results := { s.results with capBits := BitVec.ofNat 32 (capBits n r)
                                       capBytes := BitVec.ofNat 32 (capBytes n r) } }

/-- RES_UNITS. -/
def reportUnits (n : Nat) (s : State) : State :=
  { s with results := { s.results with units := BitVec.ofNat 32 n } }

/-- RES_USED = T and RES_BITS = F for a payload of the given length (41 R158). -/
def reportEmbedded (len r : Nat) (s : State) : State :=
  { s with results := { s.results with used := BitVec.ofNat 32 (streamBits len r)
                                       bits := BitVec.ofNat 32 (frameBits len) } }

/-- The end of an extraction: the payload to DST and DETECT, or a detection failure (41 R159, 60
R247). -/
def reportDecode (dst : Nat) (d : Option Decoded) (s : State) : State :=
  match d with
  | none =>
    { s with status := { s.status with detect := false }
             results := { s.results with length := 0, conf := 0 } }
  | some d =>
    { putBytes dst d.payload s with
      status := { s.status with detect := true }
      results := { s.results with length := BitVec.ofNat 32 d.payload.length
                                  conf := BitVec.ofNat 32 d.conf } }

/-- The operation of PACK (41 R158). -/
def packOperation (s : State) : State :=
  let p := s.snap
  let bits := stream (frame (loadBytes s.mem p.srcAddr p.length)) p.redundancy
  reportEmbedded p.length p.redundancy
    (reportCapacity p.bitcap p.redundancy (putBytes p.dstAddr (packBits bits) s))

/-- The operation of UNPACK (41 R159). -/
def unpackOperation (s : State) : State :=
  let p := s.snap
  let bits := loadBits s.mem p.srcAddr p.bitcap
  reportDecode p.dstAddr (decodeStream bits p.redundancy p.floor)
    (reportCapacity p.bitcap p.redundancy (reportUnits p.bitcap s))

/-- PACK (41 R158). -/
def execPack (s : State) : Host.Outcome State Fault Refusal := complete .pack packOperation s

/-- UNPACK (41 R159). -/
def execUnpack (s : State) : Host.Outcome State Fault Refusal := complete .unpack unpackOperation s

end Sys2Proof.Machine
end

