-- ==== Sys2Proof/Machine/Channel.lean ====
section
/-! DEFINITION. Channel extraction and restoration (40_transforms.md R126 to R128). -/

namespace Sys2Proof.Machine

/-- The samples of channel 2 of the pixels in a byte sequence, in order: b·2^16 (40 R126). -/
def channelSamples : List Byte → List Int
  | _ :: _ :: b :: _ :: px => (b.toNat : Int) * 65536 :: channelSamples px
  | _ => []

/-- chext: the channel matrix of a w × h pixel buffer (40 R126). -/
def chext (pix : List Byte) (w h : Nat) : Mat := matOfFlat h w (channelSamples pix)

/-- rnd(x, 16) clamped to [0, 255] (40 R127). It is no saturation (10 R26). -/
def clampByte (x : Int) : Byte := BitVec.ofInt 8 (min 255 (max 0 (rnd x 16)))

/-- The pixels with channel 2 replaced by the clamped samples, in order (40 R127). -/
def restorePixels : List Byte → List Int → List Byte
  | r :: g :: _ :: a :: px, x :: xs => r :: g :: clampByte x :: a :: restorePixels px xs
  | px, _ => px

/-- chrst(pix, M, w, h) (40 R127). -/
def chrst (pix : List Byte) (M : Mat) : List Byte := restorePixels pix M.flatten

/-- The operation of CHEXT (40 R126). -/
def chextOperation (s : State) : State :=
  let p := s.snap
  putSamples p.dstAddr (chext (loadBytes s.mem p.srcAddr p.imageBytes) p.width p.height).flatten s

/-- The operation of CHRST (40 R128). -/
def chrstOperation (s : State) : State :=
  let p := s.snap
  putBytes p.dstAddr
    (chrst (loadBytes s.mem p.srcAddr p.imageBytes)
      (loadMatrix s.mem p.auxAddr p.height p.width)) s

/-- CHEXT (40 R126). -/
def execChext (s : State) : Host.Outcome State Fault Refusal := complete .chext chextOperation s

/-- CHRST (40 R128). -/
def execChrst (s : State) : Host.Outcome State Fault Refusal := complete .chrst chrstOperation s

end Sys2Proof.Machine
end

