-- ==== Sys2Proof/Machine/Dct.lean ====
section
/-! DEFINITION. The 8-point and 8×8 DCT kernels and their four commands (40_transforms.md R110 to
R118). -/

namespace Sys2Proof.Machine

/-- The cosine ROM C[k][n], signed Q1.30; the table is normative (40 R110). -/
def cosRom : Mat :=
  [[379625062, 379625062, 379625062, 379625062, 379625062, 379625062, 379625062, 379625062],
   [526555088, 446391849, 298269498, 104738319, -104738319, -298269498, -446391849, -526555088],
   [496004047, 205451603, -205451603, -496004047, -496004047, -205451603, 205451603, 496004047],
   [446391849, -104738319, -526555088, -298269498, 298269498, 526555088, 104738319, -446391849],
   [379625062, -379625062, -379625062, 379625062, 379625062, -379625062, -379625062, 379625062],
   [298269498, -526555088, 104738319, 446391849, -446391849, -104738319, 526555088, -298269498],
   [205451603, -496004047, 496004047, -205451603, -205451603, 496004047, -496004047, 205451603],
   [104738319, -298269498, 446391849, -526555088, 526555088, -446391849, 298269498, -104738319]]

/-- The forward 8-point kernel before saturation: rnd of the exact sum, for each k (40 R111). -/
def dct8Raw (x : List Int) : List Int := cosRom.map fun row => rnd (dot row x) 30

/-- dct8 (40 R111). -/
def dct8 (x : List Int) : Sat (List Int) := satVec (dct8Raw x)

/-- The inverse 8-point kernel before saturation, by the transpose of the ROM (40 R112). -/
def idct8Raw (X : List Int) : List Int :=
  (matTranspose 8 cosRom).map fun col => rnd (dot col X) 30

/-- idct8 (40 R112). -/
def idct8 (X : List Int) : Sat (List Int) := satVec (idct8Raw X)

/-- A vector kernel on every row of a matrix. -/
def onRows (kernel : List Int → Sat (List Int)) (M : Mat) : Sat Mat :=
  let rows := M.map kernel
  { val := rows.map Sat.val, clipped := rows.any Sat.clipped }

/-- A vector kernel on every column of an 8×8 block. -/
def onColumns (kernel : List Int → Sat (List Int)) (M : Mat) : Sat Mat :=
  let cols := onRows kernel (matTranspose 8 M)
  { val := matTranspose 8 cols.val, clipped := cols.clipped }

/-- dct2d: rows first, then columns (40 R113). -/
def dct2d (Bk : Mat) : Sat Mat :=
  let rw := onRows dct8 Bk
  let X := onColumns dct8 rw.val
  { val := X.val, clipped := rw.clipped || X.clipped }

/-- idct2d: columns first, then rows (40 R114). -/
def idct2d (X : Mat) : Sat Mat :=
  let rw := onColumns idct8 X
  let Bk := onRows idct8 rw.val
  { val := Bk.val, clipped := rw.clipped || Bk.clipped }

/-- The operation of a command that maps 8 samples to 8 (40 R115, R116). -/
def vectorOperation (kernel : List Int → Sat (List Int)) (s : State) : State :=
  let y := kernel (loadSamples s.mem s.snap.srcAddr 8)
  noteSat y.clipped (putSamples s.snap.dstAddr y.val s)

/-- The operation of a command that maps an 8×8 block to one (40 R117, R118). -/
def blockOperation (kernel : Mat → Sat Mat) (s : State) : State :=
  let Y := kernel (loadMatrix s.mem s.snap.srcAddr 8 8)
  noteSat Y.clipped (putSamples s.snap.dstAddr Y.val.flatten s)

/-- DCT1D (40 R115). -/
def execDct1d (s : State) : Host.Outcome State Fault Refusal :=
  complete .dct1d (vectorOperation dct8) s

/-- IDCT1D (40 R116). -/
def execIdct1d (s : State) : Host.Outcome State Fault Refusal :=
  complete .idct1d (vectorOperation idct8) s

/-- DCT2D (40 R117). -/
def execDct2d (s : State) : Host.Outcome State Fault Refusal :=
  complete .dct2d (blockOperation dct2d) s

/-- IDCT2D (40 R118). -/
def execIdct2d (s : State) : Host.Outcome State Fault Refusal :=
  complete .idct2d (blockOperation idct2d) s

end Sys2Proof.Machine
end

