-- ==== Sys2Proof/Machine/Quant.lean ====
section
/-! DEFINITION. The quantizer, QEMBED and QEXTRACT (42_dct_codec.md R170 to R174). -/

namespace Sys2Proof.Machine

/-- qround(C, S) = floor((2·C + S) / (2·S)), ties toward +∞ (42 R170). -/
def qround (C S : Int) : Int := (2 * C + S) / (2 * S)

/-- The bit t as an integer. -/
def bitInt (t : Bool) : Int := if t then 1 else 0

/-- The multiple qembed moves to, as its index (42 R171). -/
def qindex (C : Int) (t : Bool) (S : Int) : Int :=
  let q := qround C S
  if parity q ≠ bitInt t then (if q * S ≤ C then q + 1 else q - 1) else q

/-- qembed before saturation (42 R171). -/
def qembedRaw (C : Int) (t : Bool) (S : Int) : Int := qindex C t S * S

/-- qembed(C, t, S) (42 R171). -/
def qembed (C : Int) (t : Bool) (S : Int) : Int := sat32 (qembedRaw C t S)

/-- qextract(C, S), as a bit (42 R172). -/
def qextract (C S : Int) : Bool := decide (parity (qround C S) = 1)

/-- qembed of the first coefficients with the given bits; later ones stay (42 R171). -/
def qembedList (S : Int) : List Int → List Bool → Sat (List Int)
  | c :: cs, t :: ts =>
    let rest := qembedList S cs ts
    { val := qembed c t S :: rest.val, clipped := clips (qembedRaw c t S) || rest.clipped }
  | cs, _ => { val := cs, clipped := false }

/-- The operation of QEMBED (42 R173). -/
def qembedOperation (s : State) : State :=
  let p := s.snap
  let y := qembedList p.strength (loadSamples s.mem p.srcAddr p.length)
    (loadBits s.mem p.auxAddr p.length)
  noteSat y.clipped (putSamples p.dstAddr y.val s)

/-- The operation of QEXTRACT (42 R174). -/
def qextractOperation (s : State) : State :=
  let p := s.snap
  putBytes p.dstAddr
    (packBits ((loadSamples s.mem p.srcAddr p.length).map fun c => qextract c p.strength)) s

/-- QEMBED (42 R173). -/
def execQembed (s : State) : Host.Outcome State Fault Refusal := complete .qembed qembedOperation s

/-- QEXTRACT (42 R174). -/
def execQextract (s : State) : Host.Outcome State Fault Refusal :=
  complete .qextract qextractOperation s

end Sys2Proof.Machine
end

