-- ==== Sys2Proof/Machine/DctCodec.lean ====
section
/-! DEFINITION. The DCT watermark codec: DCTCAP, DCTEMB and DCTEXT (42_dct_codec.md R176 to
R182). -/

namespace Sys2Proof.Machine

/-- DCT_U, the row of the coefficient that carries a bit (42 R177). -/
def dctU : Nat := 3

/-- DCT_V, its column (42 R177). -/
def dctV : Nat := 4

/-- Block b of a matrix with bw block columns (42 R176). -/
def blockOf (M : Mat) (bw b : Nat) : Mat :=
  ((M.drop (8 * (b / bw))).take 8).map fun row => (row.drop (8 * (b % bw))).take 8

/-- The matrix with element (u, v) replaced. -/
def matSet (M : Mat) (u v : Nat) (x : Int) : Mat := M.modify u fun row => row.set v x

/-- One block of dctEmbed: transform, embed bit t, transform back (42 R179). -/
def embedBlock (S : Int) (t : Bool) (Bk : Mat) : Sat Mat :=
  let X := dct2d Bk
  let c := matAt X.val dctU dctV
  let Y := idct2d (matSet X.val dctU dctV (qembed c t S))
  { val := Y.val, clipped := X.clipped || clips (qembedRaw c t S) || Y.clipped }

/-- Blocks 0 … T-1 after embedding, T the number of bits (42 R179). -/
def embedBlocks (S : Int) (M : Mat) (bw : Nat) (bits : List Bool) : List (Sat Mat) :=
  bits.zipIdx.map fun tb => embedBlock S tb.1 (blockOf M bw tb.2)

/-- The matrix with the given blocks put back; cells of later blocks and of the untiled margin
stay (42 R176, R179). -/
def withBlocks (M : Mat) (h w : Nat) (blocks : List Mat) : Mat :=
  matBuild h w fun i j =>
    let b := (i / 8) * (w / 8) + j / 8
    if i < 8 * (h / 8) ∧ j < 8 * (w / 8) ∧ b < blocks.length then
      matAt (blocks.getD b []) (i % 8) (j % 8)
    else matAt M i j

/-- dctEmbed(pix, w, h, p, L, S, r) (42 R179). -/
def dctEmbed (pix : List Byte) (w h : Nat) (payload : List Byte) (S : Int) (r : Nat) :
    Sat (List Byte) :=
  let M := chext pix w h
  let blocks := embedBlocks S M (w / 8) (stream (frame payload) r)
  { val := chrst pix (withBlocks M h w (blocks.map Sat.val))
    clipped := blocks.any Sat.clipped }

/-- dctBits(pix, w, h, S): one bit per block, in scan order (42 R181). -/
def dctBits (pix : List Byte) (w h : Nat) (S : Int) : Sat (List Bool) :=
  let M := chext pix w h
  let Xs := (List.range (dctBlocks w h)).map fun b => dct2d (blockOf M (w / 8) b)
  { val := Xs.map fun X => qextract (matAt X.val dctU dctV) S, clipped := Xs.any Sat.clipped }

/-- The operation of DCTCAP (42 R178). -/
def dctcapOperation (s : State) : State :=
  let p := s.snap
  reportUnits p.blocks (reportCapacity p.blocks p.redundancy s)

/-- The operation of DCTEMB (42 R180). -/
def dctembOperation (s : State) : State :=
  let p := s.snap
  let out := dctEmbed (loadBytes s.mem p.srcAddr p.imageBytes) p.width p.height
    (loadBytes s.mem p.auxAddr p.length) p.strength p.redundancy
  reportEmbedded p.length p.redundancy (reportUnits p.blocks
    (reportCapacity p.blocks p.redundancy (noteSat out.clipped (putBytes p.dstAddr out.val s))))

/-- The operation of DCTEXT (42 R182). -/
def dctextOperation (s : State) : State :=
  let p := s.snap
  let bits := dctBits (loadBytes s.mem p.srcAddr p.imageBytes) p.width p.height p.strength
  reportDecode p.dstAddr (decodeStream bits.val p.redundancy p.floor)
    (reportCapacity p.blocks p.redundancy (reportUnits p.blocks (noteSat bits.clipped s)))

/-- DCTCAP (42 R178). -/
def execDctcap (s : State) : Host.Outcome State Fault Refusal := complete .dctcap dctcapOperation s

/-- DCTEMB (42 R180). -/
def execDctemb (s : State) : Host.Outcome State Fault Refusal := complete .dctemb dctembOperation s

/-- DCTEXT (42 R182). -/
def execDctext (s : State) : Host.Outcome State Fault Refusal := complete .dctext dctextOperation s

end Sys2Proof.Machine
end

