-- ==== Sys2Proof/Machine/Dwt.lean ====
section
/-! DEFINITION. The Haar DWT kernels, the subband layout, and DWT2D and IDWT2D
(40_transforms.md R119 to R125). -/

namespace Sys2Proof.Machine

/-- The detail subbands of one level (40 R119). -/
structure Bands where
  lh : Mat
  hl : Mat
  hh : Mat
  deriving DecidableEq, Repr

/-- A decomposition: the detail subbands of levels 1 … Lv, level 1 first, and LL_Lv (40 R121). -/
structure Decomp where
  details : List Bands
  ll : Mat
  deriving DecidableEq, Repr

/-- E(i, j): the element, or the nearest edge sample past the last row or column (40 R119). -/
def edgeAt (A : Mat) (h w i j : Nat) : Int := matAt A (min i (h - 1)) (min j (w - 1))

/-- The forward formulas on one 2×2 square, with the signs of b, c and d given (40 R119). -/
def haarBand (sb sc sd : Int) (A : Mat) (h w : Nat) : Sat Mat :=
  satMat <| matBuild (halfUp h) (halfUp w) fun i j =>
    rnd (edgeAt A h w (2 * i) (2 * j) + sb * edgeAt A h w (2 * i) (2 * j + 1)
      + sc * edgeAt A h w (2 * i + 1) (2 * j) + sd * edgeAt A h w (2 * i + 1) (2 * j + 1)) 1

/-- LL: a + b + c + d (40 R119). -/
def haarLL (A : Mat) (h w : Nat) : Sat Mat := haarBand 1 1 1 A h w
/-- LH: a - b + c - d (40 R119). -/
def haarLH (A : Mat) (h w : Nat) : Sat Mat := haarBand (-1) 1 (-1) A h w
/-- HL: a + b - c - d (40 R119). -/
def haarHL (A : Mat) (h w : Nat) : Sat Mat := haarBand 1 (-1) (-1) A h w
/-- HH: a - b - c + d (40 R119). -/
def haarHH (A : Mat) (h w : Nat) : Sat Mat := haarBand (-1) (-1) 1 A h w

/-- dwt(A, h, w, Lv) (40 R121), by recursion on the levels still to do. -/
def dwt (A : Mat) (h w : Nat) : Nat → Sat Decomp
  | 0 => { val := { details := [], ll := A }, clipped := false }
  | lv + 1 =>
    let ll := haarLL A h w
    let lh := haarLH A h w
    let hl := haarHL A h w
    let hh := haarHH A h w
    let deep := dwt ll.val (halfUp h) (halfUp w) lv
    { val := { details := { lh := lh.val, hl := hl.val, hh := hh.val } :: deep.val.details,
               ll := deep.val.ll }
      clipped := ll.clipped || lh.clipped || hl.clipped || hh.clipped || deep.clipped }

/-- The sign of a detail coefficient at an even (+) or odd (-) position (40 R120). -/
def haarSign (k : Nat) : Int := if k % 2 = 0 then 1 else -1

/-- ihaar (40 R120): the formulas are computed for all 2·ceil(h/2) × 2·ceil(w/2) positions and the
h × w of them are kept. DEDUCED: a sat32 at a position that is not kept counts for SAT; see
notes/assumptions/11.md. -/
def ihaar (ll : Mat) (b : Bands) (h w : Nat) : Sat Mat :=
  let full := satMat <| matBuild (2 * halfUp h) (2 * halfUp w) fun i j =>
    rnd (matAt ll (i / 2) (j / 2) + haarSign j * matAt b.lh (i / 2) (j / 2)
      + haarSign i * matAt b.hl (i / 2) (j / 2)
      + haarSign i * haarSign j * matAt b.hh (i / 2) (j / 2)) 1
  { val := (full.val.take h).map fun row => row.take w, clipped := full.clipped }

/-- idwt: from the deepest level outward (40 R122). -/
def idwt (ll : Mat) : List Bands → Nat → Nat → Sat Mat
  | [], _, _ => { val := ll, clipped := false }
  | b :: bs, h, w =>
    let inner := idwt ll bs (halfUp h) (halfUp w)
    let A := ihaar inner.val b h w
    { val := A.val, clipped := inner.clipped || A.clipped }

/-- The samples of a decomposition in the order of the layout (40 R123). -/
def layoutSamples (d : Decomp) : List Int :=
  (d.details.flatMap fun b => b.lh.flatten ++ b.hl.flatten ++ b.hh.flatten) ++ d.ll.flatten

/-- The decomposition stored at a, for an h × w matrix and the given levels (40 R123). -/
def loadLayout (m : Memory) (a h w : Nat) : Nat → Decomp
  | 0 => { details := [], ll := loadMatrix m a h w }
  | lv + 1 =>
    let n := 4 * (halfUp h * halfUp w)
    let b : Bands :=
      { lh := loadMatrix m a (halfUp h) (halfUp w)
        hl := loadMatrix m (a + n) (halfUp h) (halfUp w)
        hh := loadMatrix m (a + 2 * n) (halfUp h) (halfUp w) }
    let deep := loadLayout m (a + 3 * n) (halfUp h) (halfUp w) lv
    { details := b :: deep.details, ll := deep.ll }

/-- The operation of DWT2D (40 R124). -/
def dwtOperation (s : State) : State :=
  let p := s.snap
  let d := dwt (loadMatrix s.mem p.srcAddr p.height p.width) p.height p.width p.levels
  noteSat d.clipped (putSamples p.dstAddr (layoutSamples d.val) s)

/-- The operation of IDWT2D (40 R125). -/
def idwtOperation (s : State) : State :=
  let p := s.snap
  let d := loadLayout s.mem p.srcAddr p.height p.width p.levels
  let A := idwt d.ll d.details p.height p.width
  noteSat A.clipped (putSamples p.dstAddr A.val.flatten s)

/-- DWT2D (40 R124). -/
def execDwt2d (s : State) : Host.Outcome State Fault Refusal := complete .dwt2d dwtOperation s

/-- IDWT2D (40 R125). -/
def execIdwt2d (s : State) : Host.Outcome State Fault Refusal := complete .idwt2d idwtOperation s

end Sys2Proof.Machine
end

