-- ==== Sys2Proof/Machine/DwtCodec.lean ====
section
/-! DEFINITION. The DWT watermark codec: DWTCAP, DWTEMB and DWTEXT (43_dwt_codec.md R200 to
R206). -/

namespace Sys2Proof.Machine

/-- The top-left h × w region of a matrix (43 R200). -/
def topLeft (M : Mat) (h w : Nat) : Mat := (M.take h).map fun row => row.take w

/-- The matrix with its top-left h' × w' region replaced (43 R203). -/
def withTopLeft (M : Mat) (h w : Nat) (A : Mat) (h' w' : Nat) : Mat :=
  matBuild h w fun i j => if i < h' ∧ j < w' then matAt A i j else matAt M i j

/-- HH of the deepest level (43 R201). -/
def deepestHH (details : List Bands) : Mat :=
  match details.getLast? with
  | some b => b.hh
  | none => []

/-- The detail subbands with HH of the deepest level replaced (43 R203). -/
def replaceDeepestHH (hh : Mat) : List Bands → List Bands
  | [] => []
  | [b] => [{ b with hh := hh }]
  | b :: bs => b :: replaceDeepestHH hh bs

/-- dwtEmbed(pix, w, h, p, L, S, r, Lv) (43 R203). -/
def dwtEmbed (pix : List Byte) (w h : Nat) (payload : List Byte) (S : Int) (r lv : Nat) :
    Sat (List Byte) :=
  let M := chext pix w h
  let h' := alignedSize h lv
  let w' := alignedSize w lv
  let d := dwt (topLeft M h' w') h' w' lv
  let hh := qembedList S (deepestHH d.val.details).flatten (stream (frame payload) r)
  let details := replaceDeepestHH (matOfFlat (bandSize h lv) (bandSize w lv) hh.val) d.val.details
  let A := idwt d.val.ll details h' w'
  { val := chrst pix (withTopLeft M h w A.val h' w')
    clipped := d.clipped || hh.clipped || A.clipped }

/-- dwtBits(pix, w, h, S, Lv): one bit per coefficient of HH_Lv, row-major (43 R205). -/
def dwtBits (pix : List Byte) (w h : Nat) (S : Int) (lv : Nat) : Sat (List Bool) :=
  let h' := alignedSize h lv
  let w' := alignedSize w lv
  let d := dwt (topLeft (chext pix w h) h' w') h' w' lv
  { val := (deepestHH d.val.details).flatten.map fun c => qextract c S, clipped := d.clipped }

/-- The scratch region of the DWT codec, left holding free draws (20 R72). -/
def drawScratch (s : State) : State :=
  drawRegion (writeSamplesAt s.snap.scrAddr s.snap.scratchBytes) s

/-- The operation of DWTCAP (43 R202). -/
def dwtcapOperation (s : State) : State :=
  let p := s.snap
  reportUnits p.coeffs (reportCapacity p.coeffs p.redundancy s)

/-- The operation of DWTEMB (43 R204). -/
def dwtembOperation (s : State) : State :=
  let p := s.snap
  let out := dwtEmbed (loadBytes s.mem p.srcAddr p.imageBytes) p.width p.height
    (loadBytes s.mem p.auxAddr p.length) p.strength p.redundancy p.levels
  reportEmbedded p.length p.redundancy (reportUnits p.coeffs
    (reportCapacity p.coeffs p.redundancy
      (drawScratch (noteSat out.clipped (putBytes p.dstAddr out.val s)))))

/-- The operation of DWTEXT (43 R206). -/
def dwtextOperation (s : State) : State :=
  let p := s.snap
  let bits := dwtBits (loadBytes s.mem p.srcAddr p.imageBytes) p.width p.height p.strength p.levels
  reportDecode p.dstAddr (decodeStream bits.val p.redundancy p.floor)
    (reportCapacity p.coeffs p.redundancy
      (reportUnits p.coeffs (drawScratch (noteSat bits.clipped s))))

/-- DWTCAP (43 R202). -/
def execDwtcap (s : State) : Host.Outcome State Fault Refusal := complete .dwtcap dwtcapOperation s

/-- DWTEMB (43 R204). -/
def execDwtemb (s : State) : Host.Outcome State Fault Refusal := complete .dwtemb dwtembOperation s

/-- DWTEXT (43 R206). -/
def execDwtext (s : State) : Host.Outcome State Fault Refusal := complete .dwtext dwtextOperation s

end Sys2Proof.Machine
end

