-- ==== Sys2Proof/Machine/Psnr.lean ====
section
/-! DEFINITION. The PSNR comparator (40_transforms.md R129, R130). -/

namespace Sys2Proof.Machine

/-- D: the exact sum of squared differences (40 R129). -/
def squaredError (A B : Mat) : Nat :=
  (List.zipWith (fun a b => ((a - b) * (a - b)).toNat) A.flatten B.flatten).sum

/-- (65025·n·2^32)^2560 (40 R129). -/
def psnrPeak (n : Nat) : Nat := (65025 * n * 2 ^ 32) ^ 2560

/-- 10^m · D^2560 ≤ (65025·n·2^32)^2560, with the power moved right for m < 0 (40 R129). -/
def psnrHolds (n D : Nat) (m : Int) : Bool :=
  decide (10 ^ m.toNat * D ^ 2560 ≤ psnrPeak n * 10 ^ (-m).toNat)

/-- The greatest m the inequality holds for between lo, where it holds, and hi, where it does not,
by bisection. -/
def psnrSearch (n D : Nat) : Nat → Int → Int → Int
  | 0, lo, _ => lo
  | fuel + 1, lo, hi =>
    if hi ≤ lo + 1 then lo
    else if psnrHolds n D ((lo + hi) / 2) then psnrSearch n D fuel ((lo + hi) / 2) hi
    else psnrSearch n D fuel lo ((lo + hi) / 2)

/-- psnr_q for D ≠ 0: it lies between the bounds 40 R129 derives. See notes/assumptions/14.md. -/
def psnrQ (n D : Nat) : Int := psnrSearch n D 20 (-12600) 62000

/-- The flags and result of PSNR (40 R130). -/
def psnrReport (n D : Nat) (s : State) : State :=
  if D = 0 then
    { s with status := { s.status with psnrInf := true, psnrPass := true }
             results := { s.results with psnr := 0x7FFFFFFF } }
  else
    { s with status := { s.status with psnrPass := decide (s.snap.threshold ≤ psnrQ n D) }
             results := { s.results with psnr := word32 (psnrQ n D) } }

/-- The operation of PSNR (40 R130). -/
def psnrOperation (s : State) : State :=
  let p := s.snap
  psnrReport (p.height * p.width)
    (squaredError (loadMatrix s.mem p.srcAddr p.height p.width)
      (loadMatrix s.mem p.auxAddr p.height p.width)) s

/-- PSNR (40 R130). -/
def execPsnr (s : State) : Host.Outcome State Fault Refusal := complete .psnr psnrOperation s

end Sys2Proof.Machine
end

