-- ==== Sys2Proof/Machine/Dispatch.lean ====
section
/-! DEFINITION. The meaning of each command (30_encoding.md R92): the completion of that command
for the snapshot held in the state (60_exceptions.md R240). -/

namespace Sys2Proof.Machine

def exec (i : Instr) (s : State) : Host.Outcome State Fault Refusal :=
  match i with
  | .nop => Sys2Proof.Machine.execNop s
  | .dct1d => Sys2Proof.Machine.execDct1d s
  | .idct1d => Sys2Proof.Machine.execIdct1d s
  | .dct2d => Sys2Proof.Machine.execDct2d s
  | .idct2d => Sys2Proof.Machine.execIdct2d s
  | .dwt2d => Sys2Proof.Machine.execDwt2d s
  | .idwt2d => Sys2Proof.Machine.execIdwt2d s
  | .chext => Sys2Proof.Machine.execChext s
  | .chrst => Sys2Proof.Machine.execChrst s
  | .psnr => Sys2Proof.Machine.execPsnr s
  | .qembed => Sys2Proof.Machine.execQembed s
  | .qextract => Sys2Proof.Machine.execQextract s
  | .pack => Sys2Proof.Machine.execPack s
  | .unpack => Sys2Proof.Machine.execUnpack s
  | .dctcap => Sys2Proof.Machine.execDctcap s
  | .dctemb => Sys2Proof.Machine.execDctemb s
  | .dctext => Sys2Proof.Machine.execDctext s
  | .dwtcap => Sys2Proof.Machine.execDwtcap s
  | .dwtemb => Sys2Proof.Machine.execDwtemb s
  | .dwtext => Sys2Proof.Machine.execDwtext s

end Sys2Proof.Machine
end

