-- ==== Sys2Proof/Machine/HostOps.lean ====
section
/-! DEFINITION. What one access of the host does (10_state.md R20, 20_memory.md R78,
70_reset_and_hazards.md R270 to R280). -/

namespace Sys2Proof.Machine

/-- The byte offset of a host address in the register window, if it falls there (10 R20). -/
def windowOffset (f : Platform) (addr : Nat) : Option Nat :=
  if f.regBase ≤ addr ∧ addr < f.regBase + 4096 then some (addr - f.regBase) else none

/-- A naturally aligned 32-bit access (10 R20). -/
def alignedWord (size : AccessSize) (off : Nat) : Bool := decide (size = .word) && decide (off % 4 = 0)

/-- A host register write. A narrow or misaligned one has no effect, one at an offset that names no
register is ignored (10 R20), and one outside the window does not reach WMC. -/
def hostRegWrite (addr : Nat) (size : AccessSize) (v : Word) (s : State) : State :=
  match windowOffset s.platform addr with
  | none => s
  | some off =>
    if alignedWord size off then
      match Reg.ofOffset off with
      | some r => writeReg r v s
      | none => s
    else s

/-- A host register read: no side effect on WMC. A narrow or misaligned one returns a free draw,
one at an offset that names no register returns 0 (10 R20). -/
def hostRegRead (addr : Nat) (size : AccessSize) (s : State) : State :=
  match windowOffset s.platform addr with
  | none => s
  | some off =>
    if alignedWord size off then
      match Reg.ofOffset off with
      | some r => { s with rdata := readReg s r }
      | none => { s with rdata := 0 }
    else { s with rdata := Config.freeWord s.draws, draws := s.draws + 1 }

/-- A host write of one byte of the data memory: the HAZARD fault when BUSY = 1 and the byte lies
in a region of the command in flight (70 R276). -/
def hostMemWrite (addr : Word) (b : Byte) (s : State) : Host.Outcome State Fault Refusal :=
  if (activeRegions s).any (fun r => r.contains addr.toNat) then .fault .hostHazard
  else .next (putBytes addr.toNat [b] s)

/-- A host read of one byte of the data memory: a free draw when BUSY = 1 and the byte lies in a
write region of the command in flight (70 R277). DESIGN CHOICE, safe: so also when the byte lies in a
read region of it too, where 70 R277 says both (notes/assumptions/21.md). -/
def hostMemRead (addr : Word) (s : State) : State :=
  if (abandonedRegions s).any (fun r => r.contains addr.toNat) then
    { s with rdata := (Config.freeByte s.draws).setWidth 32, draws := s.draws + 1 }
  else { s with rdata := (readByte s.mem addr.toNat).setWidth 32 }

/-- One access of the host that is not a pause. -/
def hostStep (op : HostOp) (s : State) : Host.Outcome State Fault Refusal :=
  match op with
  | .regWrite addr size v => .next (hostRegWrite addr size v s)
  | .regRead addr size => .next (hostRegRead addr size s)
  | .memWrite addr b => hostMemWrite addr b s
  | .memRead addr => .next (hostMemRead addr s)
  | .reset => .next (resetInput s)
  | .pause => .next s

end Sys2Proof.Machine
end

