-- ==== Sys2Proof/Machine/Step.lean ====
section
/-! DEFINITION. One step of the machine: the next access of the host, or the sequencer's step when
the host makes none (00_scope.md R19, 60_exceptions.md R240, 70_reset_and_hazards.md R282). -/

namespace Sys2Proof.Machine

/-- The sequencer's step, enabled exactly when BUSY = 1 (60 R240): the command the latched word
selects completes, and an illegal word completes with ILLEGAL_CMD (30 R97). While BUSY = 0 nothing
happens (70 R274). -/
def sequencerStep (s : State) : Host.Outcome State Fault Refusal :=
  if s.status.busy then
    match decode s.snap.word with
    | .ok i => exec i s
    | .error _ => .next (errorCompletion .illegalCmd s)
  else .next s

/-- One step (notes/assumptions/3.md): the host's next access; the sequencer steps when that is a
pause or when the host makes no further access. -/
def step (s : State) : Host.Outcome State Fault Refusal :=
  match s.host with
  | [] => sequencerStep s
  | .pause :: rest => sequencerStep { s with host := rest }
  | op :: rest => hostStep op { s with host := rest }

/-- The state whose very next step runs the command word `w`: the acceptance of `w` (10 R44), with
no host access before its completion. A command word is one 32-bit word, and bits above `nbits`
are 0. See notes/assumptions/4.md. -/
def State.withFetchWord (s : State) (nbits w : Nat) : State :=
  accept (BitVec.ofNat 32 (w % 2 ^ nbits)) { s with host := [] }

end Sys2Proof.Machine
end

