-- ==== Sys2Proof/Safety.lean ====
section
/-! DEFINITION. What counts as a good state and a safe step, in the terms the statements use. -/

namespace Sys2Proof.Machine

/-- The flags and result registers hold the values acceptance gave them (10 R44), CMD_OVR apart. -/
def State.clear (s : State) : Prop :=
  s.status.done = false ∧ s.status.err = false ∧ s.status.sat = false ∧ s.status.detect = false ∧
    s.status.psnrPass = false ∧ s.status.psnrInf = false ∧ s.status.errcode = none ∧
    s.results = Results.zero

/-- The invariant of the machine: what the rules promise of every state a run reaches. -/
structure State.Inv (s : State) : Prop where
  /-- The memory has its canonical form, below 2^32 (20 R60). -/
  mem_wf : Memory.wf s.mem = true
  /-- While BUSY = 1, flags and results read what acceptance gave them (60 R240). -/
  busy_clear : s.status.busy = true → s.clear
  /-- DONE and ERR are never both 1 (10 R29). -/
  done_or_err : ¬(s.status.done = true ∧ s.status.err = true)
  /-- ERR = 1 comes with a code (10 R29). -/
  err_code : s.status.err = true → s.status.errcode.isSome = true
  /-- DONE = 1 comes with no code (60 R241). -/
  done_code : s.status.done = true → s.status.errcode = none
  /-- After an error completion all result registers and result flags read 0 (10 R46, 60 R243). -/
  code_clear : s.status.errcode.isSome = true →
    s.results = Results.zero ∧ s.status.sat = false ∧ s.status.detect = false ∧
      s.status.psnrPass = false ∧ s.status.psnrInf = false
  /-- RES_LENGTH and RES_CONF are 0 while DETECT = 0 (10 R45). -/
  no_detect : s.status.detect = false → s.results.length = 0 ∧ s.results.conf = 0
  /-- RES_CONF is at most 1.0 (41 R156). -/
  conf_le : s.results.conf.toNat ≤ 65536
  /-- PSNR_INF comes with PSNR_PASS and the result 0x7FFFFFFF (40 R130). -/
  psnr_inf : s.status.psnrInf = true →
    s.status.psnrPass = true ∧ s.results.psnr = 0x7FFFFFFF
  /-- While BUSY = 1 the snapshot's word is LAST_CMD (10 R34, R44). -/
  busy_word : s.status.busy = true → s.snap.word = s.lastCmd

/-- The host keeps its duty of 70 R276 in this step: the step is no HAZARD. -/
def SafeStep (s : State) : Prop := step s ≠ .fault .hostHazard

/-- The command i runs to success: no check error (60 R245), plain memory under every region (20
R73), and every byte of every region backed (60 R244). -/
def Runs (i : Instr) (s : State) : Prop :=
  firstError i s.snap = none ∧ touchesDevice s.platform (regions i s.snap) = false ∧
    allBusOK s.platform (regions i s.snap) = true

end Sys2Proof.Machine
end

