-- ==== Sys2Proof/Certificates/Slice0/Obligations.lean ====
section
/-! DEFINITION. The statements about the model, for the provers. The formulas of the rules stand
here in index form, in `Sys2Proof.Claims`, apart from the model's own kernels. -/

open Sys2Proof Sys2Proof.Machine

namespace Sys2Proof.Claims

/-! ### Formulas of the rules, in index form -/

/-- The opcode map (30 R92). -/
def opcodeMap : List (Instr × Nat) :=
  [(.nop, 0x00), (.dct1d, 0x01), (.idct1d, 0x02), (.dct2d, 0x03), (.idct2d, 0x04),
   (.dwt2d, 0x05), (.idwt2d, 0x06), (.chext, 0x07), (.chrst, 0x08), (.psnr, 0x09),
   (.qembed, 0x0A), (.qextract, 0x0B), (.pack, 0x0C), (.unpack, 0x0D), (.dctcap, 0x10),
   (.dctemb, 0x11), (.dctext, 0x12), (.dwtcap, 0x14), (.dwtemb, 0x15), (.dwtext, 0x16)]

/-- A word that selects no row: nonzero c[31:8], or c[7:0] in the unassigned set (30 R97). -/
def IllegalWord (c : Word) : Prop :=
  c.toNat / 256 ≠ 0 ∨ c.toNat % 256 = 0x0E ∨ c.toNat % 256 = 0x0F ∨ c.toNat % 256 = 0x13 ∨
    0x17 ≤ c.toNat % 256

/-- STATUS after a success that clipped or not (60 R240, 10 R26). -/
def doneStatus (st : Status) (clipped : Bool) : Status :=
  { st with busy := false, done := true, sat := st.sat || clipped }

/-- STATUS after an error completion with code e (60 R243). -/
def errStatus (st : Status) (e : ErrCode) : Status :=
  { st with busy := false, done := false, err := true, errcode := some e }

/-- Every byte outside [base, base + n) reads as before. -/
def SameOutside (m m' : Memory) (base n : Nat) : Prop :=
  ∀ a, ¬(base ≤ a ∧ a < base + n) → readByte m' a = readByte m a

/-- rnd of the forward sum, before saturation (40 R111). -/
def forwardSum (x : Nat → Int) (k : Nat) : Int :=
  rnd (∑ n ∈ Finset.range 8, matAt cosRom k n * x n) 30

/-- rnd of the inverse sum, before saturation (40 R112). -/
def inverseSum (X : Nat → Int) (n : Nat) : Int :=
  rnd (∑ k ∈ Finset.range 8, matAt cosRom k n * X k) 30

/-- Row pass of dct2d: Rw[i][k] (40 R113). -/
def forwardRows (B : Nat → Nat → Int) (i k : Nat) : Int := sat32 (forwardSum (B i) k)

/-- X[u][v] of dct2d before saturation (40 R113). -/
def forwardBlock (B : Nat → Nat → Int) (u v : Nat) : Int :=
  forwardSum (fun i => forwardRows B i v) u

/-- Column pass of idct2d: Rw[i][v] (40 R114). -/
def inverseColumns (X : Nat → Nat → Int) (i v : Nat) : Int :=
  sat32 (inverseSum (fun u => X u v) i)

/-- Bk[i][j] of idct2d before saturation (40 R114). -/
def inverseBlock (X : Nat → Nat → Int) (i j : Nat) : Int :=
  inverseSum (fun v => inverseColumns X i v) j

/-- Some sat32 of dct2d clips. -/
def ForwardBlockClips (B : Nat → Nat → Int) : Prop :=
  (∃ i k, i < 8 ∧ k < 8 ∧ sat32 (forwardSum (B i) k) ≠ forwardSum (B i) k) ∨
    ∃ u v, u < 8 ∧ v < 8 ∧ sat32 (forwardBlock B u v) ≠ forwardBlock B u v

/-- Some sat32 of idct2d clips. -/
def InverseBlockClips (X : Nat → Nat → Int) : Prop :=
  (∃ i v, i < 8 ∧ v < 8 ∧
      sat32 (inverseSum (fun u => X u v) i) ≠ inverseSum (fun u => X u v) i) ∨
    ∃ i j, i < 8 ∧ j < 8 ∧ sat32 (inverseBlock X i j) ≠ inverseBlock X i j

/-- The side of level l: x halved upward l times (40 R121). -/
def levelSize (x : Nat) : Nat → Nat
  | 0 => x
  | l + 1 => (levelSize x l + 1) / 2

/-- E(i, j) (40 R119). -/
def edge (A : Nat → Nat → Int) (h w i j : Nat) : Int := A (min i (h - 1)) (min j (w - 1))

/-- The signs of b, c and d: 0 is LH, 1 is HL, 2 is HH, 3 is LL (40 R119). -/
def bandSigns : Nat → Int × Int × Int
  | 0 => (-1, 1, -1)
  | 1 => (1, -1, -1)
  | 2 => (-1, -1, 1)
  | _ => (1, 1, 1)

/-- One forward Haar output before saturation (40 R119). -/
def haarOut (A : Nat → Nat → Int) (h w t i j : Nat) : Int :=
  rnd (edge A h w (2 * i) (2 * j) + (bandSigns t).1 * edge A h w (2 * i) (2 * j + 1)
    + (bandSigns t).2.1 * edge A h w (2 * i + 1) (2 * j)
    + (bandSigns t).2.2 * edge A h w (2 * i + 1) (2 * j + 1)) 1

/-- LL_l (40 R121). -/
def levelLL (A : Nat → Nat → Int) (h w : Nat) : Nat → Nat → Nat → Int
  | 0 => A
  | l + 1 => fun i j => sat32 (haarOut (levelLL A h w l) (levelSize h l) (levelSize w l) 3 i j)

/-- Output t of level l + 1 before saturation (40 R121). -/
def levelOut (A : Nat → Nat → Int) (h w t l i j : Nat) : Int :=
  haarOut (levelLL A h w l) (levelSize h l) (levelSize w l) t i j

/-- Some sat32 of dwt clips. -/
def ForwardDwtClips (A : Nat → Nat → Int) (h w lv : Nat) : Prop :=
  ∃ l t i j, l < lv ∧ t < 4 ∧ i < levelSize h (l + 1) ∧ j < levelSize w (l + 1) ∧
    sat32 (levelOut A h w t l i j) ≠ levelOut A h w t l i j

/-- The word offset of the first subband of level l + 1, and of LL_Lv for l = Lv (40 R123). -/
def bandOffset (h w l : Nat) : Nat :=
  ∑ m ∈ Finset.range l, 3 * (levelSize h (m + 1) * levelSize w (m + 1))

/-- The word offset of element (i, j) of subband t of level l + 1 (40 R123). -/
def bandWord (h w t l i j : Nat) : Nat :=
  bandOffset h w l + t * (levelSize h (l + 1) * levelSize w (l + 1))
    + (i * levelSize w (l + 1) + j)

/-- The word offset of element (i, j) of LL_Lv (40 R123). -/
def topWord (h w lv i j : Nat) : Nat := bandOffset h w lv + (i * levelSize w lv + j)

/-- + at an even and - at an odd position (40 R120). -/
def sign (k : Nat) : Int := if k % 2 = 0 then 1 else -1

/-- One inverse Haar output before saturation (40 R120). -/
def ihaarOut (s p q r : Int) (i j : Nat) : Int :=
  rnd (s + sign j * p + sign i * q + sign i * sign j * r) 1

/-- LL_(Lv-d) of the inverse transform, from LL_Lv and the detail coefficients of each level
(40 R122). -/
def inverseLL (top : Nat → Nat → Int) (band : Nat → Nat → Nat → Nat → Int) (lv : Nat) :
    Nat → Nat → Nat → Int
  | 0 => top
  | d + 1 => fun i j => sat32 (ihaarOut (inverseLL top band lv d (i / 2) (j / 2))
      (band 0 (lv - 1 - d) (i / 2) (j / 2)) (band 1 (lv - 1 - d) (i / 2) (j / 2))
      (band 2 (lv - 1 - d) (i / 2) (j / 2)) i j)

/-- The output of inverse step d + 1 at (i, j) before saturation (40 R122). -/
def inverseOut (top : Nat → Nat → Int) (band : Nat → Nat → Nat → Nat → Int)
    (lv d i j : Nat) : Int :=
  ihaarOut (inverseLL top band lv d (i / 2) (j / 2))
    (band 0 (lv - 1 - d) (i / 2) (j / 2)) (band 1 (lv - 1 - d) (i / 2) (j / 2))
    (band 2 (lv - 1 - d) (i / 2) (j / 2)) i j

/-- A sat32 of idwt clips at a position that is kept. -/
def InverseDwtClipsKept (top : Nat → Nat → Int) (band : Nat → Nat → Nat → Nat → Int)
    (h w lv : Nat) : Prop :=
  ∃ d i j, d < lv ∧ i < levelSize h (lv - 1 - d) ∧ j < levelSize w (lv - 1 - d) ∧
    sat32 (inverseOut top band lv d i j) ≠ inverseOut top band lv d i j

/-- A sat32 of idwt clips at a position that the formulas compute, kept or not. -/
def InverseDwtClipsComputed (top : Nat → Nat → Int) (band : Nat → Nat → Nat → Nat → Int)
    (h w lv : Nat) : Prop :=
  ∃ d i j, d < lv ∧ i < 2 * levelSize h (lv - d) ∧ j < 2 * levelSize w (lv - d) ∧
    sat32 (inverseOut top band lv d i j) ≠ inverseOut top band lv d i j

/-- The byte a restored sample becomes (40 R127). -/
def restoredByte (x : Int) : Int := min 255 (max 0 (rnd x 16))

/-- The channel sample of pixel (i, j) of the buffer at base (40 R126). -/
def blue (m : Memory) (base w i j : Nat) : Int :=
  ((readByte m (base + 4 * (i * w + j) + 2)).toNat : Int) * 2 ^ 16

/-- The nearest multiple of the wanted parity, before saturation (42 R170, R171). -/
def nudged (C : Int) (t : Bool) (S : Int) : Int :=
  let q := (2 * C + S) / (2 * S)
  if q % 2 ≠ (if t then 1 else 0) then (if C ≥ q * S then (q + 1) * S else (q - 1) * S) else q * S

/-- The parity read back (42 R172). -/
def parityBit (C S : Int) : Bool := decide (((2 * C + S) / (2 * S)) % 2 = 1)

/-- Frame bit i of the L-byte payload at base (41 R150). -/
def frameBit (m : Memory) (base len i : Nat) : Bool :=
  if i < 32 then len.testBit (31 - i)
  else (readByte m (base + (i - 32) / 8)).getLsbD (7 - (i - 32) % 8)

/-! ### Decoding a received sequence, in index form (41 R152 to R157) -/

/-- k_i (41 R152). -/
def chunkCount (s : Nat → Bool) (r i : Nat) : Nat :=
  ((Finset.range r).filter fun j => s (i * r + j) = true).card

/-- bit_i (41 R152). -/
def chunkBit (s : Nat → Bool) (r i : Nat) : Bool := decide (2 * chunkCount s r i > r)

/-- The header's length (41 R154). -/
def headerLength (s : Nat → Bool) (r : Nat) : Nat :=
  ∑ i ∈ Finset.range 32, (chunkBit s r i).toNat * 2 ^ (31 - i)

/-- A over the F chunks of a length (41 R153, R154). -/
def agreeing (s : Nat → Bool) (r len : Nat) : Nat :=
  ∑ i ∈ Finset.range (32 + 8 * len), max (chunkCount s r i) (r - chunkCount s r i)

/-- A payload is found: the header fits, is plausible, and the confidence reaches the floor
(41 R154, R155, R156). -/
def found (s : Nat → Bool) (n r fl : Nat) : Bool :=
  decide (32 * r ≤ n ∧ 1 ≤ headerLength s r ∧ (32 + 8 * headerLength s r) * r ≤ n ∧
    fl * r * (32 + 8 * headerLength s r) ≤ agreeing s r (headerLength s r) * 2 ^ 16)

/-- Payload byte m (41 R154). -/
def payloadByte (s : Nat → Bool) (r m : Nat) : Nat :=
  ∑ j ∈ Finset.range 8, (chunkBit s r (32 + 8 * m + j)).toNat * 2 ^ (7 - j)

/-- The reported confidence (41 R156). -/
def confidence (s : Nat → Bool) (r : Nat) : Nat :=
  agreeing s r (headerLength s r) * 2 ^ 16 / (r * (32 + 8 * headerLength s r))

/-- t is s after an extraction of the bits from a carrier of n positions: the results, the flags,
the decoded bytes at dst, and every other byte but those of a scratch region as before (41 R159,
42 R182, 43 R206). -/
def Extracted (s t : State) (bits : Nat → Bool) (n : Nat) (clipped : Bool)
    (scr scrSize : Nat) : Prop :=
  let r := s.snap.r.toNat
  let hit := found bits n r s.snap.fl.toNat
  t = { s with
    mem := t.mem
    draws := t.draws
    status := { doneStatus s.status clipped with detect := hit }
    results := { s.results with
      capBits := BitVec.ofNat 32 (n / r - 32)
      capBytes := BitVec.ofNat 32 ((n / r - 32) / 8)
      units := BitVec.ofNat 32 n
      length := if hit then BitVec.ofNat 32 (headerLength bits r) else 0
      conf := if hit then BitVec.ofNat 32 (confidence bits r) else 0 } } ∧
  (hit = true → ∀ k, k < headerLength bits r →
    (readByte t.mem (s.snap.dst.toNat + k)).toNat = payloadByte bits r k) ∧
  ∀ a, ¬(hit = true ∧ s.snap.dst.toNat ≤ a ∧ a < s.snap.dst.toNat + headerLength bits r) →
    ¬(scr ≤ a ∧ a < scr + scrSize) → readByte t.mem a = readByte s.mem a

/-! ### The DCT and DWT codecs, in index form -/

/-- Cell (i, j) of block b of a w-wide image at base (42 R176). -/
def blockCell (m : Memory) (base w b i j : Nat) : Int :=
  blue m base w (8 * (b / (w / 8)) + i) (8 * (b % (w / 8)) + j)

/-- The coefficients of a block with X[3][4] perturbed to carry bit t (42 R179). -/
def markedCoeff (B : Nat → Nat → Int) (t : Bool) (S : Int) (u v : Nat) : Int :=
  if u = 3 ∧ v = 4 then sat32 (nudged (sat32 (forwardBlock B 3 4)) t S)
  else sat32 (forwardBlock B u v)

/-- The channel matrix after dctEmbed (42 R179). -/
def dctMarked (m : Memory) (src aux w h len r : Nat) (S : Int) (i j : Nat) : Int :=
  let b := (i / 8) * (w / 8) + j / 8
  if i < 8 * (h / 8) ∧ j < 8 * (w / 8) ∧ b < (32 + 8 * len) * r then
    sat32 (inverseBlock (markedCoeff (blockCell m src w b) (frameBit m aux len (b / r)) S)
      (i % 8) (j % 8))
  else blue m src w i j

/-- Bit b of dctBits (42 R181). -/
def dctBit (m : Memory) (src w : Nat) (S : Int) (b : Nat) : Bool :=
  parityBit (sat32 (forwardBlock (blockCell m src w b) 3 4)) S

/-- W' or H' (43 R200). -/
def aligned (x lv : Nat) : Nat := x / 2 ^ lv * 2 ^ lv

/-- The detail coefficients after dwtEmbed: HH_Lv carries the bits, row-major (43 R203). -/
def dwtMarkedBand (m : Memory) (src aux w h len r lv : Nat) (S : Int) (t l i j : Nat) : Int :=
  let c := sat32 (levelOut (blue m src w) (aligned h lv) (aligned w lv) t l i j)
  let k := i * (w / 2 ^ lv) + j
  if t = 2 ∧ l + 1 = lv ∧ k < (32 + 8 * len) * r then
    sat32 (nudged c (frameBit m aux len (k / r)) S)
  else c

/-- The channel matrix after dwtEmbed (43 R203). -/
def dwtMarked (m : Memory) (src aux w h len r lv : Nat) (S : Int) (i j : Nat) : Int :=
  if i < aligned h lv ∧ j < aligned w lv then
    inverseLL (levelLL (blue m src w) (aligned h lv) (aligned w lv) lv)
      (dwtMarkedBand m src aux w h len r lv S) lv lv i j
  else blue m src w i j

/-- Some sat32 of dwtEmbed clips. -/
def DwtEmbedClips (m : Memory) (src aux w h len r lv : Nat) (S : Int) : Prop :=
  ForwardDwtClips (blue m src w) (aligned h lv) (aligned w lv) lv ∨
    (∃ i j, i * (w / 2 ^ lv) + j < (32 + 8 * len) * r ∧ j < w / 2 ^ lv ∧
      sat32 (nudged (sat32 (levelOut (blue m src w) (aligned h lv) (aligned w lv) 2 (lv - 1) i j))
        (frameBit m aux len ((i * (w / 2 ^ lv) + j) / r)) S) ≠
      nudged (sat32 (levelOut (blue m src w) (aligned h lv) (aligned w lv) 2 (lv - 1) i j))
        (frameBit m aux len ((i * (w / 2 ^ lv) + j) / r)) S) ∨
    InverseDwtClipsKept (levelLL (blue m src w) (aligned h lv) (aligned w lv) lv)
      (dwtMarkedBand m src aux w h len r lv S) (aligned h lv) (aligned w lv) lv

/-- Bit k of dwtBits (43 R205). -/
def dwtBit (m : Memory) (src w h lv : Nat) (S : Int) (k : Nat) : Bool :=
  parityBit (sat32 (levelOut (blue m src w) (aligned h lv) (aligned w lv) 2 (lv - 1)
    (k / (w / 2 ^ lv)) (k % (w / 2 ^ lv)))) S

/-- The output pixel buffer at dst of an embedding: channel 2 from the matrix M, the other
channels as in the buffer at src (40 R127). -/
def Restored (m m' : Memory) (src dst w h : Nat) (M : Nat → Nat → Int) : Prop :=
  ∀ i j, i < h → j < w →
    ((readByte m' (dst + 4 * (i * w + j) + 2)).toNat : Int) = restoredByte (M i j) ∧
    ∀ c, c = 0 ∨ c = 1 ∨ c = 3 →
      readByte m' (dst + 4 * (i * w + j) + c) = readByte m (src + 4 * (i * w + j) + c)

/-- No restored sample is clamped (44 R224). -/
def Unclamped (w h : Nat) (M : Nat → Nat → Int) : Prop :=
  ∀ i j, i < h → j < w → -(2 ^ 15) ≤ M i j ∧ M i j < 255 * 2 ^ 16 + 2 ^ 15

/-- The extraction at u uses the options of the embedding at s, and a floor of at most 1.0. -/
def SameOptions (s u : State) : Prop :=
  u.snap.w = s.snap.w ∧ u.snap.h = s.snap.h ∧ u.snap.s = s.snap.s ∧ u.snap.r = s.snap.r ∧
    u.snap.fl.toNat ≤ 0x10000

/-- K_DCT·2^60: the product of the sums of the magnitudes of ROM rows 3 and 4 (44 R224). -/
def kDct : Int :=
  (∑ n ∈ Finset.range 8, |matAt cosRom 3 n|) * ∑ n ∈ Finset.range 8, |matAt cosRom 4 n|

/-- S ≥ K_DCT·(2a + 1) + 2^-9, in integers, for S in raw Q16.16 (44 R226). -/
def DctStrengthFor (S : Int) (a : Nat) : Prop := kDct * (2 * a + 1) ≤ (S - 128) * 2 ^ 44

/-- Each blue byte of the image u reads is within a of the one at dst in t (44 R226). -/
def BlueWithin (t u : State) (dst w h a : Nat) : Prop :=
  ∀ i j, i < h → j < w →
    |((readByte u.mem (u.snap.src.toNat + 4 * (i * w + j) + 2)).toNat : Int) -
      ((readByte t.mem (dst + 4 * (i * w + j) + 2)).toNat : Int)| ≤ a

/-- v holds, after an extraction at u, the payload embedded at s, with confidence 1.0. -/
def Recovers (s u v : State) : Prop :=
  v.status.done = true ∧ v.status.detect = true ∧ v.results.conf = 0x10000 ∧
    v.results.length = s.snap.len ∧
    ∀ k, k < s.snap.len.toNat → readByte v.mem (u.snap.dst.toNat + k) =
      readByte s.mem (s.snap.aux.toNat + k)

/-! ### PSNR -/

/-- D (40 R129). -/
def squaredDiff (A B : Nat → Nat → Int) (h w : Nat) : Nat :=
  ∑ i ∈ Finset.range h, ∑ j ∈ Finset.range w, ((A i j - B i j) ^ 2).toNat

/-- The defining inequality of psnr_q (40 R129). -/
def PsnrAtLeast (n D : Nat) (m : Int) : Prop :=
  if 0 ≤ m then 10 ^ m.toNat * D ^ 2560 ≤ (65025 * n * 2 ^ 32) ^ 2560
  else D ^ 2560 ≤ (65025 * n * 2 ^ 32) ^ 2560 * 10 ^ (-m).toNat

/-! ### The region table and the checks, in index form -/

/-- The region table (30 R93): for SRC, AUX, DST and SCR in turn, where the command has one, its
base, its size in bytes, R or W, and whether it is marked S. A row with R = 0 or an LV out of range
is the model's choice (notes/assumptions/20.md). -/
def regionRows (i : Instr) (p : Snapshot) : List Region :=
  let src := p.src.toNat
  let aux := p.aux.toNat
  let dst := p.dst.toNat
  let scr := p.scr.toNat
  let w := p.w.toNat
  let h := p.h.toNat
  let lv := p.lv.toNat
  let len := p.len.toNat
  let r := p.r.toNat
  let n := p.n.toNat
  let pixels := 4 * (w * h)
  let layout := 4 * (bandOffset h w lv + levelSize h lv * levelSize w lv)
  let scratch := 4 * (aligned w lv * aligned h lv)
  match i with
  | .nop | .dctcap | .dwtcap => []
  | .dct1d | .idct1d => [⟨src, 32, .read, true⟩, ⟨dst, 32, .write, true⟩]
  | .dct2d | .idct2d => [⟨src, 256, .read, true⟩, ⟨dst, 256, .write, true⟩]
  | .dwt2d => [⟨src, pixels, .read, true⟩, ⟨dst, layout, .write, true⟩]
  | .idwt2d => [⟨src, layout, .read, true⟩, ⟨dst, pixels, .write, true⟩]
  | .chext => [⟨src, pixels, .read, false⟩, ⟨dst, pixels, .write, true⟩]
  | .chrst => [⟨src, pixels, .read, false⟩, ⟨aux, pixels, .read, true⟩,
      ⟨dst, pixels, .write, false⟩]
  | .psnr => [⟨src, pixels, .read, true⟩, ⟨aux, pixels, .read, true⟩]
  | .qembed => [⟨src, 4 * len, .read, true⟩, ⟨aux, (len + 7) / 8, .read, false⟩,
      ⟨dst, 4 * len, .write, true⟩]
  | .qextract => [⟨src, 4 * len, .read, true⟩, ⟨dst, (len + 7) / 8, .write, false⟩]
  | .pack => [⟨src, len, .read, false⟩, ⟨dst, ((32 + 8 * len) * r + 7) / 8, .write, false⟩]
  | .unpack => [⟨src, (n + 7) / 8, .read, false⟩, ⟨dst, (n / r - 32) / 8, .write, false⟩]
  | .dctemb => [⟨src, pixels, .read, false⟩, ⟨aux, len, .read, false⟩,
      ⟨dst, pixels, .write, false⟩]
  | .dctext => [⟨src, pixels, .read, false⟩,
      ⟨dst, ((w / 8) * (h / 8) / r - 32) / 8, .write, false⟩]
  | .dwtemb => [⟨src, pixels, .read, false⟩, ⟨aux, len, .read, false⟩,
      ⟨dst, pixels, .write, false⟩, ⟨scr, scratch, .write, true⟩]
  | .dwtext => [⟨src, pixels, .read, false⟩,
      ⟨dst, ((w / 2 ^ lv) * (h / 2 ^ lv) / r - 32) / 8, .write, false⟩,
      ⟨scr, scratch, .write, true⟩]

/-- The error codes (60 R242). -/
def codeNumber : ErrCode → Nat
  | .illegalCmd => 1
  | .badOption => 2
  | .badDim => 3
  | .badLength => 4
  | .capacity => 5
  | .align => 6
  | .addrRange => 7
  | .overlap => 8
  | .busError => 9

/-- The condition of each check code (60 R245). -/
def CheckHolds (i : Instr) (p : Snapshot) : ErrCode → Prop
  | .illegalCmd => False
  | .badOption =>
    (i ∈ [.qembed, .qextract, .dctemb, .dctext, .dwtemb, .dwtext] ∧
        ¬(1 ≤ p.s.toNat ∧ p.s.toNat ≤ 0x7FFFFFFF)) ∨
      (i ∈ [.pack, .unpack, .dctcap, .dctemb, .dctext, .dwtcap, .dwtemb, .dwtext] ∧
        p.r.toNat = 0) ∨
      (i ∈ [.dwt2d, .idwt2d, .dwtcap, .dwtemb, .dwtext] ∧ ¬(1 ≤ p.lv.toNat ∧ p.lv.toNat ≤ 7))
  | .badDim =>
    i ∈ [.dwt2d, .idwt2d, .chext, .chrst, .psnr, .dctcap, .dctemb, .dctext, .dwtcap, .dwtemb,
      .dwtext] ∧ (p.w.toNat = 0 ∨ p.h.toNat = 0)
  | .badLength => i ∈ [.qembed, .qextract, .pack, .dctemb, .dwtemb] ∧ p.len.toNat = 0
  | .capacity =>
    (i = .pack ∧ (32 + 8 * p.len.toNat) * p.r.toNat > p.n.toNat) ∨
      (i = .dctemb ∧
        (32 + 8 * p.len.toNat) * p.r.toNat > (p.w.toNat / 8) * (p.h.toNat / 8)) ∨
      (i = .dwtemb ∧
        (32 + 8 * p.len.toNat) * p.r.toNat >
          (p.w.toNat / 2 ^ p.lv.toNat) * (p.h.toNat / 2 ^ p.lv.toNat))
  | .align => ∃ r ∈ regionRows i p, 0 < r.size ∧ r.samples = true ∧ r.base % 4 ≠ 0
  | .addrRange => ∃ r ∈ regionRows i p, 0 < r.size ∧ 2 ^ 32 < r.base + r.size
  | .overlap => ∃ (k l : Nat) (r q : Region), k ≠ l ∧ (regionRows i p)[k]? = some r ∧
      (regionRows i p)[l]? = some q ∧ r.access = .write ∧ 0 < r.size ∧ 0 < q.size ∧
      r.base < q.base + q.size ∧ q.base < r.base + r.size
  | .busError => False

/-- The check codes each command can complete with, ILLEGAL_CMD and BUS_ERROR apart (60 R246). -/
def possibleCodes : Instr → List ErrCode
  | .nop => []
  | .dct1d | .idct1d | .dct2d | .idct2d => [.align, .addrRange, .overlap]
  | .dwt2d | .idwt2d => [.badOption, .badDim, .align, .addrRange, .overlap]
  | .chext | .chrst => [.badDim, .align, .addrRange, .overlap]
  | .psnr => [.badDim, .align, .addrRange]
  | .qembed | .qextract => [.badOption, .badLength, .align, .addrRange, .overlap]
  | .pack => [.badOption, .badLength, .capacity, .addrRange, .overlap]
  | .unpack => [.badOption, .addrRange, .overlap]
  | .dctcap | .dwtcap => [.badOption, .badDim]
  | .dctemb => [.badOption, .badDim, .badLength, .capacity, .addrRange, .overlap]
  | .dctext => [.badOption, .badDim, .addrRange, .overlap]
  | .dwtemb => [.badOption, .badDim, .badLength, .capacity, .align, .addrRange, .overlap]
  | .dwtext => [.badOption, .badDim, .align, .addrRange, .overlap]

/-- The offsets that name a register (10 R21). -/
def registerOffsets : List Nat :=
  [0x000, 0x004, 0x008, 0x00C, 0x010, 0x014, 0x018, 0x01C, 0x020, 0x024, 0x028, 0x02C, 0x030,
   0x034, 0x038, 0x03C, 0x040, 0x044, 0x080, 0x084, 0x088, 0x08C, 0x090, 0x094, 0x098, 0x09C]

/-- The RW registers and the bits of each that a write stores (10 R21). -/
def writableRegisters : List (Nat × Word) :=
  [(0x008, 0x3), (0x014, 0xFFFF), (0x018, 0xFFFF), (0x01C, 0xFFFFFFFF), (0x020, 0xFFFFFFFF),
   (0x024, 0xFFFFFFFF), (0x028, 0xFFFFFFFF), (0x02C, 0xFFFFFFFF), (0x030, 0xFFFFFFFF),
   (0x034, 0xFFFF), (0x038, 0xF), (0x03C, 0xFFFFFFFF), (0x040, 0xFFFFFFFF), (0x044, 0xFFFFFFFF)]

/-- The read-only registers: ID, CONST and the results (10 R21). -/
def readOnlyOffsets : List Nat :=
  [0x000, 0x004, 0x080, 0x084, 0x088, 0x08C, 0x090, 0x094, 0x098, 0x09C]

/-- The word a read of STATUS returns, as a number (10 R25). -/
def statusWord (st : Status) : Nat :=
  st.busy.toNat + 2 * st.done.toNat + 4 * st.err.toNat + 8 * st.sat.toNat + 16 * st.detect.toNat +
    32 * st.psnrPass.toNat + 64 * st.psnrInf.toNat + 128 * st.cmdOvr.toNat +
    256 * (match st.errcode with
      | none => 0
      | some e => codeNumber e)

/-- Every offset of the register map, the register there, and the word a read of it returns (10
R21 to R25, R34 to R45). -/
def registerReads (s : State) : List (Nat × Reg × Word) :=
  [(0x000, .id, 0x574D4301), (0x004, .const, 0x0037A043),
   (0x008, .ctrl, BitVec.ofNat 32 (s.ctrl.ieDone.toNat + 2 * s.ctrl.ieErr.toNat)),
   (0x00C, .status, BitVec.ofNat 32 (statusWord s.status)), (0x010, .cmd, s.lastCmd),
   (0x014, .width, BitVec.ofNat 32 s.params.width.toNat),
   (0x018, .height, BitVec.ofNat 32 s.params.height.toNat),
   (0x01C, .srcAddr, s.params.srcAddr), (0x020, .auxAddr, s.params.auxAddr),
   (0x024, .dstAddr, s.params.dstAddr), (0x028, .scrAddr, s.params.scrAddr),
   (0x02C, .len, s.params.len), (0x030, .strength, s.params.strength),
   (0x034, .redundancy, BitVec.ofNat 32 s.params.redundancy.toNat),
   (0x038, .levels, BitVec.ofNat 32 s.params.levels.toNat),
   (0x03C, .confFloor, s.params.confFloor), (0x040, .psnrThresh, s.params.psnrThresh),
   (0x044, .bitcap, s.params.bitcap), (0x080, .resCapBits, s.results.capBits),
   (0x084, .resCapBytes, s.results.capBytes), (0x088, .resUnits, s.results.units),
   (0x08C, .resUsed, s.results.used), (0x090, .resBits, s.results.bits),
   (0x094, .resLength, s.results.length), (0x098, .resConf, s.results.conf),
   (0x09C, .resPsnr, s.results.psnr)]

/-- What a write of v to each RW register leaves, by offset (10 R21, R24, R35 to R43). -/
def registerWrites (s : State) (v : Word) : List (Nat × State) :=
  let n := v.toNat
  [(0x008, { s with ctrl := { ieDone := v.getLsbD 0, ieErr := v.getLsbD 1 } }),
   (0x014, { s with params := { s.params with width := BitVec.ofNat 16 n } }),
   (0x018, { s with params := { s.params with height := BitVec.ofNat 16 n } }),
   (0x01C, { s with params := { s.params with srcAddr := v } }),
   (0x020, { s with params := { s.params with auxAddr := v } }),
   (0x024, { s with params := { s.params with dstAddr := v } }),
   (0x028, { s with params := { s.params with scrAddr := v } }),
   (0x02C, { s with params := { s.params with len := v } }),
   (0x030, { s with params := { s.params with strength := v } }),
   (0x034, { s with params := { s.params with redundancy := BitVec.ofNat 16 n } }),
   (0x038, { s with params := { s.params with levels := BitVec.ofNat 4 n } }),
   (0x03C, { s with params := { s.params with confFloor := v } }),
   (0x040, { s with params := { s.params with psnrThresh := v } }),
   (0x044, { s with params := { s.params with bitcap := v } })]

/-- Byte a lies in a region of the command in flight (70 R276). -/
def InFlightByte (s : State) (onlyWritten : Bool) (a : Nat) : Prop :=
  s.status.busy = true ∧ ∃ i, decode s.snap.word = .ok i ∧
    ∃ r ∈ regionRows i s.snap, (onlyWritten = true → r.access = .write) ∧
      r.base ≤ a ∧ a < r.base + r.size

end Sys2Proof.Claims

open Sys2Proof.Claims

/-! ### Encoding -/

/-- A command word selects a row exactly when RSV = 0 and OP is the row's (30 R92). -/
def Obligations.WordSelectsRow : Prop :=
  ∀ (c : Word) (i : Instr),
    decode c = .ok i ↔ c.toNat / 256 = 0 ∧ (i, c.toNat % 256) ∈ opcodeMap

/-- Decoding the encoding of a command gives it back, and nothing else encodes to that word. -/
def Obligations.DecodeEncodeAgree : Prop :=
  (∀ i : Instr, wellFormedWord (encode i) = true ∧ decode (encode i) = .ok i) ∧
    ∀ (c : Word) (i : Instr), decode c = .ok i → encode i = c

/-- Five words written out from the opcode map decode to their commands. -/
def Obligations.WrittenWordsDecode : Prop :=
  decode 0x00000000#32 = .ok .nop ∧ decode 0x00000003#32 = .ok .dct2d ∧
    decode 0x0000000C#32 = .ok .pack ∧ decode 0x00000011#32 = .ok .dctemb ∧
    decode 0x00000015#32 = .ok .dwtemb ∧ decode 0x00000100#32 = .error .reservedBits ∧
    decode 0x00000013#32 = .error .unknownOpcode

/-- An illegal word is accepted like any other and completes with ILLEGAL_CMD, changing no memory
(30 R97); every other word is one of the twenty commands. The completion comes when the host makes
no access (the model's choice, notes/assumptions/3.md). -/
def Obligations.IllegalWordCompletes : Prop :=
  (∀ c : Word, IllegalWord c ↔ ∀ i, decode c ≠ .ok i) ∧
  ∀ (s : State) (c : Word), s.status.busy = false → s.host = [] → IllegalWord c →
    writeReg .cmd c s = accept c s ∧
    step (writeReg .cmd c s) = .next { accept c s with
      status := errStatus (accept c s).status .illegalCmd }

/-! ### Steps -/

/-- When the latched word decodes to i and the host makes no access, the step is exec of i (60
R240); while BUSY = 0 nothing happens (70 R274). The host's list is the model's choice
(notes/assumptions/3.md). -/
def Obligations.StepRunsLatchedCommand : Prop :=
  (∀ (s : State) (i : Instr), s.status.busy = true → decode s.snap.word = .ok i →
    (s.host = [] → step s = exec i s) ∧
    ∀ rest, s.host = .pause :: rest → step s = exec i { s with host := rest }) ∧
  ∀ s : State, s.status.busy = false → (s.host = [] → step s = .next s) ∧
    ∀ rest, s.host = .pause :: rest → step s = .next { s with host := rest }

/-- The reset state satisfies the invariant. -/
def Obligations.ResetSatisfiesInvariant : Prop := State.reset.Inv

/-- Every step keeps the invariant. -/
def Obligations.StepKeepsInvariant : Prop :=
  ∀ s t : State, s.Inv → step s = .next t → t.Inv

/-- The frame of every command: it changes nothing but STATUS (CMD_OVR apart), the results, the
counter of free draws, and bytes of its write regions (20 R75, 60 R243). -/
def Obligations.CommandFrame : Prop :=
  ∀ (i : Instr) (s t : State), exec i s = .next t →
    t = { s with status := t.status, results := t.results, mem := t.mem, draws := t.draws } ∧
    t.status.cmdOvr = s.status.cmdOvr ∧
    ∀ a, (∀ r ∈ regionRows i s.snap, r.access = .write → ¬(r.base ≤ a ∧ a < r.base + r.size)) →
      readByte t.mem a = readByte s.mem a

/-- The three outcomes (60 R241): success; a check error, which changes no byte and sets nothing
but ERR and ERRCODE; and BUS_ERROR. After each BUSY is 0 and exactly one of DONE and ERR is 1 (10
R29), and no error but BUS_ERROR changes memory (20 R74). -/
def Obligations.CommandOutcomes : Prop :=
  ∀ s t : State, s.Inv → s.status.busy = true → s.host = [] → step s = .next t →
    t.status.busy = false ∧
    ((t.status.done = true ∧ t.status.err = false ∧ t.status.errcode = none) ∨
      (∃ e, e ≠ .busError ∧ t = { s with status := errStatus s.status e } ∧ t.mem = s.mem) ∨
      ∃ m d, t = { s with mem := m, draws := d, status := errStatus s.status .busError }) ∧
    (t.status.err = true → t.results = Results.zero ∧ t.status.done = false ∧
      t.status.sat = false ∧ t.status.detect = false ∧ t.status.psnrPass = false ∧
      t.status.psnrInf = false ∧ (t.status.errcode ≠ some .busError → t.mem = s.mem))

/-- A check error completes with its code and changes nothing else (60 R243). -/
def Obligations.CheckErrorCompletes : Prop :=
  ∀ (i : Instr) (s : State) (e : ErrCode), firstError i s.snap = some e →
    exec i s = .next { s with status := errStatus s.status e }

/-- A byte of a region that is not backed makes the command complete with BUS_ERROR: only bytes of
its write regions may change, and no result (60 R244). -/
def Obligations.BusErrorCompletes : Prop :=
  ∀ (i : Instr) (s : State), firstError i s.snap = none →
    (∀ r ∈ regionRows i s.snap, ∀ u ∈ s.platform.device, ∀ a, r.base ≤ a → a < r.base + r.size →
      ¬(u.base ≤ a ∧ a < u.base + u.size)) →
    (∃ r ∈ regionRows i s.snap, ∃ a, r.base ≤ a ∧ a < r.base + r.size ∧
      busOK s.platform a = false) →
    ∃ m d, exec i s = .next { s with mem := m, draws := d
                                     status := errStatus s.status .busError } ∧
      ∀ a, (∀ r ∈ regionRows i s.snap, r.access = .write → ¬(r.base ≤ a ∧ a < r.base + r.size)) →
        readByte m a = readByte s.mem a

/-- A region that maps a device is refused, by name, once the checks have passed: the model's choice
for what 20 R73 puts outside the spec (notes/assumptions/10.md). -/
def Obligations.DeviceRegionRefused : Prop :=
  ∀ (i : Instr) (s : State), exec i s = .refused .deviceRegion ↔
    firstError i s.snap = none ∧
      ∃ r ∈ regionRows i s.snap, ∃ a, r.base ≤ a ∧ a < r.base + r.size ∧
        ∃ u ∈ s.platform.device, u.base ≤ a ∧ a < u.base + u.size

/-- With no memory write of the host to come and no device, BUSY is 0 one step after the host's
accesses are used up: the model's choice of latency (notes/assumptions/3.md). -/
def Obligations.CommandCompletesInBoundedSteps : Prop :=
  ∀ s : State, s.platform.device = [] → (∀ op ∈ s.host, ∀ a b, op ≠ .memWrite a b) →
    ∃ t, Host.Core.run Sys2Proof.core (s.host.length + 1) s = .next t ∧ t.status.busy = false

/-! ### Checks -/

/-- The first error is the condition of lowest code that holds (60 R245), over the region table
written out (30 R93). -/
def Obligations.LowestErrorCodeWins : Prop :=
  ∀ (i : Instr) (p : Snapshot),
    (∀ e, firstError i p = some e ↔
      CheckHolds i p e ∧ ∀ e' : ErrCode, codeNumber e' < codeNumber e → ¬CheckHolds i p e') ∧
    (firstError i p = none ↔ ∀ e, ¬CheckHolds i p e)

/-- The codes that can occur for each command are exactly those of the table (60 R246). -/
def Obligations.PossibleCodesPerCommand : Prop :=
  ∀ (i : Instr) (e : ErrCode), (∃ p, firstError i p = some e) ↔ e ∈ possibleCodes i

/-! ### The commands

Each holds at every state with the snapshot's fields as given, whatever BUSY and P.OP are, and says
what becomes of the flags and results the state has: both are the model's choice
(notes/assumptions/15.md, 16.md). Acceptance leaves those flags and results 0 (10 R44). -/

/-- NOP completes and changes no other flag, register or byte (44 R220). -/
def Obligations.NopCompletes : Prop :=
  ∀ s : State, exec .nop s = .next { s with status := doneStatus s.status false }

/-- DCT1D (40 R115, R111). -/
def Obligations.Dct1dTransforms : Prop :=
  ∀ s : State, Runs .dct1d s →
    let x := fun n => sampleAt s.mem (s.snap.src.toNat + 4 * n)
    ∃ m c, exec .dct1d s = .next { s with mem := m, status := doneStatus s.status c } ∧
      (∀ k, k < 8 → sampleAt m (s.snap.dst.toNat + 4 * k) = sat32 (forwardSum x k)) ∧
      SameOutside s.mem m s.snap.dst.toNat 32 ∧
      (c = true ↔ ∃ k, k < 8 ∧ sat32 (forwardSum x k) ≠ forwardSum x k)

/-- IDCT1D (40 R116, R112). -/
def Obligations.Idct1dTransforms : Prop :=
  ∀ s : State, Runs .idct1d s →
    let X := fun k => sampleAt s.mem (s.snap.src.toNat + 4 * k)
    ∃ m c, exec .idct1d s = .next { s with mem := m, status := doneStatus s.status c } ∧
      (∀ n, n < 8 → sampleAt m (s.snap.dst.toNat + 4 * n) = sat32 (inverseSum X n)) ∧
      SameOutside s.mem m s.snap.dst.toNat 32 ∧
      (c = true ↔ ∃ n, n < 8 ∧ sat32 (inverseSum X n) ≠ inverseSum X n)

/-- DCT2D (40 R117, R113). -/
def Obligations.Dct2dTransforms : Prop :=
  ∀ s : State, Runs .dct2d s →
    let B := fun i j => sampleAt s.mem (s.snap.src.toNat + 4 * (8 * i + j))
    ∃ m c, exec .dct2d s = .next { s with mem := m, status := doneStatus s.status c } ∧
      (∀ u v, u < 8 → v < 8 →
        sampleAt m (s.snap.dst.toNat + 4 * (8 * u + v)) = sat32 (forwardBlock B u v)) ∧
      SameOutside s.mem m s.snap.dst.toNat 256 ∧ (c = true ↔ ForwardBlockClips B)

/-- IDCT2D (40 R118, R114). -/
def Obligations.Idct2dTransforms : Prop :=
  ∀ s : State, Runs .idct2d s →
    let X := fun u v => sampleAt s.mem (s.snap.src.toNat + 4 * (8 * u + v))
    ∃ m c, exec .idct2d s = .next { s with mem := m, status := doneStatus s.status c } ∧
      (∀ i j, i < 8 → j < 8 →
        sampleAt m (s.snap.dst.toNat + 4 * (8 * i + j)) = sat32 (inverseBlock X i j)) ∧
      SameOutside s.mem m s.snap.dst.toNat 256 ∧ (c = true ↔ InverseBlockClips X)

/-- DWT2D (40 R124, R119, R121, R123). -/
def Obligations.Dwt2dTransforms : Prop :=
  ∀ s : State, Runs .dwt2d s →
    let w := s.snap.w.toNat
    let h := s.snap.h.toNat
    let lv := s.snap.lv.toNat
    let A := fun i j => sampleAt s.mem (s.snap.src.toNat + 4 * (i * w + j))
    ∃ m c, exec .dwt2d s = .next { s with mem := m, status := doneStatus s.status c } ∧
      (∀ t l i j, t < 3 → l < lv → i < levelSize h (l + 1) → j < levelSize w (l + 1) →
        sampleAt m (s.snap.dst.toNat + 4 * bandWord h w t l i j) =
          sat32 (levelOut A h w t l i j)) ∧
      (∀ i j, i < levelSize h lv → j < levelSize w lv →
        sampleAt m (s.snap.dst.toNat + 4 * topWord h w lv i j) = levelLL A h w lv i j) ∧
      SameOutside s.mem m s.snap.dst.toNat
        (4 * (bandOffset h w lv + levelSize h lv * levelSize w lv)) ∧
      (c = true ↔ ForwardDwtClips A h w lv)

/-- IDWT2D (40 R125, R120, R122, R123). SAT: it is set when a kept value clips, and only when a
computed one does, which both readings of 40 R120 give (notes/assumptions/11.md). -/
def Obligations.Idwt2dTransforms : Prop :=
  ∀ s : State, Runs .idwt2d s →
    let w := s.snap.w.toNat
    let h := s.snap.h.toNat
    let lv := s.snap.lv.toNat
    let band := fun t l i j => sampleAt s.mem (s.snap.src.toNat + 4 * bandWord h w t l i j)
    let top := fun i j => sampleAt s.mem (s.snap.src.toNat + 4 * topWord h w lv i j)
    ∃ m c, exec .idwt2d s = .next { s with mem := m, status := doneStatus s.status c } ∧
      (∀ i j, i < h → j < w → sampleAt m (s.snap.dst.toNat + 4 * (i * w + j)) =
        inverseLL top band lv lv i j) ∧
      SameOutside s.mem m s.snap.dst.toNat (4 * (w * h)) ∧
      (InverseDwtClipsKept top band h w lv → c = true) ∧
      (c = true → InverseDwtClipsComputed top band h w lv)

/-- CHEXT (40 R126). -/
def Obligations.ChextExtracts : Prop :=
  ∀ s : State, Runs .chext s →
    let w := s.snap.w.toNat
    let h := s.snap.h.toNat
    ∃ m, exec .chext s = .next { s with mem := m, status := doneStatus s.status false } ∧
      (∀ i j, i < h → j < w → sampleAt m (s.snap.dst.toNat + 4 * (i * w + j)) =
        ((readByte s.mem (s.snap.src.toNat + 4 * (i * w + j) + 2)).toNat : Int) * 2 ^ 16) ∧
      SameOutside s.mem m s.snap.dst.toNat (4 * (w * h))

/-- CHRST (40 R128, R127). -/
def Obligations.ChrstRestores : Prop :=
  ∀ s : State, Runs .chrst s →
    let w := s.snap.w.toNat
    let h := s.snap.h.toNat
    ∃ m, exec .chrst s = .next { s with mem := m, status := doneStatus s.status false } ∧
      Restored s.mem m s.snap.src.toNat s.snap.dst.toNat w h
        (fun i j => sampleAt s.mem (s.snap.aux.toNat + 4 * (i * w + j))) ∧
      SameOutside s.mem m s.snap.dst.toNat (4 * (w * h))

/-- PSNR (40 R130, R129): the greatest m of the inequality, inside the bounds of 40 R129. -/
def Obligations.PsnrIsGreatest : Prop :=
  ∀ s : State, Runs .psnr s →
    let w := s.snap.w.toNat
    let h := s.snap.h.toNat
    let D := squaredDiff (fun i j => sampleAt s.mem (s.snap.src.toNat + 4 * (i * w + j)))
      (fun i j => sampleAt s.mem (s.snap.aux.toNat + 4 * (i * w + j))) h w
    (D = 0 → exec .psnr s = .next { s with
      status := { doneStatus s.status false with psnrInf := true, psnrPass := true }
      results := { s.results with psnr := 0x7FFFFFFF } }) ∧
    (D ≠ 0 → ∃ q : Int, -12600 < q ∧ q < 62000 ∧ PsnrAtLeast (h * w) D q ∧
      (∀ m, PsnrAtLeast (h * w) D m → m ≤ q) ∧
      exec .psnr s = .next { s with
        status := { doneStatus s.status false with psnrPass := decide (q ≥ s.snap.t.toInt) }
        results := { s.results with psnr := BitVec.ofInt 32 q } })

/-- QEMBED (42 R173, R171). -/
def Obligations.QembedPerturbs : Prop :=
  ∀ s : State, Runs .qembed s →
    let out := fun k => nudged (sampleAt s.mem (s.snap.src.toNat + 4 * k))
      (bitAt s.mem s.snap.aux.toNat k) s.snap.s.toNat
    ∃ m c, exec .qembed s = .next { s with mem := m, status := doneStatus s.status c } ∧
      (∀ k, k < s.snap.len.toNat →
        sampleAt m (s.snap.dst.toNat + 4 * k) = sat32 (out k)) ∧
      SameOutside s.mem m s.snap.dst.toNat (4 * s.snap.len.toNat) ∧
      (c = true ↔ ∃ k, k < s.snap.len.toNat ∧ sat32 (out k) ≠ out k)

/-- QEXTRACT (42 R174, R172): the bits, then pad bits 0. -/
def Obligations.QextractReads : Prop :=
  ∀ s : State, Runs .qextract s →
    let bytes := (s.snap.len.toNat + 7) / 8
    ∃ m, exec .qextract s = .next { s with mem := m, status := doneStatus s.status false } ∧
      (∀ k, k < 8 * bytes → bitAt m s.snap.dst.toNat k =
        if k < s.snap.len.toNat then
          parityBit (sampleAt s.mem (s.snap.src.toNat + 4 * k)) s.snap.s.toNat
        else false) ∧
      SameOutside s.mem m s.snap.dst.toNat bytes

/-- PACK (41 R158, R150, R151). -/
def Obligations.PackWritesStream : Prop :=
  ∀ s : State, Runs .pack s →
    let len := s.snap.len.toNat
    let r := s.snap.r.toNat
    let n := s.snap.n.toNat
    ∃ m, exec .pack s = .next { s with
        mem := m
        status := doneStatus s.status false
        results := { s.results with
          capBits := BitVec.ofNat 32 (n / r - 32)
          capBytes := BitVec.ofNat 32 ((n / r - 32) / 8)
          used := BitVec.ofNat 32 ((32 + 8 * len) * r)
          bits := BitVec.ofNat 32 (32 + 8 * len) } } ∧
      (∀ k, k < (32 + 8 * len) * r → bitAt m s.snap.dst.toNat k =
        frameBit s.mem s.snap.src.toNat len (k / r)) ∧
      SameOutside s.mem m s.snap.dst.toNat ((32 + 8 * len) * r / 8)

/-- UNPACK (41 R159, R154). -/
def Obligations.UnpackDecodes : Prop :=
  ∀ s : State, Runs .unpack s →
    ∃ t, exec .unpack s = .next t ∧ t.draws = s.draws ∧
      Extracted s t (bitAt s.mem s.snap.src.toNat) s.snap.n.toNat false 0 0

/-- DCTCAP (42 R178). -/
def Obligations.DctcapReports : Prop :=
  ∀ s : State, s.snap.r.toNat ≠ 0 → s.snap.w.toNat ≠ 0 → s.snap.h.toNat ≠ 0 →
    let blocks := (s.snap.w.toNat / 8) * (s.snap.h.toNat / 8)
    exec .dctcap s = .next { s with
      status := doneStatus s.status false
      results := { s.results with
        capBits := BitVec.ofNat 32 (blocks / s.snap.r.toNat - 32)
        capBytes := BitVec.ofNat 32 ((blocks / s.snap.r.toNat - 32) / 8)
        units := BitVec.ofNat 32 blocks } }

/-- DCTEMB (42 R180, R179); no sat32 clips (42 R180). -/
def Obligations.DctembMarks : Prop :=
  ∀ s : State, Runs .dctemb s →
    let w := s.snap.w.toNat
    let h := s.snap.h.toNat
    let len := s.snap.len.toNat
    let r := s.snap.r.toNat
    let src := s.snap.src.toNat
    let aux := s.snap.aux.toNat
    let blocks := (w / 8) * (h / 8)
    ∃ m, exec .dctemb s = .next { s with
        mem := m
        status := doneStatus s.status false
        results := { s.results with
          capBits := BitVec.ofNat 32 (blocks / r - 32)
          capBytes := BitVec.ofNat 32 ((blocks / r - 32) / 8)
          units := BitVec.ofNat 32 blocks
          used := BitVec.ofNat 32 ((32 + 8 * len) * r)
          bits := BitVec.ofNat 32 (32 + 8 * len) } } ∧
      Restored s.mem m src s.snap.dst.toNat w h
        (dctMarked s.mem src aux w h len r s.snap.s.toNat) ∧
      SameOutside s.mem m s.snap.dst.toNat (4 * (w * h))

/-- DCTEXT (42 R182, R181); no sat32 clips on pixel data (42 R180). -/
def Obligations.DctextDecodes : Prop :=
  ∀ s : State, Runs .dctext s →
    let w := s.snap.w.toNat
    let h := s.snap.h.toNat
    ∃ t, exec .dctext s = .next t ∧ t.draws = s.draws ∧
      Extracted s t (dctBit s.mem s.snap.src.toNat w s.snap.s.toNat) ((w / 8) * (h / 8)) false 0 0

/-- DWTCAP (43 R202). -/
def Obligations.DwtcapReports : Prop :=
  ∀ s : State, s.snap.r.toNat ≠ 0 → 1 ≤ s.snap.lv.toNat → s.snap.lv.toNat ≤ 7 →
    s.snap.w.toNat ≠ 0 → s.snap.h.toNat ≠ 0 →
    let coeffs := (s.snap.w.toNat / 2 ^ s.snap.lv.toNat) * (s.snap.h.toNat / 2 ^ s.snap.lv.toNat)
    exec .dwtcap s = .next { s with
      status := doneStatus s.status false
      results := { s.results with
        capBits := BitVec.ofNat 32 (coeffs / s.snap.r.toNat - 32)
        capBytes := BitVec.ofNat 32 ((coeffs / s.snap.r.toNat - 32) / 8)
        units := BitVec.ofNat 32 coeffs } }

/-- DWTEMB (43 R204, R203): DST is the marked buffer, SCR holds anything. -/
def Obligations.DwtembMarks : Prop :=
  ∀ s : State, Runs .dwtemb s →
    let w := s.snap.w.toNat
    let h := s.snap.h.toNat
    let lv := s.snap.lv.toNat
    let len := s.snap.len.toNat
    let r := s.snap.r.toNat
    let src := s.snap.src.toNat
    let aux := s.snap.aux.toNat
    let coeffs := (w / 2 ^ lv) * (h / 2 ^ lv)
    ∃ m d c, exec .dwtemb s = .next { s with
        mem := m
        draws := d
        status := doneStatus s.status c
        results := { s.results with
          capBits := BitVec.ofNat 32 (coeffs / r - 32)
          capBytes := BitVec.ofNat 32 ((coeffs / r - 32) / 8)
          units := BitVec.ofNat 32 coeffs
          used := BitVec.ofNat 32 ((32 + 8 * len) * r)
          bits := BitVec.ofNat 32 (32 + 8 * len) } } ∧
      Restored s.mem m src s.snap.dst.toNat w h
        (dwtMarked s.mem src aux w h len r lv s.snap.s.toNat) ∧
      (∀ a, ¬(s.snap.dst.toNat ≤ a ∧ a < s.snap.dst.toNat + 4 * (w * h)) →
        ¬(s.snap.scr.toNat ≤ a ∧ a < s.snap.scr.toNat + 4 * (aligned w lv * aligned h lv)) →
        readByte m a = readByte s.mem a) ∧
      (c = true ↔ DwtEmbedClips s.mem src aux w h len r lv s.snap.s.toNat)

/-- DWTEXT (43 R206, R205): SCR holds anything; no sat32 clips on pixel data, whose LL is at most
255·2^Lv (43 R204). -/
def Obligations.DwtextDecodes : Prop :=
  ∀ s : State, Runs .dwtext s →
    let w := s.snap.w.toNat
    let h := s.snap.h.toNat
    let lv := s.snap.lv.toNat
    ∃ t, exec .dwtext s = .next t ∧
      Extracted s t (dwtBit s.mem s.snap.src.toNat w h lv s.snap.s.toNat)
        ((w / 2 ^ lv) * (h / 2 ^ lv)) false s.snap.scr.toNat (4 * (aligned w lv * aligned h lv))

/-! ### Properties of the units -/

/-- DC only (40 R133): a constant vector has X[1 … 7] = 0 and X[0] = rnd(3037000496·c, 30), and a
constant block has only X[0][0]. -/
def Obligations.ConstantInputHasOnlyDc : Prop :=
  ∀ c : Int,
    (∀ k, 1 ≤ k → k < 8 → (dct8 (List.replicate 8 c)).val.getD k 0 = 0) ∧
    (dct8 (List.replicate 8 c)).val.getD 0 0 = sat32 (rnd (3037000496 * c) 30) ∧
    ∀ u v, u < 8 → v < 8 → ¬(u = 0 ∧ v = 0) →
      matAt (dct2d (List.replicate 8 (List.replicate 8 c))).val u v = 0

/-- Round trips of the DCT for samples of magnitude at most 2^27: 1D within 10 raw units (40 R131),
2D within 655 (40 R132), and a block of pixel values rounds back to itself (40 R132). -/
def Obligations.DctRoundTripIsClose : Prop :=
  (∀ x : List Int, x.length = 8 → (∀ v ∈ x, |v| ≤ 2 ^ 27) →
    ∀ n, n < 8 → |(idct8 (dct8 x).val).val.getD n 0 - x.getD n 0| ≤ 10) ∧
  ∀ B : Mat, B.length = 8 → (∀ row ∈ B, row.length = 8 ∧ ∀ v ∈ row, |v| ≤ 2 ^ 27) →
    (∀ i j, i < 8 → j < 8 → |matAt (idct2d (dct2d B).val).val i j - matAt B i j| ≤ 655) ∧
    ((∀ row ∈ B, ∀ v ∈ row, ∃ b : Int, 0 ≤ b ∧ b ≤ 255 ∧ v = b * 2 ^ 16) →
      ∀ i j, i < 8 → j < 8 →
        rnd (matAt (idct2d (dct2d B).val).val i j) 16 * 2 ^ 16 = matAt B i j)

/-- DWT round trip within 655 raw units for samples of magnitude at most 2^27/2^Lv, and exact for
multiples of 2^Lv (40 R134). -/
def Obligations.DwtRoundTripIsClose : Prop :=
  ∀ (A : Mat) (h w lv : Nat), 1 ≤ h → 1 ≤ w → 1 ≤ lv → lv ≤ 7 → A.length = h →
    (∀ row ∈ A, row.length = w ∧ ∀ v ∈ row, |v| * 2 ^ lv ≤ 2 ^ 27) →
    let d := (dwt A h w lv).val
    let A' := (idwt d.ll d.details h w).val
    (∀ i j, i < h → j < w → |matAt A' i j - matAt A i j| ≤ 655) ∧
    ((∀ row ∈ A, ∀ v ∈ row, ∃ q : Int, v = q * 2 ^ lv) → A' = A)

/-- Channel isolation: chrst leaves channels 0, 1 and 3 alone for every matrix, and restoring the
extracted channel gives the buffer back (40 R135). -/
def Obligations.RestorationIsolatesChannel : Prop :=
  ∀ (pix : List Byte) (w h : Nat), pix.length = 4 * (w * h) →
    (∀ (M : Mat) (k : Nat), k % 4 ≠ 2 → (chrst pix M).getD k 0 = pix.getD k 0) ∧
    (∀ M : Mat, (chrst pix M).length = pix.length) ∧ chrst pix (chext pix w h) = pix

/-- The quantizer reads back what it embedded, moves by at most S, and stands any disturbance below
half a step (42 R175). -/
def Obligations.QuantizerStandsHalfStep : Prop :=
  ∀ (C S : Int) (t : Bool), 1 ≤ S → S ≤ 0x7FFFFFFF → clips (qembedRaw C t S) = false →
    qextract (qembed C t S) S = t ∧ |qembed C t S - C| ≤ S ∧
      ∀ δ : Int, -S ≤ 2 * δ → 2 * δ < S → qextract (qembed C t S + δ) S = t

/-- Error correction (41 R160): a stream with fewer than r/2 flips in every chunk, or at most r/2
for a frame bit 0, decodes to the payload, with A = r·F less the flips; the floor decides. -/
def Obligations.RepetitionCodeCorrects : Prop :=
  ∀ (p : List Byte) (r fl : Nat) (s : List Bool), 1 ≤ p.length → p.length < 2 ^ 32 → 1 ≤ r →
    (32 + 8 * p.length) * r ≤ s.length →
    let f := frame p
    let flips := fun i => ((Finset.range r).filter fun j =>
      s.getD (i * r + j) false ≠ f.getD i false).card
    (∀ i, i < 32 + 8 * p.length →
      2 * flips i < r ∨ (f.getD i false = false ∧ 2 * flips i ≤ r)) →
    let agree := r * (32 + 8 * p.length) - ∑ i ∈ Finset.range (32 + 8 * p.length), flips i
    (∀ i, i < 32 + 8 * p.length → majority s r i = f.getD i false) ∧
    decodeStream s r fl =
      if agree * 2 ^ 16 ≥ fl * r * (32 + 8 * p.length) then
        some { payload := p, conf := agree * 2 ^ 16 / (r * (32 + 8 * p.length)) }
      else none

/-- PACK, then UNPACK of the same bit array with the same r and Nb, gives the payload back with
confidence 1.0 (41 R161). -/
def Obligations.PackThenUnpackRoundTrip : Prop :=
  ∀ s t u : State, Runs .pack s → exec .pack s = .next t → Runs .unpack u →
    (∀ a, s.snap.dst.toNat ≤ a →
      a < s.snap.dst.toNat + (32 + 8 * s.snap.len.toNat) * s.snap.r.toNat / 8 →
      readByte u.mem a = readByte t.mem a) →
    u.snap.src = s.snap.dst → u.snap.r = s.snap.r → u.snap.n = s.snap.n →
    u.snap.fl.toNat ≤ 0x10000 →
    ∃ v, exec .unpack u = .next v ∧ v.status.detect = true ∧ v.results.conf = 0x10000 ∧
      v.results.length = s.snap.len ∧
      ∀ k, k < s.snap.len.toNat → readByte v.mem (u.snap.dst.toNat + k) =
        readByte s.mem (s.snap.src.toNat + k)

/-- For L ≥ 1 a payload fits exactly when L ≤ capBytes(n, r) (41 R157), which is when its header is
plausible (41 R155). -/
def Obligations.PayloadFitsIffWithinCapacity : Prop :=
  ∀ n r len : Nat, 1 ≤ r → 1 ≤ len →
    (capBits n r : Int) = max 0 ((n / r : Nat) - 32 : Int) ∧ capBytes n r = capBits n r / 8 ∧
    ((32 + 8 * len) * r ≤ n ↔ len ≤ capBytes n r) ∧
    (plausible len n r = true ↔ len ≤ capBytes n r)

/-- Capacity correctness (44 R228): DCTCAP's units; a frame over the carrier fails with CAPACITY
and changes nothing; a payload within the reported capacity never does. -/
def Obligations.CapacityIsEnforced : Prop :=
  (∀ s t : State, exec .dctcap s = .next t → s.status.done = false → t.status.done = true →
    t.results.units.toNat = (s.snap.w.toNat / 8) * (s.snap.h.toNat / 8)) ∧
  ∀ (i : Instr) (s : State) (n : Nat),
    (i = .dctemb ∧ n = (s.snap.w.toNat / 8) * (s.snap.h.toNat / 8)) ∨
      (i = .dwtemb ∧
        n = (s.snap.w.toNat / 2 ^ s.snap.lv.toNat) * (s.snap.h.toNat / 2 ^ s.snap.lv.toNat)) →
    ((32 + 8 * s.snap.len.toNat) * s.snap.r.toNat > n → badOption i s.snap = false →
      badDim i s.snap = false → badLength i s.snap = false →
      exec i s = .next { s with status := errStatus s.status .capacity }) ∧
    (s.snap.len.toNat ≤ capBytes n s.snap.r.toNat → firstError i s.snap ≠ some .capacity)

/-- The exact confidence A/(r·F) lies in [1/2, 1]; a payload is detected exactly when its header
fits, is plausible, and A·2^16 ≥ Fl·r·F; the reported value is floor(A·2^16/(r·F)), in 0x8000 …
0x10000; a floor above 1.0 fails every decode and one of at most 1/2 no plausible header (41
R156). -/
def Obligations.ConfidenceLiesInRange : Prop :=
  ∀ (s : List Bool) (r fl : Nat), 1 ≤ r →
    let A := totalAgreement s r (decodedLength s r)
    let n := r * (32 + 8 * decodedLength s r)
    (n ≤ 2 * A ∧ A ≤ n) ∧
    (decodeStream s r fl ≠ none ↔ 32 * r ≤ s.length ∧
      plausible (decodedLength s r) s.length r = true ∧ A * 2 ^ 16 ≥ fl * n) ∧
    (∀ d, decodeStream s r fl = some d →
      d.conf = A * 2 ^ 16 / n ∧ 0x8000 ≤ d.conf ∧ d.conf ≤ 0x10000) ∧
    (0x10000 < fl → decodeStream s r fl = none) ∧
    (fl ≤ 0x8000 → 32 * r ≤ s.length → plausible (decodedLength s r) s.length r = true →
      decodeStream s r fl ≠ none)

/-- No false positive (44 R223): a carrier whose first 32·r bits are 0 decodes to nothing, and an
extraction of a constant image, by either codec, detects nothing. -/
def Obligations.UnmarkedImageNotDetected : Prop :=
  (∀ (s : List Bool) (r fl : Nat), (∀ k, k < 32 * r → s.getD k false = false) →
    decodeStream s r fl = none) ∧
  ∀ (i : Instr) (s : State) (b : Byte), i = .dctext ∨ i = .dwtext → Runs i s →
    (∀ k, k < s.snap.w.toNat * s.snap.h.toNat →
      readByte s.mem (s.snap.src.toNat + 4 * k + 2) = b) →
    ∃ t, exec i s = .next t ∧ t.status.done = true ∧ t.status.detect = false ∧
      t.results.length = 0 ∧ t.results.conf = 0

/-- Locality of both embeddings (44 R229): the output differs from the input only in channel-2
bytes of pixels under the first RES_USED blocks or coefficients of HH_Lv. -/
def Obligations.MarkingIsLocal : Prop :=
  ∀ (i : Instr) (s t : State), i = .dctemb ∨ i = .dwtemb → Runs i s → exec i s = .next t →
    let w := s.snap.w.toNat
    let h := s.snap.h.toNat
    let side := if i = .dctemb then 8 else 2 ^ s.snap.lv.toNat
    ∀ y x c, y < h → x < w → c < 4 →
      readByte t.mem (s.snap.dst.toNat + 4 * (y * w + x) + c) ≠
        readByte s.mem (s.snap.src.toNat + 4 * (y * w + x) + c) →
      c = 2 ∧ x / side < w / side ∧ y / side < h / side ∧
        (y / side) * (w / side) + x / side < t.results.used.toNat

/-- Imperceptibility (44 R225): the blue channels of SRC and DST of an embedding have a PSNR above
30 dB, that is 65025·n·2^32 > 1000·D, for S ≤ 60.0 (DCT) and S ≤ 7.5·2^Lv (DWT). -/
def Obligations.MarkIsImperceptible : Prop :=
  ∀ (i : Instr) (s t : State),
    (i = .dctemb ∧ s.snap.s.toNat ≤ 60 * 2 ^ 16) ∨
      (i = .dwtemb ∧ 2 * s.snap.s.toNat ≤ 15 * 2 ^ s.snap.lv.toNat * 2 ^ 16) →
    Runs i s → exec i s = .next t →
    let w := s.snap.w.toNat
    let h := s.snap.h.toNat
    1000 * squaredDiff (blue s.mem s.snap.src.toNat w) (blue t.mem s.snap.dst.toNat w) h w <
      65025 * (h * w) * 2 ^ 32

/-- Fidelity and robustness of the DCT codec (44 R224, R226): when no restored sample was clamped
and every blue byte then changes by at most a, an extraction with the same options gives the
payload with confidence 1.0, for every a and every S ≥ K_DCT·(2a + 1) + 2^-9. The term 2^-9 (128 raw
units) is the statement's own, for the "few raw units of transform rounding" that 44 R224 names and
the bound of 44 R226 leaves out. S ≥ 8.0 meets it for a = 0, 22.0 for a = 1 and 37.0 for a = 2. -/
def Obligations.DctMarkSurvivesNoise : Prop :=
  (∀ S : Int, (0x80000 ≤ S → DctStrengthFor S 0) ∧ (0x160000 ≤ S → DctStrengthFor S 1) ∧
    (0x250000 ≤ S → DctStrengthFor S 2)) ∧
  ∀ (s t u : State) (a : Nat), Runs .dctemb s → exec .dctemb s = .next t → Runs .dctext u →
    SameOptions s u → Unclamped s.snap.w.toNat s.snap.h.toNat (dctMarked s.mem s.snap.src.toNat
      s.snap.aux.toNat s.snap.w.toNat s.snap.h.toNat s.snap.len.toNat s.snap.r.toNat
      s.snap.s.toNat) →
    BlueWithin t u s.snap.dst.toNat s.snap.w.toNat s.snap.h.toNat a →
    DctStrengthFor s.snap.s.toNat a →
    ∃ v, exec .dctext u = .next v ∧ Recovers s u v

/-- Fidelity and robustness of the DWT codec (44 R224, R226): as for the DCT codec, for
S ≥ 2^Lv·(2a + 1) + 1.0. For a ≥ 1, where 44 R226 has >, equality is the statement's own derivation
from 42 R175 and 43 R203. -/
def Obligations.DwtMarkSurvivesNoise : Prop :=
  ∀ (s t u : State) (a : Nat), Runs .dwtemb s → exec .dwtemb s = .next t → Runs .dwtext u →
    SameOptions s u → u.snap.lv = s.snap.lv →
    Unclamped s.snap.w.toNat s.snap.h.toNat (dwtMarked s.mem s.snap.src.toNat s.snap.aux.toNat
      s.snap.w.toNat s.snap.h.toNat s.snap.len.toNat s.snap.r.toNat s.snap.lv.toNat
      s.snap.s.toNat) →
    BlueWithin t u s.snap.dst.toNat s.snap.w.toNat s.snap.h.toNat a →
    (2 ^ s.snap.lv.toNat * (2 * a + 1) + 1) * 2 ^ 16 ≤ s.snap.s.toNat →
    ∃ v, exec .dwtext u = .next v ∧ Recovers s u v

/-- Determinism (44 R222): two states with the same P, platform, flags and results whose read
regions hold the same bytes end with the same flags and results, and, unless a byte is not backed,
each byte outside the scratch region ends either equal in both or as it was in each. -/
def Obligations.EffectDependsOnReadRegions : Prop :=
  ∀ (i : Instr) (s s' t t' : State), s.snap = s'.snap → s.platform = s'.platform →
    s.status = s'.status → s.results = s'.results →
    (∀ r ∈ regionRows i s.snap, r.access = .read → ∀ a, r.base ≤ a → a < r.base + r.size →
      readByte s.mem a = readByte s'.mem a) →
    exec i s = .next t → exec i s' = .next t' →
    t.status = t'.status ∧ t.results = t'.results ∧
      (t.status.errcode ≠ some .busError → ∀ a,
        (i = .dwtemb ∨ i = .dwtext → ¬(s.snap.scr.toNat ≤ a ∧ a < s.snap.scr.toNat +
          4 * (aligned s.snap.w.toNat s.snap.lv.toNat *
            aligned s.snap.h.toNat s.snap.lv.toNat))) →
        readByte t.mem a = readByte t'.mem a ∨
          (readByte t.mem a = readByte s.mem a ∧ readByte t'.mem a = readByte s'.mem a))

/-! ### The host interface -/

/-- The register map (10 R21 to R25, R34 to R45): each offset names its register, which reads its
field; a write to an RW register stores the bits in use in its own field and changes what no other
register reads; a write to a read-only register changes nothing; ID and CONST are constant. -/
def Obligations.RegisterWriteReadsBack : Prop :=
  (∀ s : State, ∀ e ∈ registerReads s, Reg.ofOffset e.1 = some e.2.1 ∧ readReg s e.2.1 = e.2.2) ∧
  (∀ (s : State) (v : Word), ∀ e ∈ registerWrites s v, ∃ r, Reg.ofOffset e.1 = some r ∧
    writeReg r v s = e.2) ∧
  (∀ (s : State) (v : Word), ∀ e ∈ writableRegisters, ∃ r, Reg.ofOffset e.1 = some r ∧
    readReg (writeReg r v s) r = v &&& e.2 ∧
    (∀ r', r' ≠ r → readReg (writeReg r v s) r' = readReg s r') ∧
    ∃ c q, writeReg r v s = { s with ctrl := c, params := q }) ∧
  (∀ (s : State) (v : Word), ∀ off ∈ readOnlyOffsets, ∃ r, Reg.ofOffset off = some r ∧
    writeReg r v s = s) ∧
  ∀ s : State, readReg s .id = 0x574D4301 ∧ readReg s .const = 0x0037A043

/-- Host accesses to the register window (10 R20): an aligned word access reaches the register its
offset names, reads without side effect, and at an unmapped offset reads 0 and writes nothing; any
other access writes nothing and reads any value. That alignment is of the offset is the model's
choice (notes/assumptions/12.md). -/
def Obligations.RegisterWindowAccesses : Prop :=
  ∀ (s : State) (rest : List HostOp) (off : Nat) (size : AccessSize) (v : Word), off < 4096 →
    (∀ r, size = .word → off % 4 = 0 → Reg.ofOffset off = some r →
      (s.host = .regWrite (s.platform.regBase + off) size v :: rest →
        step s = .next (writeReg r v { s with host := rest })) ∧
      (s.host = .regRead (s.platform.regBase + off) size :: rest →
        step s = .next { s with host := rest, rdata := readReg s r })) ∧
    (size = .word → off % 4 = 0 → off ∉ registerOffsets →
      (s.host = .regWrite (s.platform.regBase + off) size v :: rest →
        step s = .next { s with host := rest }) ∧
      (s.host = .regRead (s.platform.regBase + off) size :: rest →
        step s = .next { s with host := rest, rdata := 0 })) ∧
    (size ≠ .word ∨ off % 4 ≠ 0 →
      (s.host = .regWrite (s.platform.regBase + off) size v :: rest →
        step s = .next { s with host := rest }) ∧
      (s.host = .regRead (s.platform.regBase + off) size :: rest →
        ∃ x d, step s = .next { s with host := rest, rdata := x, draws := d })) ∧
    (Reg.ofOffset off ≠ none ↔ off ∈ registerOffsets)

/-- STATUS reads each flag at its bit, the error code in [15:8] and 0 above (10 R25, 60 R242), and a
write of v to it clears exactly DONE, ERR and CMD_OVR where v has a 1, and irq follows (10 R33). -/
def Obligations.StatusWriteOneToClear : Prop :=
  (∀ s : State, (readReg s .status).toNat = statusWord s.status) ∧
  ∀ (s : State) (v : Word),
    readReg (writeReg .status v s) .status = readReg s .status &&& ~~~(v &&& 0x86) ∧
      writeReg .status v s = { s with status := { s.status with
        done := s.status.done && !v.getLsbD 1
        err := s.status.err && !v.getLsbD 2
        cmdOvr := s.status.cmdOvr && !v.getLsbD 7 } } ∧
      irq (writeReg .status v s) = ((s.status.done && !v.getLsbD 1 && s.ctrl.ieDone) ||
        (s.status.err && !v.getLsbD 2 && s.ctrl.ieErr))

/-- A CMD write: ignored with CMD_OVR set while BUSY = 1, otherwise acceptance (10 R34, R44). -/
def Obligations.CommandWriteAcceptsOrOverruns : Prop :=
  ∀ (s : State) (c : Word),
    (s.status.busy = true →
      writeReg .cmd c s = { s with status := { s.status with cmdOvr := true } }) ∧
    (s.status.busy = false → writeReg .cmd c s = { s with
      lastCmd := c
      status := { busy := true, done := false, err := false, errcode := none, sat := false,
                  detect := false, psnrPass := false, psnrInf := false,
                  cmdOvr := s.status.cmdOvr }
      results := { capBits := 0, capBytes := 0, units := 0, used := 0, bits := 0, length := 0,
                   conf := 0, psnr := 0 }
      snap := { op := c.extractLsb' 0 8, rsv := c.extractLsb' 8 24, w := s.params.width,
                h := s.params.height, src := s.params.srcAddr, aux := s.params.auxAddr,
                dst := s.params.dstAddr, scr := s.params.scrAddr, len := s.params.len,
                s := s.params.strength, r := s.params.redundancy, lv := s.params.levels,
                fl := s.params.confFloor, t := s.params.psnrThresh, n := s.params.bitcap } }) ∧
    (s.status.busy = false → readReg (writeReg .cmd c s) .cmd = c) ∧
    (s.status.busy = true → readReg (writeReg .cmd c s) .cmd = readReg s .cmd)

/-- irq is DONE and IE_DONE, or ERR and IE_ERR, of the words STATUS and CTRL read (10 R47). -/
def Obligations.IrqFollowsStatusAndCtrl : Prop :=
  ∀ s : State, irq s = (((readReg s .status).getLsbD 1 && (readReg s .ctrl).getLsbD 0) ||
    ((readReg s .status).getLsbD 2 && (readReg s .ctrl).getLsbD 1))

/-- A parameter write during a command changes neither P nor what the command does (70 R278). -/
def Obligations.ParameterWritesMissCommand : Prop :=
  ∀ (s : State) (v : Word), s.status.busy = true → ∀ e ∈ writableRegisters, e.1 ≠ 0x008 →
    ∃ r q, Reg.ofOffset e.1 = some r ∧ writeReg r v s = { s with params := q } ∧
      ∀ (i : Instr) (t : State), exec i s = .next t →
        exec i (writeReg r v s) = .next { t with params := q }

/-- The reset input: the registers' reset values, BUSY included, no memory byte changed but those
of the write regions of a command in flight (70 R270, R271, R272). A write region with R = 0 or LV
out of range, one that passes 2^32, and a byte that also lies in a read region are the model's choice
(notes/assumptions/20.md, 9.md, 21.md). -/
def Obligations.ResetInputRestores : Prop :=
  ∀ (s : State) (rest : List HostOp), s.host = .reset :: rest →
    ∃ p m d, step s = .next {
        ctrl := { ieDone := false, ieErr := false }
        status := { busy := false, done := false, err := false, sat := false, detect := false,
                    psnrPass := false, psnrInf := false, cmdOvr := false, errcode := none }
        lastCmd := 0
        params := { width := 0, height := 0, srcAddr := 0, auxAddr := 0, dstAddr := 0,
                    scrAddr := 0, len := 0, strength := 0, redundancy := 0, levels := 0,
                    confFloor := 0x0000C000, psnrThresh := 0x00001E00, bitcap := 0 }
        results := { capBits := 0, capBytes := 0, units := 0, used := 0, bits := 0, length := 0,
                     conf := 0, psnr := 0 }
        snap := p, mem := m, platform := s.platform, host := rest, rdata := s.rdata
        draws := d } ∧
      (∀ a, ¬InFlightByte s true a → readByte m a = readByte s.mem a) ∧
      (s.status.busy = false → m = s.mem)

/-- The HAZARD fault: exactly a host write, while BUSY = 1, to a byte of a region of the command in
flight (70 R276); any other host write stores its byte (20 R60). The model's choice: that the hazard
is judged while BUSY = 1 (notes/assumptions/8.md), a region with R = 0 or LV out of range (20.md), and
that a write stores its byte in a device range and where busOK is false too (10.md, 18.md). -/
def Obligations.HostWriteHazard : Prop :=
  ∀ (s : State) (rest : List HostOp) (a : Word) (b : Byte), s.host = .memWrite a b :: rest →
    (InFlightByte s false a.toNat → step s = .fault .hostHazard) ∧
    (¬InFlightByte s false a.toNat → ∃ m, step s = .next { s with host := rest, mem := m } ∧
      readByte m a.toNat = b ∧ ∀ x, x ≠ a.toNat → readByte m x = readByte s.mem x)

/-- A host read of a byte in a write region of the command in flight returns any byte, and of any
other byte the memory's value; neither changes the command or the memory (70 R277). The model's
choice: a byte in both a read and a write region (notes/assumptions/21.md), a region with R = 0 or LV
out of range (20.md), and a read in a device range or where busOK is false (10.md, 18.md). -/
def Obligations.HostReadDuringCommand : Prop :=
  ∀ (s : State) (rest : List HostOp) (a : Word), s.host = .memRead a :: rest →
    (InFlightByte s true a.toNat → ∃ (x : Byte) (d : Nat),
      step s = .next { s with host := rest, rdata := x.setWidth 32, draws := d }) ∧
    (¬InFlightByte s true a.toNat →
      step s = .next { s with host := rest, rdata := (readByte s.mem a.toNat).setWidth 32 })
end

