-- ==== Sys2Proof/Laws/Matrix.lean ====
section
/-! SUPPORT. The laws of the number formats and of the matrix helpers. -/

namespace Sys2Proof.Laws

open Sys2Proof.Machine

/-! ### Saturation -/

theorem sat32_bounds (x : Int) : -2147483648 ≤ sat32 x ∧ sat32 x ≤ 2147483647 := by
  unfold sat32; split <;> [omega; split <;> omega]

theorem sat32_of_bounds {x : Int} (h : -2147483648 ≤ x ∧ x ≤ 2147483647) : sat32 x = x := by
  unfold sat32; split <;> [omega; split <;> omega]

/-- PutSample's own sat32 changes nothing (00 R13). -/
@[simp] theorem sat32_sat32 (x : Int) : sat32 (sat32 x) = sat32 x :=
  sat32_of_bounds (sat32_bounds x)

theorem clips_eq_false_iff (x : Int) : clips x = false ↔ sat32 x = x := by simp [clips]

theorem clips_eq_true_iff (x : Int) : clips x = true ↔ sat32 x ≠ x := by simp [clips]

theorem clips_eq_false_of_bounds {x : Int} (h : -2147483648 ≤ x ∧ x ≤ 2147483647) :
    clips x = false := (clips_eq_false_iff x).2 (sat32_of_bounds h)

theorem sext32_word32 {x : Int} (h : -2147483648 ≤ x ∧ x ≤ 2147483647) :
    sext32 (word32 x) = x := by
  unfold sext32 word32
  rw [BitVec.toInt_ofInt, Int.bmod_def]
  norm_num
  split <;> omega

theorem sext32_bounds (v : Word) : -2147483648 ≤ sext32 v ∧ sext32 v ≤ 2147483647 := by
  unfold sext32
  have h1 := BitVec.le_toInt v
  have h2 := BitVec.toInt_lt (x := v)
  norm_num at h1 h2
  omega

theorem rnd_one (v : Int) : rnd v 1 = (v + 1) / 2 := by simp [rnd]
theorem rnd_sixteen (v : Int) : rnd v 16 = (v + 32768) / 65536 := by simp [rnd]
theorem rnd_thirty (v : Int) : rnd v 30 = (v + 536870912) / 1073741824 := by simp [rnd]

/-! ### Matrices -/

/-- The matrix has h rows of w elements. -/
def Shaped (h w : Nat) (M : Mat) : Prop := M.length = h ∧ ∀ row ∈ M, row.length = w

theorem shaped_matBuild (h w : Nat) (f : Nat → Nat → Int) : Shaped h w (matBuild h w f) := by
  refine ⟨by simp [matBuild], ?_⟩
  intro row hr
  simp only [matBuild, List.mem_map] at hr
  obtain ⟨i, _, rfl⟩ := hr
  simp

theorem matAt_matBuild {h w i j : Nat} (f : Nat → Nat → Int) (hi : i < h) (hj : j < w) :
    matAt (matBuild h w f) i j = f i j := by
  simp [matAt, matBuild, hi, hj]

theorem matBuild_congr {h w : Nat} {f g : Nat → Nat → Int}
    (hfg : ∀ i j, i < h → j < w → f i j = g i j) : matBuild h w f = matBuild h w g := by
  unfold matBuild
  apply List.map_congr_left
  intro i hi
  apply List.map_congr_left
  intro j hj
  exact hfg i j (List.mem_range.1 hi) (List.mem_range.1 hj)

/-- A shaped matrix is the one built from its elements. -/
theorem matBuild_matAt {h w : Nat} {M : Mat} (hM : Shaped h w M) :
    matBuild h w (fun i j => matAt M i j) = M := by
  obtain ⟨hl, hr⟩ := hM
  apply List.ext_getElem (by simp [matBuild, hl])
  intro i h1 h2
  have hi : M[i].length = w := hr _ (List.getElem_mem h2)
  apply List.ext_getElem (by simp [matBuild, hi])
  intro j h3 h4
  simp [matBuild, matAt, h2, h4]

theorem shaped_ext {h w : Nat} {M N : Mat} (hM : Shaped h w M) (hN : Shaped h w N)
    (he : ∀ i j, i < h → j < w → matAt M i j = matAt N i j) : M = N := by
  rw [← matBuild_matAt hM, ← matBuild_matAt hN]; exact matBuild_congr he

theorem length_flatten {h w : Nat} {M : Mat} (hM : Shaped h w M) : M.flatten.length = h * w := by
  obtain ⟨rfl, hr⟩ := hM
  induction M with
  | nil => simp
  | cons row M ih =>
    simp only [List.flatten_cons, List.length_append, List.length_cons]
    rw [ih fun r h => hr r (by simp [h]), hr row (by simp)]
    ring

/-- Element i·w + j of the row-major order is M[i][j] (00 R15). -/
theorem getD_flatten {h w : Nat} {M : Mat} (hM : Shaped h w M) {i j : Nat} (hi : i < h)
    (hj : j < w) (d : Int) : M.flatten.getD (i * w + j) d = matAt M i j := by
  obtain ⟨rfl, hr⟩ := hM
  induction M generalizing i with
  | nil => simp at hi
  | cons row M ih =>
    have hrow : row.length = w := hr row (by simp)
    cases i with
    | zero =>
      have hjr : j < row.length := by omega
      simp [matAt, List.flatten_cons, List.getElem?_append_left hjr, hjr]
    | succ i =>
      have h1 : row.length ≤ (i + 1) * w + j := by rw [hrow]; nlinarith
      rw [List.flatten_cons, List.getD_append_right _ _ _ _ h1, hrow,
        show (i + 1) * w + j - w = i * w + j by rw [Nat.add_mul]; omega,
        ih (fun r h => hr r (by simp [h])) (by simpa using hi)]
      simp [matAt]

theorem shaped_matOfFlat {h w : Nat} {xs : List Int} (hx : xs.length = h * w) :
    Shaped h w (matOfFlat h w xs) := by
  refine ⟨by simp [matOfFlat], ?_⟩
  intro row hr
  simp only [matOfFlat, List.mem_map, List.mem_range] at hr
  obtain ⟨i, hi, rfl⟩ := hr
  have : (i + 1) * w ≤ h * w := Nat.mul_le_mul_right _ hi
  rw [List.length_take, List.length_drop, hx]
  rw [Nat.add_mul] at this
  omega

theorem matAt_matOfFlat {h w i j : Nat} {xs : List Int} (hi : i < h) (hj : j < w) :
    matAt (matOfFlat h w xs) i j = xs.getD (i * w + j) 0 := by
  simp [matAt, matOfFlat, hi, List.getD_eq_getElem?_getD, hj,
    List.getElem?_drop]

theorem flatten_matOfFlat {h w : Nat} {xs : List Int} (hx : xs.length = h * w) :
    (matOfFlat h w xs).flatten = xs := by
  induction h generalizing xs with
  | zero => simp at hx; subst hx; simp [matOfFlat]
  | succ h ih =>
    have hw : w ≤ xs.length := by rw [hx, Nat.add_mul]; omega
    have hd : (xs.drop w).length = h * w := by rw [List.length_drop, hx, Nat.add_mul]; omega
    have : matOfFlat (h + 1) w xs = xs.take w :: matOfFlat h w (xs.drop w) := by
      simp only [matOfFlat, List.range_succ_eq_map, List.map_cons, List.map_map, Nat.zero_mul,
        List.drop_zero, List.cons.injEq, true_and]
      apply List.map_congr_left
      intro i _
      simp [List.drop_drop, Nat.add_mul, Nat.add_comm]
    rw [this, List.flatten_cons, ih hd, List.take_append_drop]

theorem shaped_map {h w : Nat} {M : Mat} (hM : Shaped h w M) (f : Int → Int) :
    Shaped h w (M.map fun row => row.map f) := by
  refine ⟨by simp [hM.1], ?_⟩
  intro row hr
  simp only [List.mem_map] at hr
  obtain ⟨r, h, rfl⟩ := hr
  simpa using hM.2 r h

theorem matAt_map {h w : Nat} {M : Mat} (hM : Shaped h w M) (f : Int → Int) {i j : Nat}
    (hi : i < h) (hj : j < w) : matAt (M.map fun row => row.map f) i j = f (matAt M i j) := by
  have h1 : i < M.length := by rw [hM.1]; exact hi
  have h2 : j < M[i].length := by rw [hM.2 _ (List.getElem_mem h1)]; exact hj
  simp [matAt, h1, h2]

theorem shaped_matTranspose {h w : Nat} {M : Mat} (hM : M.length = h) :
    Shaped w h (matTranspose w M) := by
  refine ⟨by simp [matTranspose], ?_⟩
  intro row hr
  simp only [matTranspose, List.mem_map] at hr
  obtain ⟨j, _, rfl⟩ := hr
  simpa using hM

theorem matAt_matTranspose {w : Nat} {M : Mat} {i j : Nat} (hi : i < w) :
    matAt (matTranspose w M) i j = matAt M j i := by
  by_cases hj : j < M.length
  · simp [matAt, matTranspose, hi, hj]
  · simp [matAt, matTranspose, hi, hj]

/-- Whether some element of a matrix satisfies a test. -/
theorem any_matBuild {h w : Nat} {f : Nat → Nat → Int} {p : Int → Bool} :
    (matBuild h w f).any (fun row => row.any p) = true ↔ ∃ i j, i < h ∧ j < w ∧ p (f i j) = true := by
  simp only [matBuild, List.any_map, List.any_eq_true, List.mem_range, Function.comp]
  constructor
  · rintro ⟨i, hi, j, hj, hp⟩; exact ⟨i, j, hi, hj, hp⟩
  · rintro ⟨i, j, hi, hj, hp⟩; exact ⟨i, hi, j, hj, hp⟩

/-- The exact inner product as a sum. -/
theorem dot_eq_sum {n : Nat} {xs ys : List Int} (hx : xs.length = n) (hy : ys.length = n) :
    dot xs ys = ∑ k ∈ Finset.range n, xs.getD k 0 * ys.getD k 0 := by
  induction n generalizing xs ys with
  | zero => simp [List.length_eq_zero_iff.1 hx, dot]
  | succ n ih =>
    match xs, ys, hx, hy with
    | x :: xs, y :: ys, hx, hy =>
      rw [Finset.sum_range_succ']
      have := ih (xs := xs) (ys := ys) (by simpa using hx) (by simpa using hy)
      simp only [dot] at this
      simp [dot, this, add_comm]

end Sys2Proof.Laws
end

