-- ==== Sys2Proof/Laws/Memory.lean ====
section
/-! SUPPORT. The laws of the data memory: read after write, the canonical form, and that the fast
load is the byte-by-byte one. -/

namespace Sys2Proof.Laws

open Sys2Proof.Machine

/-! ### Reading one byte -/

theorem readByte_eq_unlisted {m : Memory} {a : Nat} (h : ∀ c ∈ m, c.1 ≠ a) :
    readByte m a = unlistedByte := by
  induction m with
  | nil => rfl
  | cons c m ih =>
    obtain ⟨x, b⟩ := c
    have hx : x ≠ a := h (x, b) (by simp)
    simp only [readByte, if_neg hx]
    exact ih fun c hc => h c (by simp [hc])

theorem readByte_append_left {m n : Memory} {a : Nat} (h : ∀ c ∈ n, c.1 ≠ a) :
    readByte (m ++ n) a = readByte m a := by
  induction m with
  | nil => simpa [readByte] using readByte_eq_unlisted h
  | cons c m ih =>
    obtain ⟨x, b⟩ := c
    simp only [List.cons_append, readByte, ih]

theorem readByte_append_right {m n : Memory} {a : Nat} (h : ∀ c ∈ m, c.1 ≠ a) :
    readByte (m ++ n) a = readByte n a := by
  induction m with
  | nil => rfl
  | cons c m ih =>
    obtain ⟨x, b⟩ := c
    have hx : x ≠ a := h (x, b) (by simp)
    simp only [List.cons_append, readByte, if_neg hx]
    exact ih fun c hc => h c (by simp [hc])

theorem readByte_filter (p : Nat → Bool) (m : Memory) (a : Nat) :
    readByte (m.filter fun c => p c.1) a = if p a then readByte m a else unlistedByte := by
  induction m with
  | nil => simp [readByte]
  | cons c m ih =>
    obtain ⟨x, b⟩ := c
    by_cases hx : x = a
    · subst hx
      by_cases hp : p x = true <;> simp [List.filter, readByte, hp, ih]
    · by_cases hp : p x = true <;> simp [List.filter, readByte, hp, hx, ih]

theorem mem_cellsOf {a : Nat} {bs : List Byte} {c : Host.Cell} (h : c ∈ cellsOf a bs) :
    a ≤ c.1 ∧ c.1 < a + bs.length ∧ c.2 ≠ unlistedByte := by
  induction bs generalizing a with
  | nil => simp [cellsOf] at h
  | cons b bs ih =>
    simp only [cellsOf] at h
    simp only [List.length_cons]
    split at h
    · have := ih h; exact ⟨by omega, by omega, this.2.2⟩
    · rcases List.mem_cons.1 h with rfl | h
      · exact ⟨Nat.le_refl _, by simp, by assumption⟩
      · have := ih h; exact ⟨by omega, by omega, this.2.2⟩

theorem readByte_cellsOf (bs : List Byte) (a k : Nat) :
    readByte (cellsOf a bs) (a + k) = bs.getD k unlistedByte := by
  induction bs generalizing a k with
  | nil => simp [cellsOf, readByte]
  | cons b bs ih =>
    simp only [cellsOf]
    cases k with
    | zero =>
      have later : readByte (cellsOf (a + 1) bs) a = unlistedByte :=
        readByte_eq_unlisted fun c hc => by have := mem_cellsOf hc; omega
      split
      · next hb => simp [later, hb]
      · simp [readByte]
    | succ k =>
      have : a + (k + 1) = a + 1 + k := by omega
      split
      · rw [this, ih]; simp
      · rw [readByte, if_neg (by omega), this, ih]; simp

/-- Read after write: inside the written bytes the byte written, elsewhere the byte before. -/
theorem readByte_writeBytes (m : Memory) (a : Nat) (bs : List Byte) (x : Nat) :
    readByte (writeBytes m a bs) x =
      if a ≤ x ∧ x < a + bs.length then bs.getD (x - a) unlistedByte else readByte m x := by
  unfold writeBytes
  have lo := readByte_filter (fun y => decide (y < a)) m x
  have hi := readByte_filter (fun y => decide (a + bs.length ≤ y)) m x
  by_cases hin : a ≤ x ∧ x < a + bs.length
  · rw [if_pos hin, readByte_append_left, readByte_append_right]
    · obtain ⟨k, rfl⟩ := Nat.exists_eq_add_of_le hin.1
      rw [readByte_cellsOf]; simp
    · intro c hc; simp at hc; omega
    · intro c hc; simp at hc; omega
  · rw [if_neg hin]
    by_cases hlt : x < a
    · rw [List.append_assoc, readByte_append_left, lo]
      · simp [hlt]
      · intro c hc
        rcases List.mem_append.1 hc with hc | hc
        · have := mem_cellsOf hc; omega
        · simp at hc; omega
    · rw [readByte_append_right, hi]
      · rw [if_pos (by simp; omega)]
      · intro c hc
        rcases List.mem_append.1 hc with hc | hc
        · simp at hc; omega
        · have := mem_cellsOf hc; omega

/-- A write leaves every byte outside it alone. -/
theorem readByte_writeBytes_outside {m : Memory} {a : Nat} {bs : List Byte} {x : Nat}
    (h : ¬(a ≤ x ∧ x < a + bs.length)) : readByte (writeBytes m a bs) x = readByte m x := by
  rw [readByte_writeBytes, if_neg h]

/-- A write puts its bytes where it says. -/
theorem readByte_writeBytes_inside {m : Memory} {a : Nat} {bs : List Byte} {k : Nat}
    (h : k < bs.length) : readByte (writeBytes m a bs) (a + k) = bs[k] := by
  rw [readByte_writeBytes, if_pos ⟨by omega, by omega⟩]
  simp [List.getD_eq_getElem?_getD, h]

/-! ### Loads -/

theorem length_bytesAt (m : Memory) (a n : Nat) : (bytesAt m a n).length = n := by simp [bytesAt]

theorem bytesAt_congr {m m' : Memory} {a n : Nat}
    (h : ∀ x, a ≤ x → x < a + n → readByte m x = readByte m' x) :
    bytesAt m a n = bytesAt m' a n := by
  unfold bytesAt
  apply List.map_congr_left
  intro k hk
  have := List.mem_range.1 hk
  exact h _ (by omega) (by omega)

theorem bytesAt_add (m : Memory) (a i j : Nat) :
    bytesAt m a (i + j) = bytesAt m a i ++ bytesAt m (a + i) j := by
  simp [bytesAt, List.range_add, Nat.add_assoc]

theorem loadWindow_eq (fuel : Nat) (m : Memory) (a n : Nat) :
    loadWindow fuel m a n = bytesAt m a n := by
  induction fuel generalizing m a n with
  | zero => rfl
  | succ fuel ih =>
    unfold loadWindow
    split
    · rfl
    · rw [ih, ih]
      conv_rhs => rw [show n = n / 2 + (n - n / 2) by omega, bytesAt_add]
      congr 1
      · apply bytesAt_congr
        intro x h1 h2
        rw [readByte_filter (fun y => decide (y < a + n / 2))]; simp [h2]
      · apply bytesAt_congr
        intro x h1 h2
        rw [readByte_filter (fun y => decide (a + n / 2 ≤ y))]; simp [h1]

/-- The fast load is the byte-by-byte one. -/
theorem loadBytes_eq (m : Memory) (a n : Nat) : loadBytes m a n = bytesAt m a n := by
  unfold loadBytes
  rw [loadWindow_eq]
  apply bytesAt_congr
  intro x h1 h2
  rw [readByte_filter (fun y => decide (a ≤ y ∧ y < a + n))]; simp [h1, h2]

@[simp] theorem length_loadBytes (m : Memory) (a n : Nat) : (loadBytes m a n).length = n := by
  rw [loadBytes_eq, length_bytesAt]

theorem loadBytes_congr {m m' : Memory} {a n : Nat}
    (h : ∀ x, a ≤ x → x < a + n → readByte m x = readByte m' x) :
    loadBytes m a n = loadBytes m' a n := by
  rw [loadBytes_eq, loadBytes_eq, bytesAt_congr h]

theorem getElem?_loadBytes {m : Memory} {a n k : Nat} (h : k < n) :
    (loadBytes m a n)[k]? = some (readByte m (a + k)) := by
  rw [loadBytes_eq]; simp [bytesAt, h]

theorem getD_loadBytes {m : Memory} {a n k : Nat} (h : k < n) (d : Byte) :
    (loadBytes m a n).getD k d = readByte m (a + k) := by
  simp [getElem?_loadBytes h]

/-- Reading back exactly what was written. -/
theorem loadBytes_writeBytes (m : Memory) (a : Nat) (bs : List Byte) :
    loadBytes (writeBytes m a bs) a bs.length = bs := by
  rw [loadBytes_eq]
  apply List.ext_getElem (by simp [bytesAt])
  intro k h1 h2
  simp [bytesAt, readByte_writeBytes_inside h2]

/-! ### The canonical form -/

theorem wf_iff (m : Memory) : Memory.wf m = true ↔
    m.Pairwise (fun c d => c.1 < d.1) ∧ ∀ c ∈ m, c.1 < 2 ^ 32 ∧ c.2 ≠ unlistedByte := by
  induction m with
  | nil => simp [Memory.wf]
  | cons c m ih =>
    obtain ⟨a, b⟩ := c
    simp only [Memory.wf, Bool.and_eq_true, decide_eq_true_eq, List.all_eq_true, ih,
      List.pairwise_cons, List.mem_cons, forall_eq_or_imp]
    tauto

theorem pairwise_cellsOf (a : Nat) (bs : List Byte) :
    (cellsOf a bs).Pairwise (fun c d => c.1 < d.1) := by
  induction bs generalizing a with
  | nil => simp [cellsOf]
  | cons b bs ih =>
    simp only [cellsOf]
    split
    · exact ih _
    · exact List.pairwise_cons.2 ⟨fun c hc => by have := mem_cellsOf hc; omega, ih _⟩

/-- A write inside the address space keeps the canonical form. -/
theorem wf_writeBytes {m : Memory} {a : Nat} {bs : List Byte} (h : Memory.wf m = true)
    (hr : bs = [] ∨ a + bs.length ≤ 2 ^ 32) : Memory.wf (writeBytes m a bs) = true := by
  rw [wf_iff] at h ⊢
  obtain ⟨hp, hm⟩ := h
  constructor
  · unfold writeBytes
    rw [List.pairwise_append, List.pairwise_append]
    refine ⟨⟨hp.filter _, pairwise_cellsOf _ _, ?_⟩, hp.filter _, ?_⟩
    · intro c hc d hd
      have := mem_cellsOf hd; simp at hc; omega
    · intro c hc d hd
      simp at hd
      rcases List.mem_append.1 hc with hc | hc
      · simp at hc; omega
      · have := mem_cellsOf hc; omega
  · intro c hc
    unfold writeBytes at hc
    rcases List.mem_append.1 hc with hc | hc
    · rcases List.mem_append.1 hc with hc | hc
      · exact hm c (List.mem_of_mem_filter hc)
      · have := mem_cellsOf hc
        refine ⟨?_, this.2.2⟩
        rcases hr with rfl | hr
        · simp [cellsOf] at hc
        · omega
    · exact hm c (List.mem_of_mem_filter hc)

/-- The reset memory has the canonical form. -/
theorem wf_nil : Memory.wf [] = true := rfl

/-- A canonical memory is determined by what its addresses read as. -/
theorem eq_of_readByte_eq {m m' : Memory} (h : Memory.wf m = true) (h' : Memory.wf m' = true)
    (heq : ∀ a, readByte m a = readByte m' a) : m = m' := by
  have hd : ∀ (m : Memory), Memory.wf m = true → ∀ a b, (a, b) ∈ m → readByte m a = b := by
    intro m
    induction m with
    | nil => simp
    | cons c m ih =>
      obtain ⟨x, y⟩ := c
      intro hw a b hab
      simp only [Memory.wf, Bool.and_eq_true, List.all_eq_true, decide_eq_true_eq] at hw
      rcases List.mem_cons.1 hab with hab | hab
      · cases hab; simp [readByte]
      · have := hw.1.2 _ hab
        simp only at this
        rw [readByte, if_neg (by omega)]; exact ih hw.2 a b hab
  have hs : ∀ (m m' : Memory), Memory.wf m = true → Memory.wf m' = true →
      (∀ a, readByte m a = readByte m' a) → ∀ c ∈ m, c ∈ m' := by
    intro m m' hm hm' he c hc
    obtain ⟨a, b⟩ := c
    have h1 := hd m hm a b hc
    have h2 := ((wf_iff m).1 hm).2 _ hc
    by_contra hn
    have : readByte m' a = unlistedByte ∨ ∃ b', (a, b') ∈ m' := by
      by_cases hk : ∀ c ∈ m', c.1 ≠ a
      · exact .inl (readByte_eq_unlisted hk)
      · push Not at hk
        obtain ⟨⟨x, y⟩, hxy, rfl⟩ := hk
        exact .inr ⟨y, hxy⟩
    rcases this with h3 | ⟨b', hb'⟩
    · exact h2.2 (by rw [← h1, he, h3])
    · have := hd m' hm' a b' hb'
      rw [← he, h1] at this
      subst this; exact hn hb'
  have p := ((wf_iff m).1 h).1
  have p' := ((wf_iff m').1 h').1
  refine List.Perm.eq_of_pairwise (le := fun c d : Host.Cell => c.1 < d.1) ?_ p p' ?_
  · intro a b _ _ h1 h2; exact absurd h1 (by omega)
  · have nd : ∀ (m : Memory), m.Pairwise (fun c d => c.1 < d.1) → m.Nodup := fun m hm =>
      hm.imp fun h he => by simp [he] at h
    exact (List.perm_ext_iff_of_nodup (nd m p) (nd m' p')).2 fun c =>
      ⟨hs m m' h h' heq c, hs m' m h' h (fun a => (heq a).symm) c⟩

end Sys2Proof.Laws
end

