-- ==== Sys2Proof/Laws/Samples.lean ====
section
/-! SUPPORT. The laws of sample words, pixel buffers and bit arrays in memory (20 R62 to R67). -/

namespace Sys2Proof.Laws

open Sys2Proof.Machine

/-! ### Sample words -/

theorem wordOfBytes_wordBytes (v : Word) :
    wordOfBytes (v.extractLsb' 0 8) (v.extractLsb' 8 8) (v.extractLsb' 16 8) (v.extractLsb' 24 8)
      = v := by
  unfold wordOfBytes
  ext i hi
  simp only [BitVec.getElem_append, BitVec.getElem_extractLsb']
  split
  · simp [BitVec.getLsbD_eq_getElem hi]
  · split
    · simp only [show 8 + (i - 8) = i by omega, BitVec.getLsbD_eq_getElem hi]
    · split
      · simp only [show 16 + (i - 8 - 8) = i by omega, BitVec.getLsbD_eq_getElem hi]
      · simp only [show 24 + (i - 8 - 8 - 8) = i by omega, BitVec.getLsbD_eq_getElem hi]

theorem length_samplesOfBytes {n : Nat} {bs : List Byte} (h : bs.length = 4 * n) :
    (samplesOfBytes bs).length = n := by
  induction n generalizing bs with
  | zero => simp [List.length_eq_zero_iff.1 (by simpa using h), samplesOfBytes]
  | succ n ih =>
    match bs, h with
    | b0 :: b1 :: b2 :: b3 :: bs, h =>
      simp only [List.length_cons] at h
      simp [samplesOfBytes, ih (bs := bs) (by omega)]

theorem getD_samplesOfBytes {n k : Nat} {bs : List Byte} (h : bs.length = 4 * n) (hk : k < n) :
    (samplesOfBytes bs).getD k 0 = sext32 (wordOfBytes (bs.getD (4 * k) 0)
      (bs.getD (4 * k + 1) 0) (bs.getD (4 * k + 2) 0) (bs.getD (4 * k + 3) 0)) := by
  induction n generalizing bs k with
  | zero => omega
  | succ n ih =>
    match bs, h with
    | b0 :: b1 :: b2 :: b3 :: bs, h =>
      simp only [List.length_cons] at h
      cases k with
      | zero => simp [samplesOfBytes]
      | succ k =>
        simp only [samplesOfBytes, List.getD_cons_succ, ih (bs := bs) (k := k) (by omega) (by omega),
          show 4 * (k + 1) = 4 * k + 1 + 1 + 1 + 1 by ring]

@[simp] theorem length_loadSamples (m : Memory) (a n : Nat) : (loadSamples m a n).length = n :=
  length_samplesOfBytes (by simp)

theorem getD_loadSamples {m : Memory} {a n k : Nat} (hk : k < n) :
    (loadSamples m a n).getD k 0 = sampleAt m (a + 4 * k) := by
  unfold loadSamples sampleAt
  rw [getD_samplesOfBytes (by simp) hk, getD_loadBytes (by omega), getD_loadBytes (by omega),
    getD_loadBytes (by omega), getD_loadBytes (by omega)]
  simp only [Nat.add_assoc]

theorem loadSamples_congr {m m' : Memory} {a n : Nat}
    (h : ∀ x, a ≤ x → x < a + 4 * n → readByte m x = readByte m' x) :
    loadSamples m a n = loadSamples m' a n := by
  unfold loadSamples; rw [loadBytes_congr h]

theorem sampleAt_bounds (m : Memory) (a : Nat) :
    -2147483648 ≤ sampleAt m a ∧ sampleAt m a ≤ 2147483647 := sext32_bounds _

@[simp] theorem length_sampleBytes (xs : List Int) : (sampleBytes xs).length = 4 * xs.length := by
  induction xs with
  | nil => rfl
  | cons x xs ih =>
    simp only [sampleBytes, List.flatMap_cons, List.length_append, List.length_cons] at *
    rw [ih]; simp [wordBytes]; ring

theorem getD_sampleBytes (xs : List Int) (k i : Nat) (hk : k < xs.length) (hi : i < 4) :
    (sampleBytes xs).getD (4 * k + i) 0 = (wordBytes (word32 (sat32 (xs.getD k 0)))).getD i 0 := by
  induction xs generalizing k with
  | nil => simp at hk
  | cons x xs ih =>
    have hl : (wordBytes (word32 (sat32 x))).length = 4 := rfl
    simp only [sampleBytes, List.flatMap_cons]
    cases k with
    | zero => rw [List.getD_append _ _ _ _ (by omega)]; simp
    | succ k =>
      rw [List.getD_append_right _ _ _ _ (by omega), hl,
        show 4 * (k + 1) + i - 4 = 4 * k + i by omega]
      simpa [sampleBytes] using ih k (by simpa using hk)

/-- PutSample then Sample gives the saturated value (00 R14). -/
theorem sampleAt_putSamples {m : Memory} {a : Nat} {xs : List Int} {k : Nat} (hk : k < xs.length) :
    sampleAt (writeBytes m a (sampleBytes xs)) (a + 4 * k) = sat32 (xs.getD k 0) := by
  have rd : ∀ i, i < 4 → readByte (writeBytes m a (sampleBytes xs)) (a + 4 * k + i) =
      (wordBytes (word32 (sat32 (xs.getD k 0)))).getD i 0 := by
    intro i hi
    rw [readByte_writeBytes, if_pos ⟨by omega, by rw [length_sampleBytes]; omega⟩,
      show a + 4 * k + i - a = 4 * k + i by omega]
    exact getD_sampleBytes xs k i hk hi
  unfold sampleAt
  rw [show a + 4 * k = a + 4 * k + 0 from rfl, rd 0 (by omega)]
  simp only [Nat.add_zero]
  rw [rd 1 (by omega), rd 2 (by omega), rd 3 (by omega)]
  simp only [wordBytes, List.getD_cons_zero, List.getD_cons_succ]
  rw [wordOfBytes_wordBytes, sext32_word32 (sat32_bounds _)]

theorem shaped_loadMatrix (m : Memory) (a h w : Nat) : Shaped h w (loadMatrix m a h w) :=
  shaped_matOfFlat (by simp)

/-- M[i][j] = Sample(a + 4·(i·w + j)) (20 R64). -/
theorem matAt_loadMatrix {m : Memory} {a h w i j : Nat} (hi : i < h) (hj : j < w) :
    matAt (loadMatrix m a h w) i j = sampleAt m (a + 4 * (i * w + j)) := by
  unfold loadMatrix
  rw [matAt_matOfFlat hi hj, getD_loadSamples]
  calc i * w + j < i * w + w := by omega
    _ = (i + 1) * w := by ring
    _ ≤ h * w := Nat.mul_le_mul_right _ hi

theorem loadMatrix_congr {m m' : Memory} {a h w : Nat}
    (e : ∀ x, a ≤ x → x < a + 4 * (h * w) → readByte m x = readByte m' x) :
    loadMatrix m a h w = loadMatrix m' a h w := by
  unfold loadMatrix; rw [loadSamples_congr e]

theorem flatten_loadMatrix (m : Memory) (a h w : Nat) :
    (loadMatrix m a h w).flatten = loadSamples m a (h * w) := flatten_matOfFlat (by simp)

/-! ### Bit arrays -/

@[simp] theorem length_byteBits (b : Byte) : (byteBits b).length = 8 := by simp [byteBits]

theorem getD_byteBits {b : Byte} {j : Nat} (hj : j < 8) : (byteBits b).getD j false = bitOfByte b j := by
  simp [byteBits, hj]

theorem length_flatMap_byteBits (bs : List Byte) : (bs.flatMap byteBits).length = 8 * bs.length := by
  induction bs with
  | nil => rfl
  | cons b bs ih => simp only [List.flatMap_cons, List.length_append, ih, length_byteBits,
      List.length_cons]; ring

theorem getD_flatMap_byteBits {bs : List Byte} {j : Nat} (hj : j < 8 * bs.length) :
    (bs.flatMap byteBits).getD j false = bitOfByte (bs.getD (j / 8) 0) (j % 8) := by
  induction bs generalizing j with
  | nil => simp at hj
  | cons b bs ih =>
    simp only [List.flatMap_cons, List.length_cons] at *
    by_cases h8 : j < 8
    · rw [List.getD_append _ _ _ _ (by simpa using h8), getD_byteBits h8]
      simp [Nat.div_eq_of_lt h8, Nat.mod_eq_of_lt h8]
    · rw [List.getD_append_right _ _ _ _ (by simp; omega), length_byteBits, ih (by omega)]
      obtain ⟨q, hq⟩ : ∃ q, j / 8 = q + 1 := ⟨j / 8 - 1, by omega⟩
      rw [show (j - 8) / 8 = q by omega, show (j - 8) % 8 = j % 8 by omega, hq]
      simp

theorem ceilDiv_eight (n : Nat) : n ≤ 8 * ceilDiv n 8 ∧ 8 * ceilDiv n 8 < n + 8 := by
  unfold ceilDiv; omega

@[simp] theorem length_loadBits (m : Memory) (a n : Nat) : (loadBits m a n).length = n := by
  unfold loadBits
  rw [List.length_take, length_flatMap_byteBits, length_loadBytes]
  have := ceilDiv_eight n
  omega

/-- Bit j of the bit array at a is Bit(a, j) (20 R66). -/
theorem getD_loadBits {m : Memory} {a n j : Nat} (hj : j < n) :
    (loadBits m a n).getD j false = bitAt m a j := by
  unfold loadBits bitAt
  have hc := ceilDiv_eight n
  have hl : j < 8 * (loadBytes m a (ceilDiv n 8)).length := by rw [length_loadBytes]; omega
  have : ((loadBytes m a (ceilDiv n 8)).flatMap byteBits |>.take n).getD j false =
      ((loadBytes m a (ceilDiv n 8)).flatMap byteBits).getD j false := by
    simp [List.getD_eq_getElem?_getD, hj]
  rw [this, getD_flatMap_byteBits hl, getD_loadBytes (by omega)]

theorem loadBits_congr {m m' : Memory} {a n : Nat}
    (h : ∀ x, a ≤ x → x < a + ceilDiv n 8 → readByte m x = readByte m' x) :
    loadBits m a n = loadBits m' a n := by
  unfold loadBits; rw [loadBytes_congr h]

theorem bitOfByte_byteOfBits (bs : List Bool) (j : Nat) (hj : j < 8) :
    bitOfByte (byteOfBits bs) j = bs.getD j false := by
  unfold byteOfBits bitOfByte
  have key : ∀ b0 b1 b2 b3 b4 b5 b6 b7 : Bool, ∀ j : Fin 8,
      (BitVec.ofNat 8 (bitsToNat [b0, b1, b2, b3, b4, b5, b6, b7])).getLsbD (7 - j) =
        [b0, b1, b2, b3, b4, b5, b6, b7].getD j false := by decide
  have := key (bs.getD 0 false) (bs.getD 1 false) (bs.getD 2 false) (bs.getD 3 false)
    (bs.getD 4 false) (bs.getD 5 false) (bs.getD 6 false) (bs.getD 7 false) ⟨j, hj⟩
  rw [show (List.range 8).map (fun j => bs.getD j false) = [bs.getD 0 false, bs.getD 1 false,
    bs.getD 2 false, bs.getD 3 false, bs.getD 4 false, bs.getD 5 false, bs.getD 6 false,
    bs.getD 7 false] from rfl, this]
  interval_cases j <;> rfl

@[simp] theorem length_packBits (bs : List Bool) : (packBits bs).length = ceilDiv bs.length 8 := by
  simp [packBits]

/-- Bit j of a written bit array; pad bits read 0 (20 R66). -/
theorem bitAt_packBits {m : Memory} {a : Nat} {bs : List Bool} {j : Nat}
    (hj : j < 8 * ceilDiv bs.length 8) :
    bitAt (writeBytes m a (packBits bs)) a j = bs.getD j false := by
  unfold bitAt
  rw [readByte_writeBytes, if_pos ⟨by omega, by rw [length_packBits]; omega⟩,
    show a + j / 8 - a = j / 8 by omega]
  have hk : j / 8 < ceilDiv bs.length 8 := by omega
  have : (packBits bs).getD (j / 8) unlistedByte = byteOfBits (bs.drop (8 * (j / 8))) := by
    simp [packBits, hk]
  rw [this, bitOfByte_byteOfBits _ _ (Nat.mod_lt _ (by omega))]
  simp [List.getD_eq_getElem?_getD, List.getElem?_drop, Nat.div_add_mod]

end Sys2Proof.Laws
end

