-- ==== Sys2Proof/Laws/BitPack.lean ====
section
/-! SUPPORT. Frames, streams and their decoding, bit by bit (41 R150 to R157), and the quantizer on
lists (42 R171). -/

namespace Sys2Proof.Laws

open Sys2Proof.Machine

/-! ### Bits of a number -/

theorem bitsToNat_append_singleton (bs : List Bool) (b : Bool) :
    bitsToNat (bs ++ [b]) = 2 * bitsToNat bs + b.toNat := by
  simp [bitsToNat]

/-- The number a bit list writes, most significant bit first. -/
theorem bitsToNat_map_range (f : Nat → Bool) (n : Nat) :
    bitsToNat ((List.range n).map f) =
      ∑ i ∈ Finset.range n, (f i).toNat * 2 ^ (n - 1 - i) := by
  induction n with
  | zero => rfl
  | succ n ih =>
    rw [List.range_succ, List.map_append, List.map_singleton, bitsToNat_append_singleton, ih,
      Finset.sum_range_succ, Finset.mul_sum]
    simp only [Nat.add_sub_cancel, Nat.sub_self, pow_zero, mul_one]
    congr 1
    apply Finset.sum_congr rfl
    intro i hi
    have := Finset.mem_range.1 hi
    rw [show n - i = n - 1 - i + 1 by omega, pow_succ]
    ring

theorem bitsToNat_lt (bs : List Bool) : bitsToNat bs < 2 ^ bs.length := by
  induction bs using List.reverseRecOn with
  | nil => simp [bitsToNat]
  | append_singleton bs b ih =>
    rw [bitsToNat_append_singleton, List.length_append, List.length_singleton, pow_succ]
    cases b <;> simp <;> omega

/-- The bits of a number below 2^n, most significant first, write it. -/
theorem bitsToNat_testBit (x n : Nat) (h : x < 2 ^ n) :
    bitsToNat ((List.range n).map fun i => x.testBit (n - 1 - i)) = x := by
  induction n generalizing x with
  | zero => simp at h; subst h; rfl
  | succ n ih =>
    rw [List.range_succ, List.map_append, List.map_singleton, bitsToNat_append_singleton]
    have e : (List.range n).map (fun i => x.testBit (n + 1 - 1 - i)) =
        (List.range n).map (fun i => (x / 2).testBit (n - 1 - i)) := by
      apply List.map_congr_left
      intro i hi
      have := List.mem_range.1 hi
      rw [← Nat.testBit_succ]
      congr 1; omega
    rw [e, ih (x / 2) (by rw [pow_succ] at h; omega)]
    simp only [Nat.add_sub_cancel, Nat.sub_self, Nat.testBit_zero]
    rcases Nat.mod_two_eq_zero_or_one x with h | h <;> simp [h] <;> omega

/-! ### Frames and streams -/

@[simp] theorem length_headerBits (len : Nat) : (headerBits len).length = 32 := by
  simp [headerBits]

/-- F = 32 + 8·L (41 R150). -/
@[simp] theorem length_frame (p : List Byte) : (frame p).length = frameBits p.length := by
  simp only [frame, List.length_append, length_headerBits, frameBits, Nat.add_left_cancel_iff]
  induction p with
  | nil => rfl
  | cons b p ih => simp only [List.flatMap_cons, List.length_append, length_byteBits, ih,
      List.length_cons]; ring

/-- A header bit (41 R150). -/
theorem getD_frame_header {p : List Byte} {i : Nat} (hi : i < 32) :
    (frame p).getD i false = p.length.testBit (31 - i) := by
  unfold frame
  rw [List.getD_append _ _ _ _ (by simpa using hi)]
  simp [headerBits, hi]

/-- A payload bit (41 R150). -/
theorem getD_frame_payload {p : List Byte} {k : Nat} (hk : k < 8 * p.length) :
    (frame p).getD (32 + k) false = bitOfByte (p.getD (k / 8) 0) (k % 8) := by
  unfold frame
  rw [List.getD_append_right _ _ _ _ (by simp)]
  simpa using getD_flatMap_byteBits hk

/-- T = F·r (41 R151). -/
@[simp] theorem length_stream (f : List Bool) (r : Nat) : (stream f r).length = f.length * r := by
  induction f with
  | nil => simp [stream]
  | cons b f ih =>
    simp only [stream, List.flatMap_cons, List.length_append, List.length_replicate,
      List.length_cons] at *
    rw [ih]; ring

/-- s[j] = f[j / r] (41 R151). -/
theorem getD_stream {f : List Bool} {r j : Nat} (hj : j < f.length * r) :
    (stream f r).getD j false = f.getD (j / r) false := by
  have hr : 0 < r := by
    rcases Nat.eq_zero_or_pos r with h | h
    · subst h; simp at hj
    · exact h
  induction f generalizing j with
  | nil => simp at hj
  | cons b f ih =>
    simp only [stream, List.flatMap_cons]
    rcases Nat.lt_or_ge j r with h | h
    · rw [List.getD_append _ _ _ _ (by simpa using h), Nat.div_eq_of_lt h]
      simp [List.getD_eq_getElem?_getD, h]
    · rw [List.getD_append_right _ _ _ _ (by simpa using h), List.length_replicate]
      have hj' : j - r < f.length * r := by
        simp only [List.length_cons, Nat.add_mul] at hj; omega
      have := ih hj'
      simp only [stream] at this
      rw [this]
      have : j / r = (j - r) / r + 1 := by
        rw [← Nat.add_div_right _ hr]; congr 1; omega
      rw [this]; simp

/-! ### Chunks -/

/-- A bit of a chunk. -/
theorem chunkOnes_le (s : List Bool) (r i : Nat) : chunkOnes s r i ≤ r := by
  unfold chunkOnes
  exact (List.length_filter_le _ _).trans (by simp)

/-- The number of 1s among the first r bits of a list. -/
theorem length_filter_take (s : List Bool) (r : Nat) :
    ((s.take r).filter id).length =
      ((Finset.range r).filter fun j => s.getD j false = true).card := by
  rw [Finset.card_filter]
  induction r generalizing s with
  | zero => simp
  | succ r ih =>
    rw [Finset.sum_range_succ']
    cases s with
    | nil => simp
    | cons b s =>
      have := ih s
      cases b <;> simpa using this

/-- k_i counts the 1s of chunk i (41 R152). -/
theorem chunkOnes_eq_card (s : List Bool) (r i : Nat) : chunkOnes s r i =
    ((Finset.range r).filter fun j => s.getD (i * r + j) false = true).card := by
  unfold chunkOnes
  rw [length_filter_take]
  simp [List.getD_eq_getElem?_getD, List.getElem?_drop]

/-- The agreement lies between r/2 and r (41 R153). -/
theorem agreement_bounds (s : List Bool) (r i : Nat) :
    r ≤ 2 * agreement s r i ∧ agreement s r i ≤ r := by
  have := chunkOnes_le s r i
  unfold agreement; omega

theorem totalAgreement_eq_sum (s : List Bool) (r len : Nat) : totalAgreement s r len =
    ∑ i ∈ Finset.range (frameBits len), agreement s r i := by
  unfold totalAgreement
  generalize frameBits len = n
  induction n with
  | zero => simp
  | succ n ih => rw [List.range_succ, Finset.sum_range_succ, ← ih]; simp

/-- A lies between r·F/2 and r·F (41 R153, R156). -/
theorem totalAgreement_bounds (s : List Bool) (r len : Nat) :
    r * frameBits len ≤ 2 * totalAgreement s r len ∧
      totalAgreement s r len ≤ r * frameBits len := by
  rw [totalAgreement_eq_sum, Finset.mul_sum]
  constructor
  · calc r * frameBits len = ∑ _i ∈ Finset.range (frameBits len), r := by simp [mul_comm]
      _ ≤ _ := Finset.sum_le_sum fun i _ => (agreement_bounds s r i).1
  · calc _ ≤ ∑ _i ∈ Finset.range (frameBits len), r :=
        Finset.sum_le_sum fun i _ => (agreement_bounds s r i).2
      _ = r * frameBits len := by simp [mul_comm]

/-! ### Decoding -/

/-- The three ways a decode fails, and what it gives otherwise (41 R154). -/
theorem decodeStream_eq_some {s : List Bool} {r fl : Nat} {d : Decoded}
    (h : decodeStream s r fl = some d) :
    32 * r ≤ s.length ∧ plausible (decodedLength s r) s.length r = true ∧
      fl * r * frameBits (decodedLength s r) ≤
        totalAgreement s r (decodedLength s r) * 65536 ∧
      d.payload = (List.range (decodedLength s r)).map (fun m => decodedByte s r m) ∧
      d.conf = totalAgreement s r (decodedLength s r) * 65536 /
        (r * frameBits (decodedLength s r)) := by
  unfold decodeStream at h
  simp only at h
  split at h
  · cases h
  · split at h
    · cases h
    · split at h
      · cases h
      · next h1 h2 h3 =>
        cases h
        exact ⟨by omega, by simpa using h2, by omega, rfl, rfl⟩

/-- A payload fits exactly when its byte count is at most the capacity (41 R157). -/
theorem fits_iff {n r len : Nat} (hr : 1 ≤ r) (hl : 1 ≤ len) :
    streamBits len r ≤ n ↔ len ≤ capBytes n r := by
  unfold streamBits frameBits capBytes capBits
  have h := Nat.le_div_iff_mul_le (x := 32 + 8 * len) (y := n) (k := r) hr
  generalize n / r = q at *
  rw [← h]
  omega

/-- A decoded payload fits the capacity of its carrier (41 R157). -/
theorem length_payload_le {s : List Bool} {r fl : Nat} {d : Decoded} (hr : 1 ≤ r)
    (h : decodeStream s r fl = some d) : d.payload.length ≤ capBytes s.length r := by
  obtain ⟨_, h2, _, h4, _⟩ := decodeStream_eq_some h
  simp only [plausible, decide_eq_true_eq] at h2
  rw [h4, List.length_map, List.length_range]
  exact (fits_iff hr h2.1).1 h2.2

/-! ### The quantizer on lists -/

@[simp] theorem length_qembedList (S : Int) (cs : List Int) (ts : List Bool) :
    (qembedList S cs ts).val.length = cs.length := by
  induction cs generalizing ts with
  | nil => cases ts <;> rfl
  | cons c cs ih => cases ts <;> simp [qembedList, ih]

/-- A coefficient with a bit is embedded, a later one stays (42 R171, 43 R203). -/
theorem getD_qembedList {S : Int} {cs : List Int} {ts : List Bool} {k : Nat}
    (hk : k < cs.length) : (qembedList S cs ts).val.getD k 0 =
      if k < ts.length then qembed (cs.getD k 0) (ts.getD k false) S else cs.getD k 0 := by
  induction cs generalizing ts k with
  | nil => simp at hk
  | cons c cs ih =>
    cases ts with
    | nil => simp [qembedList]
    | cons t ts =>
      cases k with
      | zero => simp [qembedList]
      | succ k =>
        simp only [qembedList, List.getD_cons_succ, List.length_cons, Nat.add_lt_add_iff_right]
        exact ih (by simpa using hk)

theorem clipped_qembedList {S : Int} {cs : List Int} {ts : List Bool} :
    (qembedList S cs ts).clipped = true ↔ ∃ k, k < cs.length ∧ k < ts.length ∧
      sat32 (qembedRaw (cs.getD k 0) (ts.getD k false) S) ≠
        qembedRaw (cs.getD k 0) (ts.getD k false) S := by
  induction cs generalizing ts with
  | nil => cases ts <;> simp [qembedList]
  | cons c cs ih =>
    cases ts with
    | nil => simp [qembedList]
    | cons t ts =>
      simp only [qembedList, Bool.or_eq_true, clips_eq_true_iff, ih, List.length_cons]
      constructor
      · rintro (h | ⟨k, h1, h2, h3⟩)
        · exact ⟨0, by omega, by omega, by simpa using h⟩
        · exact ⟨k + 1, by omega, by omega, by simpa using h3⟩
      · rintro ⟨k, h1, h2, h3⟩
        cases k with
        | zero => exact .inl (by simpa using h3)
        | succ k => exact .inr ⟨k, by omega, by omega, by simpa using h3⟩

end Sys2Proof.Laws
end

