-- ==== Sys2Proof/Laws/Dct.lean ====
section
/-! SUPPORT. The DCT kernels element by element: shapes, formulas, and when a sat32 clips (40 R111
to R114). -/

namespace Sys2Proof.Laws

open Sys2Proof.Machine

/-! ### Vectors -/

@[simp] theorem length_satVec (xs : List Int) : (satVec xs).val.length = xs.length := by
  simp [satVec]

theorem getD_satVec {xs : List Int} {k : Nat} (hk : k < xs.length) :
    (satVec xs).val.getD k 0 = sat32 (xs.getD k 0) := by
  simp [satVec, List.getD_eq_getElem?_getD, hk]

/-- A vector saturates when one of its elements does. -/
theorem clipped_satVec (xs : List Int) : (satVec xs).clipped = true ↔
    ∃ k, k < xs.length ∧ sat32 (xs.getD k 0) ≠ xs.getD k 0 := by
  simp only [satVec, List.any_eq_true, clips_eq_true_iff]
  constructor
  · rintro ⟨x, hx, hc⟩
    obtain ⟨k, hk, rfl⟩ := List.getElem_of_mem hx
    exact ⟨k, hk, by simpa [List.getD_eq_getElem?_getD, hk] using hc⟩
  · rintro ⟨k, hk, hc⟩
    exact ⟨xs[k], List.getElem_mem hk, by simpa [List.getD_eq_getElem?_getD, hk] using hc⟩

@[simp] theorem length_dct8Raw (x : List Int) : (dct8Raw x).length = 8 := by
  simp [dct8Raw, cosRom]

@[simp] theorem length_idct8Raw (x : List Int) : (idct8Raw x).length = 8 := by
  simp [idct8Raw, matTranspose]

@[simp] theorem length_dct8 (x : List Int) : (dct8 x).val.length = 8 := by simp [dct8]
@[simp] theorem length_idct8 (x : List Int) : (idct8 x).val.length = 8 := by simp [idct8]

theorem shaped_cosRom : Shaped 8 8 cosRom := by
  refine ⟨rfl, ?_⟩
  intro row hr
  simp only [cosRom, List.mem_cons, List.not_mem_nil, or_false] at hr
  rcases hr with rfl | rfl | rfl | rfl | rfl | rfl | rfl | rfl <;> rfl

/-- The forward sum, element by element (40 R111). -/
theorem getD_dct8Raw {x : List Int} (hx : x.length = 8) {k : Nat} (hk : k < 8) :
    (dct8Raw x).getD k 0 =
      rnd (∑ n ∈ Finset.range 8, matAt cosRom k n * x.getD n 0) 30 := by
  have hl : k < cosRom.length := hk
  have hr : (cosRom[k]).length = 8 := shaped_cosRom.2 _ (List.getElem_mem hl)
  have : (dct8Raw x).getD k 0 = rnd (dot cosRom[k] x) 30 := by
    simp [dct8Raw, List.getD_eq_getElem?_getD, hl]
  rw [this, dot_eq_sum hr hx]
  congr 1
  apply Finset.sum_congr rfl
  intro n _
  simp [matAt, hl]

/-- The inverse sum, element by element (40 R112). -/
theorem getD_idct8Raw {X : List Int} (hX : X.length = 8) {n : Nat} (hn : n < 8) :
    (idct8Raw X).getD n 0 =
      rnd (∑ k ∈ Finset.range 8, matAt cosRom k n * X.getD k 0) 30 := by
  have hs := shaped_matTranspose (w := 8) shaped_cosRom.1
  have hl : n < (matTranspose 8 cosRom).length := by rw [hs.1]; exact hn
  have hr : ((matTranspose 8 cosRom)[n]).length = 8 := hs.2 _ (List.getElem_mem hl)
  have : (idct8Raw X).getD n 0 = rnd (dot (matTranspose 8 cosRom)[n] X) 30 := by
    simp [idct8Raw, List.getD_eq_getElem?_getD, hl]
  rw [this, dot_eq_sum hr hX]
  congr 1
  apply Finset.sum_congr rfl
  intro k _
  rw [← matAt_matTranspose hn]
  simp [matAt, hl]

theorem getD_dct8 {x : List Int} (hx : x.length = 8) {k : Nat} (hk : k < 8) :
    (dct8 x).val.getD k 0 =
      sat32 (rnd (∑ n ∈ Finset.range 8, matAt cosRom k n * x.getD n 0) 30) := by
  rw [dct8, getD_satVec (by simpa using hk), getD_dct8Raw hx hk]

theorem getD_idct8 {X : List Int} (hX : X.length = 8) {n : Nat} (hn : n < 8) :
    (idct8 X).val.getD n 0 =
      sat32 (rnd (∑ k ∈ Finset.range 8, matAt cosRom k n * X.getD k 0) 30) := by
  rw [idct8, getD_satVec (by simpa using hn), getD_idct8Raw hX hn]

theorem clipped_dct8 {x : List Int} (hx : x.length = 8) : (dct8 x).clipped = true ↔
    ∃ k, k < 8 ∧ sat32 (rnd (∑ n ∈ Finset.range 8, matAt cosRom k n * x.getD n 0) 30) ≠
      rnd (∑ n ∈ Finset.range 8, matAt cosRom k n * x.getD n 0) 30 := by
  rw [dct8, clipped_satVec, length_dct8Raw]
  constructor
  · rintro ⟨k, hk, h⟩; rw [getD_dct8Raw hx hk] at h; exact ⟨k, hk, h⟩
  · rintro ⟨k, hk, h⟩; exact ⟨k, hk, by rwa [getD_dct8Raw hx hk]⟩

theorem clipped_idct8 {X : List Int} (hX : X.length = 8) : (idct8 X).clipped = true ↔
    ∃ n, n < 8 ∧ sat32 (rnd (∑ k ∈ Finset.range 8, matAt cosRom k n * X.getD k 0) 30) ≠
      rnd (∑ k ∈ Finset.range 8, matAt cosRom k n * X.getD k 0) 30 := by
  rw [idct8, clipped_satVec, length_idct8Raw]
  constructor
  · rintro ⟨k, hk, h⟩; rw [getD_idct8Raw hX hk] at h; exact ⟨k, hk, h⟩
  · rintro ⟨k, hk, h⟩; exact ⟨k, hk, by rwa [getD_idct8Raw hX hk]⟩

/-! ### A kernel on rows or columns -/

theorem shaped_onRows {kernel : List Int → Sat (List Int)} (hk : ∀ x, (kernel x).val.length = 8)
    {h : Nat} {M : Mat} (hM : M.length = h) : Shaped h 8 (onRows kernel M).val := by
  refine ⟨by simp [onRows, hM], ?_⟩
  intro row hr
  simp only [onRows, List.mem_map] at hr
  obtain ⟨_, ⟨r, _, rfl⟩, rfl⟩ := hr
  exact hk r

/-- Element (i, j) is element j of the kernel of row i. -/
theorem matAt_onRows {kernel : List Int → Sat (List Int)} {M : Mat} {i j : Nat}
    (hi : i < M.length) :
    matAt (onRows kernel M).val i j = (kernel (M.getD i [])).val.getD j 0 := by
  simp [matAt, onRows, hi]

theorem clipped_onRows {kernel : List Int → Sat (List Int)} {M : Mat} :
    (onRows kernel M).clipped = true ↔
      ∃ i, i < M.length ∧ (kernel (M.getD i [])).clipped = true := by
  simp only [onRows, List.any_map, List.any_eq_true, Function.comp]
  constructor
  · rintro ⟨r, hr, hc⟩
    obtain ⟨i, hi, rfl⟩ := List.getElem_of_mem hr
    exact ⟨i, hi, by simpa [hi] using hc⟩
  · rintro ⟨i, hi, hc⟩
    exact ⟨M[i], List.getElem_mem hi, by simpa [hi] using hc⟩

theorem getD_row {M : Mat} (i j : Nat) : (M.getD i []).getD j 0 = matAt M i j := rfl

theorem length_row {h w : Nat} {M : Mat} (hM : Shaped h w M) {i : Nat} (hi : i < h) :
    (M.getD i []).length = w := by
  have hl : i < M.length := by rw [hM.1]; exact hi
  have : M.getD i [] = M[i] := by simp [hl]
  rw [this]; exact hM.2 _ (List.getElem_mem hl)

theorem shaped_onColumns {kernel : List Int → Sat (List Int)}
    (hk : ∀ x, (kernel x).val.length = 8) (M : Mat) : Shaped 8 8 (onColumns kernel M).val := by
  have := shaped_onRows hk (h := 8) (M := matTranspose 8 M) (by simp [matTranspose])
  exact shaped_matTranspose this.1

/-- Element (i, j) is element i of the kernel of column j. -/
theorem matAt_onColumns {kernel : List Int → Sat (List Int)} {M : Mat} {i j : Nat} (hi : i < 8)
    (hj : j < 8) :
    matAt (onColumns kernel M).val i j =
      (kernel ((matTranspose 8 M).getD j [])).val.getD i 0 := by
  unfold onColumns
  rw [matAt_matTranspose hi, matAt_onRows (by simpa [matTranspose] using hj)]

theorem clipped_onColumns {kernel : List Int → Sat (List Int)} {M : Mat} :
    (onColumns kernel M).clipped = true ↔
      ∃ j, j < 8 ∧ (kernel ((matTranspose 8 M).getD j [])).clipped = true := by
  unfold onColumns
  rw [clipped_onRows]
  simp [matTranspose]

theorem getD_column {M : Mat} {i j : Nat} (hj : j < 8) :
    ((matTranspose 8 M).getD j []).getD i 0 = matAt M i j := by
  rw [getD_row, matAt_matTranspose hj]

theorem length_column {h : Nat} {M : Mat} (hM : M.length = h) {j : Nat} (hj : j < 8) :
    ((matTranspose 8 M).getD j []).length = h := length_row (shaped_matTranspose hM) hj

/-! ### Blocks -/

theorem shaped_dct2d (B : Mat) : Shaped 8 8 (dct2d B).val := shaped_onColumns length_dct8 _

theorem shaped_idct2d (X : Mat) : Shaped 8 8 (idct2d X).val :=
  shaped_onRows length_idct8 (shaped_onColumns length_idct8 X).1

/-- The row pass of dct2d (40 R113). -/
theorem matAt_dct2d_rows {B : Mat} (hB : Shaped 8 8 B) {i k : Nat} (hi : i < 8) (hk : k < 8) :
    matAt (onRows dct8 B).val i k =
      sat32 (rnd (∑ n ∈ Finset.range 8, matAt cosRom k n * matAt B i n) 30) := by
  rw [matAt_onRows (by rw [hB.1]; exact hi), getD_dct8 (length_row hB hi) hk]
  simp only [getD_row]

/-- The column pass of dct2d (40 R113). -/
theorem matAt_dct2d {B : Mat} (hB : Shaped 8 8 B) {u v : Nat} (hu : u < 8) (hv : v < 8) :
    matAt (dct2d B).val u v =
      sat32 (rnd (∑ i ∈ Finset.range 8,
        matAt cosRom u i * matAt (onRows dct8 B).val i v) 30) := by
  have hR := shaped_onRows length_dct8 hB.1
  unfold dct2d
  rw [matAt_onColumns hu hv, getD_dct8 (length_column hR.1 hv) hu]
  simp only [getD_column hv]

/-- The column pass of idct2d (40 R114). -/
theorem matAt_idct2d_columns {X : Mat} (hX : X.length = 8) {i v : Nat} (hi : i < 8) (hv : v < 8) :
    matAt (onColumns idct8 X).val i v =
      sat32 (rnd (∑ u ∈ Finset.range 8, matAt cosRom u i * matAt X u v) 30) := by
  rw [matAt_onColumns hi hv, getD_idct8 (length_column hX hv) hi]
  simp only [getD_column hv]

/-- The row pass of idct2d (40 R114). -/
theorem matAt_idct2d {X : Mat} {i j : Nat} (hi : i < 8) (hj : j < 8) :
    matAt (idct2d X).val i j =
      sat32 (rnd (∑ v ∈ Finset.range 8,
        matAt cosRom v j * matAt (onColumns idct8 X).val i v) 30) := by
  have hC := shaped_onColumns length_idct8 X
  unfold idct2d
  rw [matAt_onRows (by rw [hC.1]; exact hi), getD_idct8 (length_row hC hi) hj]
  simp only [getD_row]

theorem clipped_dct2d {B : Mat} (hB : Shaped 8 8 B) : (dct2d B).clipped = true ↔
    (∃ i k, i < 8 ∧ k < 8 ∧
      sat32 (rnd (∑ n ∈ Finset.range 8, matAt cosRom k n * matAt B i n) 30) ≠
        rnd (∑ n ∈ Finset.range 8, matAt cosRom k n * matAt B i n) 30) ∨
    ∃ u v, u < 8 ∧ v < 8 ∧
      sat32 (rnd (∑ i ∈ Finset.range 8, matAt cosRom u i * matAt (onRows dct8 B).val i v) 30) ≠
        rnd (∑ i ∈ Finset.range 8, matAt cosRom u i * matAt (onRows dct8 B).val i v) 30 := by
  have hR := shaped_onRows length_dct8 hB.1
  simp only [dct2d, Bool.or_eq_true, clipped_onRows, clipped_onColumns, hB.1]
  apply or_congr
  · constructor
    · rintro ⟨i, hi, h⟩
      obtain ⟨k, hk, h⟩ := (clipped_dct8 (length_row hB hi)).1 h
      exact ⟨i, k, hi, hk, h⟩
    · rintro ⟨i, k, hi, hk, h⟩
      exact ⟨i, hi, (clipped_dct8 (length_row hB hi)).2 ⟨k, hk, h⟩⟩
  · constructor
    · rintro ⟨v, hv, h⟩
      obtain ⟨u, hu, h⟩ := (clipped_dct8 (length_column hR.1 hv)).1 h
      simp only [getD_column hv] at h
      exact ⟨u, v, hu, hv, h⟩
    · rintro ⟨u, v, hu, hv, h⟩
      refine ⟨v, hv, (clipped_dct8 (length_column hR.1 hv)).2 ⟨u, hu, ?_⟩⟩
      simpa only [getD_column hv] using h

theorem clipped_idct2d {X : Mat} (hX : X.length = 8) : (idct2d X).clipped = true ↔
    (∃ i v, i < 8 ∧ v < 8 ∧
      sat32 (rnd (∑ u ∈ Finset.range 8, matAt cosRom u i * matAt X u v) 30) ≠
        rnd (∑ u ∈ Finset.range 8, matAt cosRom u i * matAt X u v) 30) ∨
    ∃ i j, i < 8 ∧ j < 8 ∧
      sat32 (rnd (∑ v ∈ Finset.range 8,
          matAt cosRom v j * matAt (onColumns idct8 X).val i v) 30) ≠
        rnd (∑ v ∈ Finset.range 8, matAt cosRom v j * matAt (onColumns idct8 X).val i v) 30 := by
  have hC := shaped_onColumns length_idct8 X
  simp only [idct2d, Bool.or_eq_true, clipped_onRows, clipped_onColumns, hC.1]
  apply or_congr
  · constructor
    · rintro ⟨v, hv, h⟩
      obtain ⟨i, hi, h⟩ := (clipped_idct8 (length_column hX hv)).1 h
      simp only [getD_column hv] at h
      exact ⟨i, v, hi, hv, h⟩
    · rintro ⟨i, v, hi, hv, h⟩
      refine ⟨v, hv, (clipped_idct8 (length_column hX hv)).2 ⟨i, hi, ?_⟩⟩
      simpa only [getD_column hv] using h
  · constructor
    · rintro ⟨i, hi, h⟩
      obtain ⟨j, hj, h⟩ := (clipped_idct8 (length_row hC hi)).1 h
      exact ⟨i, j, hi, hj, h⟩
    · rintro ⟨i, j, hi, hj, h⟩
      exact ⟨i, hi, (clipped_idct8 (length_row hC hi)).2 ⟨j, hj, h⟩⟩

end Sys2Proof.Laws
end

