-- ==== Sys2Proof/Laws/Dwt.lean ====
section
/-! SUPPORT. The Haar kernels element by element, the shapes of a decomposition, and the size and
round trip of the subband layout (40 R119 to R123). -/

namespace Sys2Proof.Laws

open Sys2Proof.Machine

theorem halfUp_eq (x : Nat) : halfUp x = (x + 1) / 2 := rfl

theorem halfUp_pos {x : Nat} (h : 1 ≤ x) : 1 ≤ halfUp x := by rw [halfUp_eq]; omega

theorem half_lt_halfUp {x i : Nat} (h : i < x) : i / 2 < halfUp x := by rw [halfUp_eq]; omega

theorem le_two_halfUp (x : Nat) : x ≤ 2 * halfUp x := by rw [halfUp_eq]; omega

/-! ### Saturated matrices -/

theorem shaped_satMat {h w : Nat} {M : Mat} (hM : Shaped h w M) : Shaped h w (satMat M).val :=
  shaped_map hM sat32

theorem matAt_satMat_matBuild {h w i j : Nat} (f : Nat → Nat → Int) (hi : i < h) (hj : j < w) :
    matAt (satMat (matBuild h w f)).val i j = sat32 (f i j) := by
  unfold satMat
  rw [matAt_map (shaped_matBuild h w f) sat32 hi hj, matAt_matBuild f hi hj]

theorem clipped_satMat_matBuild {h w : Nat} {f : Nat → Nat → Int} :
    (satMat (matBuild h w f)).clipped = true ↔
      ∃ i j, i < h ∧ j < w ∧ sat32 (f i j) ≠ f i j := by
  unfold satMat
  rw [any_matBuild]
  simp only [clips_eq_true_iff]

/-! ### One level -/

/-- A forward output before saturation (40 R119). -/
theorem matAt_haarBand {sb sc sd : Int} {A : Mat} {h w i j : Nat} (hi : i < halfUp h)
    (hj : j < halfUp w) : matAt (haarBand sb sc sd A h w).val i j =
      sat32 (rnd (edgeAt A h w (2 * i) (2 * j) + sb * edgeAt A h w (2 * i) (2 * j + 1)
        + sc * edgeAt A h w (2 * i + 1) (2 * j)
        + sd * edgeAt A h w (2 * i + 1) (2 * j + 1)) 1) := by
  unfold haarBand
  rw [matAt_satMat_matBuild _ hi hj]

theorem shaped_haarBand (sb sc sd : Int) (A : Mat) (h w : Nat) :
    Shaped (halfUp h) (halfUp w) (haarBand sb sc sd A h w).val :=
  shaped_satMat (shaped_matBuild _ _ _)

theorem clipped_haarBand {sb sc sd : Int} {A : Mat} {h w : Nat} :
    (haarBand sb sc sd A h w).clipped = true ↔ ∃ i j, i < halfUp h ∧ j < halfUp w ∧
      sat32 (rnd (edgeAt A h w (2 * i) (2 * j) + sb * edgeAt A h w (2 * i) (2 * j + 1)
        + sc * edgeAt A h w (2 * i + 1) (2 * j)
        + sd * edgeAt A h w (2 * i + 1) (2 * j + 1)) 1) ≠
      rnd (edgeAt A h w (2 * i) (2 * j) + sb * edgeAt A h w (2 * i) (2 * j + 1)
        + sc * edgeAt A h w (2 * i + 1) (2 * j)
        + sd * edgeAt A h w (2 * i + 1) (2 * j + 1)) 1 := by
  unfold haarBand
  rw [clipped_satMat_matBuild]

/-- An inverse output (40 R120). -/
theorem matAt_ihaar {ll : Mat} {b : Bands} {h w i j : Nat} (hi : i < h) (hj : j < w) :
    matAt (ihaar ll b h w).val i j =
      sat32 (rnd (matAt ll (i / 2) (j / 2) + haarSign j * matAt b.lh (i / 2) (j / 2)
        + haarSign i * matAt b.hl (i / 2) (j / 2)
        + haarSign i * haarSign j * matAt b.hh (i / 2) (j / 2)) 1) := by
  have hi' : i < 2 * halfUp h := by have := le_two_halfUp h; omega
  have hj' : j < 2 * halfUp w := by have := le_two_halfUp w; omega
  rw [← matAt_satMat_matBuild (fun i j =>
    rnd (matAt ll (i / 2) (j / 2) + haarSign j * matAt b.lh (i / 2) (j / 2)
        + haarSign i * matAt b.hl (i / 2) (j / 2)
        + haarSign i * haarSign j * matAt b.hh (i / 2) (j / 2)) 1) hi' hj']
  simp [ihaar, matAt, List.getD_eq_getElem?_getD, hi]
  cases (satMat (matBuild (2 * halfUp h) (2 * halfUp w) _)).val[i]? <;> simp [hj]

theorem shaped_ihaar (ll : Mat) (b : Bands) (h w : Nat) : Shaped h w (ihaar ll b h w).val := by
  have hs := shaped_satMat (shaped_matBuild (2 * halfUp h) (2 * halfUp w) fun i j =>
    rnd (matAt ll (i / 2) (j / 2) + haarSign j * matAt b.lh (i / 2) (j / 2)
        + haarSign i * matAt b.hl (i / 2) (j / 2)
        + haarSign i * haarSign j * matAt b.hh (i / 2) (j / 2)) 1)
  have h1 := le_two_halfUp h
  have h2 := le_two_halfUp w
  refine ⟨by simp only [ihaar, List.length_map, List.length_take, hs.1]; omega, ?_⟩
  intro row hr
  simp only [ihaar, List.mem_map] at hr
  obtain ⟨r, hr, rfl⟩ := hr
  rw [List.length_take, hs.2 r (List.mem_of_mem_take hr)]
  omega

/-- A sat32 of the inverse kernel clips, at a kept position or not (40 R120). -/
theorem clipped_ihaar {ll : Mat} {b : Bands} {h w : Nat} : (ihaar ll b h w).clipped = true ↔
    ∃ i j, i < 2 * halfUp h ∧ j < 2 * halfUp w ∧
      sat32 (rnd (matAt ll (i / 2) (j / 2) + haarSign j * matAt b.lh (i / 2) (j / 2)
        + haarSign i * matAt b.hl (i / 2) (j / 2)
        + haarSign i * haarSign j * matAt b.hh (i / 2) (j / 2)) 1) ≠
      rnd (matAt ll (i / 2) (j / 2) + haarSign j * matAt b.lh (i / 2) (j / 2)
        + haarSign i * matAt b.hl (i / 2) (j / 2)
        + haarSign i * haarSign j * matAt b.hh (i / 2) (j / 2)) 1 := by
  unfold ihaar
  rw [clipped_satMat_matBuild]

/-! ### Several levels -/

/-- The shapes of the detail subbands of levels 1 …, for an h × w matrix (40 R121). -/
def BandsShaped : Nat → Nat → List Bands → Prop
  | _, _, [] => True
  | h, w, b :: bs =>
    Shaped (halfUp h) (halfUp w) b.lh ∧ Shaped (halfUp h) (halfUp w) b.hl ∧
      Shaped (halfUp h) (halfUp w) b.hh ∧ BandsShaped (halfUp h) (halfUp w) bs

/-- The side of a level: x halved upward lv times (40 R121). -/
def deepSize (x : Nat) : Nat → Nat
  | 0 => x
  | lv + 1 => deepSize (halfUp x) lv

@[simp] theorem length_dwt_details (A : Mat) (h w lv : Nat) :
    (dwt A h w lv).val.details.length = lv := by
  induction lv generalizing A h w with
  | zero => rfl
  | succ lv ih => simp [dwt, ih]

theorem shaped_dwt {A : Mat} {h w : Nat} (hA : Shaped h w A) (lv : Nat) :
    BandsShaped h w (dwt A h w lv).val.details ∧
      Shaped (deepSize h lv) (deepSize w lv) (dwt A h w lv).val.ll := by
  induction lv generalizing A h w with
  | zero => exact ⟨trivial, hA⟩
  | succ lv ih =>
    have := ih (shaped_haarBand 1 1 1 A h w)
    exact ⟨⟨shaped_haarBand _ _ _ A h w, shaped_haarBand _ _ _ A h w, shaped_haarBand _ _ _ A h w,
      this.1⟩, this.2⟩

theorem shaped_idwt {ll : Mat} {bs : List Bands} {h w : Nat}
    (hl : Shaped (deepSize h bs.length) (deepSize w bs.length) ll) :
    Shaped h w (idwt ll bs h w).val := by
  cases bs with
  | nil => exact hl
  | cons b bs => exact shaped_ihaar _ _ _ _

/-! ### The layout -/

theorem length_layoutSamples {h w : Nat} {d : Decomp} (hb : BandsShaped h w d.details)
    (hl : Shaped (deepSize h d.details.length) (deepSize w d.details.length) d.ll) :
    (layoutSamples d).length = layoutWords h w d.details.length := by
  obtain ⟨bs, ll⟩ := d
  simp only [layoutSamples] at *
  induction bs generalizing h w with
  | nil => simpa [layoutWords, deepSize] using length_flatten hl
  | cons b bs ih =>
    obtain ⟨h1, h2, h3, h4⟩ := hb
    have := ih h4 hl
    simp only [List.flatMap_cons, List.length_append, length_flatten h1, length_flatten h2,
      length_flatten h3, List.length_cons, layoutWords] at this ⊢
    omega

@[simp] theorem length_loadLayout (m : Memory) (a h w lv : Nat) :
    (loadLayout m a h w lv).details.length = lv := by
  induction lv generalizing a h w with
  | zero => rfl
  | succ lv ih => simp [loadLayout, ih]

theorem shaped_loadLayout (m : Memory) (a h w lv : Nat) :
    BandsShaped h w (loadLayout m a h w lv).details ∧
      Shaped (deepSize h lv) (deepSize w lv) (loadLayout m a h w lv).ll := by
  induction lv generalizing a h w with
  | zero => exact ⟨trivial, shaped_loadMatrix _ _ _ _⟩
  | succ lv ih =>
    have := ih (a + 3 * (4 * (halfUp h * halfUp w))) (halfUp h) (halfUp w)
    exact ⟨⟨shaped_loadMatrix _ _ _ _, shaped_loadMatrix _ _ _ _, shaped_loadMatrix _ _ _ _,
      this.1⟩, this.2⟩

theorem loadLayout_congr {m m' : Memory} {a h w lv : Nat}
    (e : ∀ x, a ≤ x → x < a + 4 * layoutWords h w lv → readByte m x = readByte m' x) :
    loadLayout m a h w lv = loadLayout m' a h w lv := by
  induction lv generalizing a h w with
  | zero => simp only [loadLayout, layoutWords] at *; rw [loadMatrix_congr e]
  | succ lv ih =>
    simp only [layoutWords] at e
    simp only [loadLayout]
    rw [ih (fun x h1 h2 => e x (by omega) (by omega)),
      loadMatrix_congr (a := a) (fun x h1 h2 => e x (by omega) (by omega)),
      loadMatrix_congr (a := a + 4 * (halfUp h * halfUp w))
        (fun x h1 h2 => e x (by omega) (by omega)),
      loadMatrix_congr (a := a + 2 * (4 * (halfUp h * halfUp w)))
        (fun x h1 h2 => e x (by omega) (by omega))]

end Sys2Proof.Laws
end

