-- ==== Sys2Proof/Laws/Codec.lean ====
section
/-! SUPPORT. Channel matrices, pixel restoration, blocks and regions of a matrix, and the sum of
squared differences, element by element (40 R126 to R129, 42 R176 to R181, 43 R200 to R205). -/

namespace Sys2Proof.Laws

open Sys2Proof.Machine

/-! ### Channel 2 -/

theorem length_channelSamples {n : Nat} {px : List Byte} (h : px.length = 4 * n) :
    (channelSamples px).length = n := by
  induction n generalizing px with
  | zero => simp [List.length_eq_zero_iff.1 (by simpa using h), channelSamples]
  | succ n ih =>
    match px, h with
    | r :: g :: b :: a :: px, h =>
      simp only [List.length_cons] at h
      simp [channelSamples, ih (px := px) (by omega)]

/-- Sample k is byte 4·k + 2, times 2^16 (40 R126). -/
theorem getD_channelSamples {n k : Nat} {px : List Byte} (h : px.length = 4 * n) (hk : k < n) :
    (channelSamples px).getD k 0 = ((px.getD (4 * k + 2) 0).toNat : Int) * 65536 := by
  induction n generalizing px k with
  | zero => omega
  | succ n ih =>
    match px, h with
    | r :: g :: b :: a :: px, h =>
      simp only [List.length_cons] at h
      cases k with
      | zero => simp [channelSamples]
      | succ k =>
        simp only [channelSamples, List.getD_cons_succ, ih (px := px) (k := k) (by omega) (by omega),
          show 4 * (k + 1) + 2 = 4 * k + 2 + 1 + 1 + 1 + 1 by ring]

theorem shaped_chext {px : List Byte} {w h : Nat} (hp : px.length = 4 * (w * h)) :
    Shaped h w (chext px w h) :=
  shaped_matOfFlat (by rw [length_channelSamples hp, Nat.mul_comm])

theorem index_lt {h w i j : Nat} (hi : i < h) (hj : j < w) : i * w + j < w * h := by
  calc i * w + j < i * w + w := by omega
    _ = w * (i + 1) := by ring
    _ ≤ w * h := Nat.mul_le_mul_left _ hi

/-- M[i][j] of the channel matrix (40 R126). -/
theorem matAt_chext {px : List Byte} {w h i j : Nat} (hp : px.length = 4 * (w * h)) (hi : i < h)
    (hj : j < w) :
    matAt (chext px w h) i j = ((px.getD (4 * (i * w + j) + 2) 0).toNat : Int) * 65536 := by
  unfold chext
  rw [matAt_matOfFlat hi hj, getD_channelSamples hp (index_lt hi hj)]

@[simp] theorem length_restorePixels (px : List Byte) (xs : List Int) :
    (restorePixels px xs).length = px.length := by
  fun_induction restorePixels px xs <;> simp_all

/-- Channel 2 of a pixel comes from its sample, the other bytes stay (40 R127). -/
theorem getD_restorePixels {n k c : Nat} {px : List Byte} {xs : List Int} (h : px.length = 4 * n)
    (hx : xs.length = n) (hk : k < n) (hc : c < 4) : (restorePixels px xs).getD (4 * k + c) 0 =
      if c = 2 then clampByte (xs.getD k 0) else px.getD (4 * k + c) 0 := by
  induction n generalizing px xs k with
  | zero => omega
  | succ n ih =>
    match px, xs, h, hx with
    | r :: g :: b :: a :: px, x :: xs, h, hx =>
      simp only [List.length_cons] at h hx
      cases k with
      | zero => interval_cases c <;> simp [restorePixels]
      | succ k =>
        have := ih (px := px) (xs := xs) (k := k) (by omega) (by omega) (by omega)
        simp only [restorePixels, show 4 * (k + 1) + c = 4 * k + c + 1 + 1 + 1 + 1 by ring,
          List.getD_cons_succ, this]

@[simp] theorem length_chrst (px : List Byte) (M : Mat) : (chrst px M).length = px.length := by
  simp [chrst]

/-- The restored buffer, byte by byte (40 R127). -/
theorem getD_chrst {px : List Byte} {M : Mat} {w h i j c : Nat} (hp : px.length = 4 * (w * h))
    (hM : Shaped h w M) (hi : i < h) (hj : j < w) (hc : c < 4) :
    (chrst px M).getD (4 * (i * w + j) + c) 0 =
      if c = 2 then clampByte (matAt M i j) else px.getD (4 * (i * w + j) + c) 0 := by
  unfold chrst
  rw [getD_restorePixels hp (by rw [length_flatten hM, Nat.mul_comm]) (index_lt hi hj) hc,
    getD_flatten hM hi hj]

/-- The value of a restored byte (40 R127). -/
theorem toNat_clampByte (x : Int) : ((clampByte x).toNat : Int) = min 255 (max 0 (rnd x 16)) := by
  unfold clampByte
  rw [BitVec.toNat_ofInt]
  generalize rnd x 16 = y
  omega

/-- Restoring an extracted sample gives the byte back (40 R135). -/
theorem clampByte_sample (b : Byte) : clampByte ((b.toNat : Int) * 65536) = b := by
  apply BitVec.eq_of_toNat_eq
  have h1 := toNat_clampByte ((b.toNat : Int) * 65536)
  have h2 := b.isLt
  rw [rnd_sixteen] at h1
  omega

/-! ### Blocks and regions of a matrix -/

/-- Cell (i, j) of block b (42 R176). -/
theorem matAt_blockOf {M : Mat} {bw b i j : Nat} (hi : i < 8) (hj : j < 8) :
    matAt (blockOf M bw b) i j = matAt M (8 * (b / bw) + i) (8 * (b % bw) + j) := by
  simp only [matAt, blockOf, List.getD_eq_getElem?_getD, List.getElem?_map,
    List.getElem?_take, hi, if_true, List.getElem?_drop]
  cases M[8 * (b / bw) + i]? <;> simp [List.getElem?_drop, hj]

/-- A block inside the tiling is 8 × 8 (42 R176). -/
theorem shaped_blockOf {M : Mat} {h w b : Nat} (hM : Shaped h w M) (hb : b < (w / 8) * (h / 8)) :
    Shaped 8 8 (blockOf M (w / 8) b) := by
  have hw : 0 < w / 8 := by
    rcases Nat.eq_zero_or_pos (w / 8) with h | h
    · rw [h] at hb; simp at hb
    · exact h
  have h1 : b / (w / 8) < h / 8 := Nat.div_lt_of_lt_mul hb
  have h2 : b % (w / 8) < w / 8 := Nat.mod_lt _ hw
  constructor
  · simp only [blockOf, List.length_map, List.length_take, List.length_drop, hM.1]; omega
  · intro row hr
    simp only [blockOf, List.mem_map] at hr
    obtain ⟨r, hr, rfl⟩ := hr
    have := hM.2 r (List.mem_of_mem_drop (List.mem_of_mem_take hr))
    simp only [List.length_take, List.length_drop, this]; omega

theorem shaped_matSet {h w : Nat} {M : Mat} (hM : Shaped h w M) (u v : Nat) (x : Int) :
    Shaped h w (matSet M u v x) := by
  refine ⟨by simp [matSet, hM.1], ?_⟩
  intro row hr
  simp only [matSet] at hr
  obtain ⟨i, hi, rfl⟩ := List.getElem_of_mem hr
  rw [List.getElem_modify]
  have : ∀ (hl : i < M.length), M[i].length = w := fun hl => hM.2 _ (List.getElem_mem hl)
  split <;> simp [this]

theorem matAt_matSet {h w : Nat} {M : Mat} (hM : Shaped h w M) {u v i j : Nat} {x : Int}
    (hi : i < h) (hj : j < w) :
    matAt (matSet M u v x) i j = if i = u ∧ j = v then x else matAt M i j := by
  have hl : i < M.length := by rw [hM.1]; exact hi
  have hr : M[i].length = w := hM.2 _ (List.getElem_mem hl)
  simp only [matAt, matSet, List.getD_eq_getElem?_getD, List.getElem?_modify,
    List.getElem?_eq_getElem hl, Option.getD_some]
  by_cases h1 : u = i
  · by_cases h2 : v = j
    · subst h1 h2; simp [hr, hj]
    · simp [h1, h2, Ne.symm h2]
  · simp [h1, Ne.symm h1]

/-- A cell after blocks were put back (42 R179). -/
theorem matAt_withBlocks {M : Mat} {h w i j : Nat} {blocks : List Mat} (hi : i < h) (hj : j < w) :
    matAt (withBlocks M h w blocks) i j =
      if i < 8 * (h / 8) ∧ j < 8 * (w / 8) ∧ (i / 8) * (w / 8) + j / 8 < blocks.length then
        matAt (blocks.getD ((i / 8) * (w / 8) + j / 8) []) (i % 8) (j % 8)
      else matAt M i j := by
  unfold withBlocks
  rw [matAt_matBuild _ hi hj]

theorem shaped_withBlocks (M : Mat) (h w : Nat) (blocks : List Mat) :
    Shaped h w (withBlocks M h w blocks) := shaped_matBuild _ _ _

@[simp] theorem length_embedBlocks (S : Int) (M : Mat) (bw : Nat) (bits : List Bool) :
    (embedBlocks S M bw bits).length = bits.length := by simp [embedBlocks]

/-- Block b after embedding (42 R179). -/
theorem getElem_embedBlocks {S : Int} {M : Mat} {bw : Nat} {bits : List Bool} {b : Nat}
    (hb : b < (embedBlocks S M bw bits).length) : (embedBlocks S M bw bits)[b] =
      embedBlock S (bits.getD b false) (blockOf M bw b) := by
  have : b < bits.length := by simpa using hb
  simp [embedBlocks, this]

theorem matAt_topLeft {M : Mat} {h w i j : Nat} (hi : i < h) (hj : j < w) :
    matAt (topLeft M h w) i j = matAt M i j := by
  simp only [matAt, topLeft, List.getD_eq_getElem?_getD, List.getElem?_map, List.getElem?_take, hi,
    if_true]
  cases M[i]? <;> simp [hj]

theorem shaped_topLeft {M : Mat} {h w h' w' : Nat} (hM : Shaped h w M) (hh : h' ≤ h)
    (hw : w' ≤ w) : Shaped h' w' (topLeft M h' w') := by
  refine ⟨by simp [topLeft, hM.1, hh], ?_⟩
  intro row hr
  simp only [topLeft, List.mem_map] at hr
  obtain ⟨r, hr, rfl⟩ := hr
  rw [List.length_take, hM.2 r (List.mem_of_mem_take hr)]
  omega

theorem matAt_withTopLeft {M A : Mat} {h w h' w' i j : Nat} (hi : i < h) (hj : j < w) :
    matAt (withTopLeft M h w A h' w') i j =
      if i < h' ∧ j < w' then matAt A i j else matAt M i j := by
  unfold withTopLeft
  rw [matAt_matBuild _ hi hj]

theorem shaped_withTopLeft (M : Mat) (h w : Nat) (A : Mat) (h' w' : Nat) :
    Shaped h w (withTopLeft M h w A h' w') := shaped_matBuild _ _ _

theorem alignedSize_le (x lv : Nat) : alignedSize x lv ≤ x := Nat.div_mul_le_self x _

theorem bandSize_eq (x lv : Nat) : bandSize x lv = x / 2 ^ lv := by
  unfold bandSize alignedSize
  exact Nat.mul_div_cancel _ (by positivity)

theorem dwtCoeffs_eq (w h lv : Nat) : dwtCoeffs w h lv = (w / 2 ^ lv) * (h / 2 ^ lv) := by
  simp [dwtCoeffs, bandSize_eq]

/-- Every level of an aligned side halves exactly (43 R200). -/
theorem deepSize_alignedSize (x lv : Nat) : deepSize (alignedSize x lv) lv = x / 2 ^ lv := by
  have key : ∀ lv y, deepSize (y * 2 ^ lv) lv = y := by
    intro lv
    induction lv with
    | zero => intro y; simp [deepSize]
    | succ lv ih =>
      intro y
      have : halfUp (y * 2 ^ (lv + 1)) = y * 2 ^ lv := by rw [halfUp_eq, pow_succ, ← mul_assoc]; omega
      rw [deepSize, this, ih]
  exact key lv _

/-- HH of the deepest level is HH of the last subbands (43 R201). -/
theorem deepestHH_eq {bs : List Bands} {b : Bands} (h : bs[bs.length - 1]? = some b) :
    deepestHH bs = b.hh := by
  unfold deepestHH
  rw [List.getLast?_eq_getElem?, h]

/-- The shape of HH of the deepest level (43 R200). -/
theorem shaped_deepestHH {bs : List Bands} {h w : Nat} (hb : BandsShaped h w bs) (hn : bs ≠ []) :
    Shaped (deepSize h bs.length) (deepSize w bs.length) (deepestHH bs) := by
  induction bs generalizing h w with
  | nil => exact absurd rfl hn
  | cons b bs ih =>
    obtain ⟨_, _, h3, h4⟩ := hb
    cases bs with
    | nil => exact h3
    | cons b' bs => exact ih h4 (by simp)

@[simp] theorem length_replaceDeepestHH (hh : Mat) (bs : List Bands) :
    (replaceDeepestHH hh bs).length = bs.length := by
  fun_induction replaceDeepestHH hh bs <;> simp_all

/-- The deepest level gets the new HH, every other band stays (43 R203). -/
theorem getElem?_replaceDeepestHH (hh : Mat) (bs : List Bands) (l : Nat) :
    (replaceDeepestHH hh bs)[l]? =
      if l + 1 = bs.length then bs[l]?.map (fun b => { b with hh := hh }) else bs[l]? := by
  fun_induction replaceDeepestHH hh bs generalizing l with
  | case1 => simp
  | case2 b => cases l <;> simp
  | case3 b bs hne ih =>
    have : bs ≠ [] := fun h => hne h
    have hl : 0 < bs.length := List.length_pos_iff.2 this
    cases l with
    | zero => simp [this]
    | succ l => simp [ih]

/-! ### PSNR -/

/-- D as a double sum (40 R129). -/
theorem squaredError_eq_sum {A B : Mat} {h w : Nat} (hA : Shaped h w A) (hB : Shaped h w B) :
    squaredError A B = ∑ i ∈ Finset.range h, ∑ j ∈ Finset.range w,
      ((matAt A i j - matAt B i j) ^ 2).toNat := by
  have row : ∀ (w : Nat) (a b : List Int), a.length = w → b.length = w →
      (List.zipWith (fun x y => ((x - y) * (x - y)).toNat) a b).sum =
        ∑ j ∈ Finset.range w, ((a.getD j 0 - b.getD j 0) ^ 2).toNat := by
    intro w
    induction w with
    | zero => intro a b ha hb; simp [List.length_eq_zero_iff.1 ha]
    | succ w ih =>
      intro a b ha hb
      match a, b, ha, hb with
      | x :: a, y :: b, ha, hb =>
        rw [Finset.sum_range_succ', List.zipWith_cons_cons, List.sum_cons,
          ih a b (by simpa using ha) (by simpa using hb)]
        simp [sq, add_comm]
  induction h generalizing A B with
  | zero => simp [squaredError, List.length_eq_zero_iff.1 hA.1]
  | succ h ih =>
    match A, B, hA, hB with
    | a :: A, b :: B, hA, hB =>
      have ha : a.length = w := hA.2 a (by simp)
      have hb : b.length = w := hB.2 b (by simp)
      have := ih (A := A) (B := B) ⟨by simpa using hA.1, fun r hr => hA.2 r (by simp [hr])⟩
        ⟨by simpa using hB.1, fun r hr => hB.2 r (by simp [hr])⟩
      rw [Finset.sum_range_succ']
      simp only [squaredError, List.flatten_cons] at this ⊢
      rw [List.zipWith_append (by rw [ha, hb]), List.sum_append, row w a b ha hb, this]
      exact add_comm _ _

end Sys2Proof.Laws
end

