-- ==== Sys2Proof/Laws/State.lean ====
section
/-! SUPPORT. One lemma per field per update of the state, each true by rfl, so that no proof
unfolds a record update. Generated once from the list of updates. -/

namespace Sys2Proof.Laws

open Sys2Proof.Machine

variable (s : State)

/-! ### noteSat -/
@[simp] theorem noteSat_ctrl (c : Bool) : (noteSat c s).ctrl = s.ctrl := rfl
@[simp] theorem noteSat_status (c : Bool) :
    (noteSat c s).status = { s.status with sat := s.status.sat || c } := rfl
@[simp] theorem noteSat_lastCmd (c : Bool) : (noteSat c s).lastCmd = s.lastCmd := rfl
@[simp] theorem noteSat_params (c : Bool) : (noteSat c s).params = s.params := rfl
@[simp] theorem noteSat_results (c : Bool) : (noteSat c s).results = s.results := rfl
@[simp] theorem noteSat_snap (c : Bool) : (noteSat c s).snap = s.snap := rfl
@[simp] theorem noteSat_mem (c : Bool) : (noteSat c s).mem = s.mem := rfl
@[simp] theorem noteSat_platform (c : Bool) : (noteSat c s).platform = s.platform := rfl
@[simp] theorem noteSat_host (c : Bool) : (noteSat c s).host = s.host := rfl
@[simp] theorem noteSat_rdata (c : Bool) : (noteSat c s).rdata = s.rdata := rfl
@[simp] theorem noteSat_draws (c : Bool) : (noteSat c s).draws = s.draws := rfl

/-! ### putBytes -/
@[simp] theorem putBytes_ctrl (a : Nat) (bs : List Byte) : (putBytes a bs s).ctrl = s.ctrl := rfl
@[simp] theorem putBytes_status (a : Nat) (bs : List Byte) :
    (putBytes a bs s).status = s.status := rfl
@[simp] theorem putBytes_lastCmd (a : Nat) (bs : List Byte) :
    (putBytes a bs s).lastCmd = s.lastCmd := rfl
@[simp] theorem putBytes_params (a : Nat) (bs : List Byte) :
    (putBytes a bs s).params = s.params := rfl
@[simp] theorem putBytes_results (a : Nat) (bs : List Byte) :
    (putBytes a bs s).results = s.results := rfl
@[simp] theorem putBytes_snap (a : Nat) (bs : List Byte) : (putBytes a bs s).snap = s.snap := rfl
@[simp] theorem putBytes_mem (a : Nat) (bs : List Byte) :
    (putBytes a bs s).mem = writeBytes s.mem a bs := rfl
@[simp] theorem putBytes_platform (a : Nat) (bs : List Byte) :
    (putBytes a bs s).platform = s.platform := rfl
@[simp] theorem putBytes_host (a : Nat) (bs : List Byte) : (putBytes a bs s).host = s.host := rfl
@[simp] theorem putBytes_rdata (a : Nat) (bs : List Byte) : (putBytes a bs s).rdata = s.rdata := rfl
@[simp] theorem putBytes_draws (a : Nat) (bs : List Byte) : (putBytes a bs s).draws = s.draws := rfl

/-! ### putSamples -/
@[simp] theorem putSamples_ctrl (a : Nat) (xs : List Int) : (putSamples a xs s).ctrl = s.ctrl := rfl
@[simp] theorem putSamples_status (a : Nat) (xs : List Int) :
    (putSamples a xs s).status = s.status := rfl
@[simp] theorem putSamples_lastCmd (a : Nat) (xs : List Int) :
    (putSamples a xs s).lastCmd = s.lastCmd := rfl
@[simp] theorem putSamples_params (a : Nat) (xs : List Int) :
    (putSamples a xs s).params = s.params := rfl
@[simp] theorem putSamples_results (a : Nat) (xs : List Int) :
    (putSamples a xs s).results = s.results := rfl
@[simp] theorem putSamples_snap (a : Nat) (xs : List Int) : (putSamples a xs s).snap = s.snap := rfl
@[simp] theorem putSamples_mem (a : Nat) (xs : List Int) :
    (putSamples a xs s).mem = writeBytes s.mem a (sampleBytes xs) := rfl
@[simp] theorem putSamples_platform (a : Nat) (xs : List Int) :
    (putSamples a xs s).platform = s.platform := rfl
@[simp] theorem putSamples_host (a : Nat) (xs : List Int) : (putSamples a xs s).host = s.host := rfl
@[simp] theorem putSamples_rdata (a : Nat) (xs : List Int) :
    (putSamples a xs s).rdata = s.rdata := rfl
@[simp] theorem putSamples_draws (a : Nat) (xs : List Int) :
    (putSamples a xs s).draws = s.draws := rfl

/-! ### drawRegion -/
@[simp] theorem drawRegion_ctrl (r : Region) : (drawRegion r s).ctrl = s.ctrl := rfl
@[simp] theorem drawRegion_status (r : Region) : (drawRegion r s).status = s.status := rfl
@[simp] theorem drawRegion_lastCmd (r : Region) : (drawRegion r s).lastCmd = s.lastCmd := rfl
@[simp] theorem drawRegion_params (r : Region) : (drawRegion r s).params = s.params := rfl
@[simp] theorem drawRegion_results (r : Region) : (drawRegion r s).results = s.results := rfl
@[simp] theorem drawRegion_snap (r : Region) : (drawRegion r s).snap = s.snap := rfl
@[simp] theorem drawRegion_mem (r : Region) :
    (drawRegion r s).mem = writeBytes s.mem r.base (freeBytes s.draws (min r.size (2 ^ 32 - r.base))) := rfl
@[simp] theorem drawRegion_platform (r : Region) : (drawRegion r s).platform = s.platform := rfl
@[simp] theorem drawRegion_host (r : Region) : (drawRegion r s).host = s.host := rfl
@[simp] theorem drawRegion_rdata (r : Region) : (drawRegion r s).rdata = s.rdata := rfl
@[simp] theorem drawRegion_draws (r : Region) :
    (drawRegion r s).draws = s.draws + min r.size (2 ^ 32 - r.base) := rfl

/-! ### drawScratch -/
@[simp] theorem drawScratch_ctrl : (drawScratch s).ctrl = s.ctrl := rfl
@[simp] theorem drawScratch_status : (drawScratch s).status = s.status := rfl
@[simp] theorem drawScratch_lastCmd : (drawScratch s).lastCmd = s.lastCmd := rfl
@[simp] theorem drawScratch_params : (drawScratch s).params = s.params := rfl
@[simp] theorem drawScratch_results : (drawScratch s).results = s.results := rfl
@[simp] theorem drawScratch_snap : (drawScratch s).snap = s.snap := rfl

theorem drawScratch_mem : (drawScratch s).mem =
    (drawRegion (writeSamplesAt s.snap.scrAddr s.snap.scratchBytes) s).mem := rfl
@[simp] theorem drawScratch_platform : (drawScratch s).platform = s.platform := rfl
@[simp] theorem drawScratch_host : (drawScratch s).host = s.host := rfl
@[simp] theorem drawScratch_rdata : (drawScratch s).rdata = s.rdata := rfl

theorem drawScratch_draws : (drawScratch s).draws =
    (drawRegion (writeSamplesAt s.snap.scrAddr s.snap.scratchBytes) s).draws := rfl

/-! ### accept -/
@[simp] theorem accept_ctrl (c : Word) : (accept c s).ctrl = s.ctrl := rfl
@[simp] theorem accept_status (c : Word) : (accept c s).status = s.status.accepted := rfl
@[simp] theorem accept_lastCmd (c : Word) : (accept c s).lastCmd = c := rfl
@[simp] theorem accept_params (c : Word) : (accept c s).params = s.params := rfl
@[simp] theorem accept_results (c : Word) : (accept c s).results = Results.zero := rfl
@[simp] theorem accept_snap (c : Word) : (accept c s).snap = latch c s.params := rfl
@[simp] theorem accept_mem (c : Word) : (accept c s).mem = s.mem := rfl
@[simp] theorem accept_platform (c : Word) : (accept c s).platform = s.platform := rfl
@[simp] theorem accept_host (c : Word) : (accept c s).host = s.host := rfl
@[simp] theorem accept_rdata (c : Word) : (accept c s).rdata = s.rdata := rfl
@[simp] theorem accept_draws (c : Word) : (accept c s).draws = s.draws := rfl

/-! ### finish -/
@[simp] theorem finish_ctrl : (finish s).ctrl = s.ctrl := rfl
@[simp] theorem finish_status : (finish s).status = s.status.succeeded := rfl
@[simp] theorem finish_lastCmd : (finish s).lastCmd = s.lastCmd := rfl
@[simp] theorem finish_params : (finish s).params = s.params := rfl
@[simp] theorem finish_results : (finish s).results = s.results := rfl
@[simp] theorem finish_snap : (finish s).snap = s.snap := rfl
@[simp] theorem finish_mem : (finish s).mem = s.mem := rfl
@[simp] theorem finish_platform : (finish s).platform = s.platform := rfl
@[simp] theorem finish_host : (finish s).host = s.host := rfl
@[simp] theorem finish_rdata : (finish s).rdata = s.rdata := rfl
@[simp] theorem finish_draws : (finish s).draws = s.draws := rfl

/-! ### errorCompletion -/
@[simp] theorem errorCompletion_ctrl (e : ErrCode) : (errorCompletion e s).ctrl = s.ctrl := rfl
@[simp] theorem errorCompletion_status (e : ErrCode) :
    (errorCompletion e s).status = s.status.failed e := rfl
@[simp] theorem errorCompletion_lastCmd (e : ErrCode) :
    (errorCompletion e s).lastCmd = s.lastCmd := rfl
@[simp] theorem errorCompletion_params (e : ErrCode) :
    (errorCompletion e s).params = s.params := rfl
@[simp] theorem errorCompletion_results (e : ErrCode) :
    (errorCompletion e s).results = s.results := rfl
@[simp] theorem errorCompletion_snap (e : ErrCode) : (errorCompletion e s).snap = s.snap := rfl
@[simp] theorem errorCompletion_mem (e : ErrCode) : (errorCompletion e s).mem = s.mem := rfl
@[simp] theorem errorCompletion_platform (e : ErrCode) :
    (errorCompletion e s).platform = s.platform := rfl
@[simp] theorem errorCompletion_host (e : ErrCode) : (errorCompletion e s).host = s.host := rfl
@[simp] theorem errorCompletion_rdata (e : ErrCode) : (errorCompletion e s).rdata = s.rdata := rfl
@[simp] theorem errorCompletion_draws (e : ErrCode) : (errorCompletion e s).draws = s.draws := rfl

/-! ### reportCapacity -/
@[simp] theorem reportCapacity_ctrl (n r : Nat) :
    (reportCapacity n r s).ctrl = s.ctrl := by cases s; rfl
@[simp] theorem reportCapacity_status (n r : Nat) :
    (reportCapacity n r s).status = s.status := by cases s; rfl
@[simp] theorem reportCapacity_lastCmd (n r : Nat) :
    (reportCapacity n r s).lastCmd = s.lastCmd := by cases s; rfl
@[simp] theorem reportCapacity_params (n r : Nat) :
    (reportCapacity n r s).params = s.params := by cases s; rfl
@[simp] theorem reportCapacity_results (n r : Nat) : (reportCapacity n r s).results =
      { s.results with capBits := BitVec.ofNat 32 (capBits n r)
                       capBytes := BitVec.ofNat 32 (capBytes n r) } := by cases s; rfl
@[simp] theorem reportCapacity_snap (n r : Nat) :
    (reportCapacity n r s).snap = s.snap := by cases s; rfl
@[simp] theorem reportCapacity_mem (n r : Nat) :
    (reportCapacity n r s).mem = s.mem := by cases s; rfl
@[simp] theorem reportCapacity_platform (n r : Nat) :
    (reportCapacity n r s).platform = s.platform := by cases s; rfl
@[simp] theorem reportCapacity_host (n r : Nat) :
    (reportCapacity n r s).host = s.host := by cases s; rfl
@[simp] theorem reportCapacity_rdata (n r : Nat) :
    (reportCapacity n r s).rdata = s.rdata := by cases s; rfl
@[simp] theorem reportCapacity_draws (n r : Nat) :
    (reportCapacity n r s).draws = s.draws := by cases s; rfl

/-! ### reportUnits -/
@[simp] theorem reportUnits_ctrl (n : Nat) : (reportUnits n s).ctrl = s.ctrl := by cases s; rfl
@[simp] theorem reportUnits_status (n : Nat) :
    (reportUnits n s).status = s.status := by cases s; rfl
@[simp] theorem reportUnits_lastCmd (n : Nat) :
    (reportUnits n s).lastCmd = s.lastCmd := by cases s; rfl
@[simp] theorem reportUnits_params (n : Nat) :
    (reportUnits n s).params = s.params := by cases s; rfl
@[simp] theorem reportUnits_results (n : Nat) :
    (reportUnits n s).results = { s.results with units := BitVec.ofNat 32 n } := by cases s; rfl
@[simp] theorem reportUnits_snap (n : Nat) : (reportUnits n s).snap = s.snap := by cases s; rfl
@[simp] theorem reportUnits_mem (n : Nat) : (reportUnits n s).mem = s.mem := by cases s; rfl
@[simp] theorem reportUnits_platform (n : Nat) :
    (reportUnits n s).platform = s.platform := by cases s; rfl
@[simp] theorem reportUnits_host (n : Nat) : (reportUnits n s).host = s.host := by cases s; rfl
@[simp] theorem reportUnits_rdata (n : Nat) : (reportUnits n s).rdata = s.rdata := by cases s; rfl
@[simp] theorem reportUnits_draws (n : Nat) : (reportUnits n s).draws = s.draws := by cases s; rfl

/-! ### reportEmbedded -/
@[simp] theorem reportEmbedded_ctrl (n r : Nat) :
    (reportEmbedded n r s).ctrl = s.ctrl := by cases s; rfl
@[simp] theorem reportEmbedded_status (n r : Nat) :
    (reportEmbedded n r s).status = s.status := by cases s; rfl
@[simp] theorem reportEmbedded_lastCmd (n r : Nat) :
    (reportEmbedded n r s).lastCmd = s.lastCmd := by cases s; rfl
@[simp] theorem reportEmbedded_params (n r : Nat) :
    (reportEmbedded n r s).params = s.params := by cases s; rfl
@[simp] theorem reportEmbedded_results (n r : Nat) : (reportEmbedded n r s).results =
      { s.results with used := BitVec.ofNat 32 (streamBits n r)
                       bits := BitVec.ofNat 32 (frameBits n) } := by cases s; rfl
@[simp] theorem reportEmbedded_snap (n r : Nat) :
    (reportEmbedded n r s).snap = s.snap := by cases s; rfl
@[simp] theorem reportEmbedded_mem (n r : Nat) :
    (reportEmbedded n r s).mem = s.mem := by cases s; rfl
@[simp] theorem reportEmbedded_platform (n r : Nat) :
    (reportEmbedded n r s).platform = s.platform := by cases s; rfl
@[simp] theorem reportEmbedded_host (n r : Nat) :
    (reportEmbedded n r s).host = s.host := by cases s; rfl
@[simp] theorem reportEmbedded_rdata (n r : Nat) :
    (reportEmbedded n r s).rdata = s.rdata := by cases s; rfl
@[simp] theorem reportEmbedded_draws (n r : Nat) :
    (reportEmbedded n r s).draws = s.draws := by cases s; rfl

end Sys2Proof.Laws
end

