-- ==== Sys2Proof/Laws/Completion.lean ====
section
/-! SUPPORT. What a completion can do, said once (60 R240 to R245), and what the free draws of the
write regions leave alone. -/

namespace Sys2Proof.Laws

open Sys2Proof.Machine

/-! ### Regions and the platform -/

theorem contains_iff (r : Region) (a : Nat) :
    r.contains a = true ↔ r.base ≤ a ∧ a < r.base + r.size := by simp [Region.contains]

theorem meets_iff (r : Region) (u : Span) :
    r.meets u = true ↔ ∃ a, r.contains a = true ∧ u.contains a = true := by
  simp only [Region.meets, Region.contains, Span.contains, decide_eq_true_eq]
  constructor
  · rintro ⟨h1, h2, h3, h4⟩
    exact ⟨max r.base u.base, by omega, by omega⟩
  · rintro ⟨a, h1, h2⟩; omega

/-- allBusOK is busOK at every byte of every region (60 R244). -/
theorem allBusOK_iff (f : Platform) (rs : List Region) :
    allBusOK f rs = true ↔ ∀ r ∈ rs, ∀ a, r.contains a = true → busOK f a = true := by
  simp only [allBusOK, busOK, List.all_eq_true, Bool.not_eq_true', List.any_eq_false]
  constructor
  · intro h r hr a ha u hu hc
    exact h r hr u hu ((meets_iff r u).2 ⟨a, ha, hc⟩)
  · intro h r hr u hu hm
    obtain ⟨a, ha, hc⟩ := (meets_iff r u).1 hm
    exact h r hr a ha u hu hc

theorem touchesDevice_eq_false_iff (f : Platform) (rs : List Region) :
    touchesDevice f rs = false ↔
      ∀ r ∈ rs, ∀ a, r.contains a = true → ∀ u ∈ f.device, u.contains a = false := by
  simp only [touchesDevice, List.any_eq_false, Bool.not_eq_true]
  constructor
  · intro h r hr a ha u hu
    by_contra hc
    have := (meets_iff r u).2 ⟨a, ha, by simpa using hc⟩
    simp [h r hr u hu] at this
  · intro h r hr u hu
    by_contra hm
    obtain ⟨a, ha, hc⟩ := (meets_iff r u).1 (by simpa using hm)
    simp [h r hr a ha u hu] at hc

/-! ### The checks -/

/-- No check error means that every condition of 60 R245 fails. -/
theorem firstError_eq_none_iff (i : Instr) (p : Snapshot) : firstError i p = none ↔
    badOption i p = false ∧ badDim i p = false ∧ badLength i p = false ∧
      overCapacity i p = false ∧ badAlign i p = false ∧ badRange i p = false ∧
      badOverlap i p = false := by
  unfold firstError
  repeat' split
  all_goals simp_all

/-- Every region of a command that passes the checks lies below 2^32 (20 R69). -/
theorem region_le_of_runs {i : Instr} {s : State} (h : firstError i s.snap = none)
    {r : Region} (hr : r ∈ regions i s.snap) : r.size = 0 ∨ r.base + r.size ≤ 2 ^ 32 := by
  have hb := ((firstError_eq_none_iff i s.snap).1 h).2.2.2.2.2.1
  simp only [badRange, List.any_eq_false] at hb
  have := hb r hr
  simp only [Region.outOfRange, Region.nonEmpty, Bool.and_eq_true, decide_eq_true_eq, not_and] at this
  omega

/-- The bases of regions are addresses. -/
theorem region_base_lt {i : Instr} {p : Snapshot} {r : Region} (hr : r ∈ regions i p) :
    r.base < 2 ^ 32 := by
  have h1 : p.srcAddr < 2 ^ 32 := p.src.isLt
  have h2 : p.auxAddr < 2 ^ 32 := p.aux.isLt
  have h3 : p.dstAddr < 2 ^ 32 := p.dst.isLt
  have h4 : p.scrAddr < 2 ^ 32 := p.scr.isLt
  cases i <;>
    simp only [regions, List.mem_cons, List.not_mem_nil, or_false, readBytesAt, readSamplesAt,
      writeBytesAt, writeSamplesAt] at hr <;>
    first
      | exact absurd hr id
      | (rcases hr with rfl | rfl | rfl | rfl <;> assumption)

/-- Two regions overlap exactly when they share a byte (20 R70). -/
theorem overlaps_iff (r q : Region) : r.overlaps q = true ↔
    ∃ a, r.contains a = true ∧ q.contains a = true := by
  simp only [Region.overlaps, Region.nonEmpty, Region.contains, Bool.and_eq_true,
    decide_eq_true_eq]
  constructor
  · rintro ⟨⟨h1, h2⟩, h3, h4⟩
    exact ⟨max r.base q.base, by omega, by omega⟩
  · rintro ⟨a, h1, h2⟩; omega

/-- No overlap means that a write region shares no byte with another region (20 R70). -/
theorem anyOverlap_eq_false_iff (rs : List Region) : anyOverlap rs = false ↔
    rs.Pairwise fun r q => r.access = .write ∨ q.access = .write →
      ∀ a, r.contains a = true → q.contains a = false := by
  induction rs with
  | nil => simp [anyOverlap]
  | cons r rs ih =>
    simp only [anyOverlap, Bool.or_eq_false_iff, List.pairwise_cons, ih, List.any_eq_false,
      Bool.and_eq_true, Bool.or_eq_true, overlaps_iff, Region.isWrite, decide_eq_true_eq]
    refine and_congr_left fun _ => ⟨fun h q hq hw a h1 => ?_, fun h q hq hc => ?_⟩
    · by_contra h2
      exact h q hq ⟨hw, a, h1, by simpa using h2⟩
    · obtain ⟨hw, a, h1, h2⟩ := hc
      simp [h q hq hw a h1] at h2

/-- The regions of a command that runs do not overlap (60 R245). -/
theorem runs_disjoint {i : Instr} {s : State} (h : Runs i s) :
    (regions i s.snap).Pairwise fun r q => r.access = .write ∨ q.access = .write →
      ∀ a, r.contains a = true → q.contains a = false :=
  (anyOverlap_eq_false_iff _).1 ((firstError_eq_none_iff i s.snap).1 h.1).2.2.2.2.2.2

/-! ### What a command that runs may assume of its operands -/

/-- W and H are at least 1 (60 R245). -/
theorem runs_dims {i : Instr} {s : State} (h : Runs i s) (hd : readsDims i = true) :
    1 ≤ s.snap.w.toNat ∧ 1 ≤ s.snap.h.toNat := by
  have h := ((firstError_eq_none_iff i s.snap).1 h.1).2.1
  simp only [badDim, hd, Bool.true_and, decide_eq_false_iff_not, not_or] at h
  exact ⟨Nat.one_le_iff_ne_zero.2 h.1, Nat.one_le_iff_ne_zero.2 h.2⟩

/-- LV is in 1 … 7 (60 R245). -/
theorem runs_levels {i : Instr} {s : State} (h : Runs i s) (hd : readsLevels i = true) :
    1 ≤ s.snap.lv.toNat ∧ s.snap.lv.toNat ≤ 7 := by
  have h := ((firstError_eq_none_iff i s.snap).1 h.1).1
  simp only [badOption, hd, Bool.or_eq_false_iff, Bool.true_and, Bool.not_eq_false', levelsOk] at h
  have h : 1 ≤ s.snap.levels ∧ s.snap.levels ≤ 7 := by simpa using h.2
  exact h

/-- R is at least 1 (60 R245). -/
theorem runs_redundancy {i : Instr} {s : State} (h : Runs i s) (hd : readsRedundancy i = true) :
    1 ≤ s.snap.r.toNat := by
  have h := ((firstError_eq_none_iff i s.snap).1 h.1).1
  simp only [badOption, hd, Bool.or_eq_false_iff, Bool.true_and, decide_eq_false_iff_not] at h
  exact Nat.one_le_iff_ne_zero.2 h.1.2

/-- S is in 1 … 0x7FFFFFFF (60 R245). -/
theorem runs_strength {i : Instr} {s : State} (h : Runs i s) (hd : readsStrength i = true) :
    1 ≤ s.snap.s.toNat ∧ s.snap.s.toNat ≤ 0x7FFFFFFF := by
  have h := ((firstError_eq_none_iff i s.snap).1 h.1).1
  simp only [badOption, hd, Bool.or_eq_false_iff, Bool.true_and, Bool.not_eq_false',
    strengthOk] at h
  have h : 1 ≤ s.snap.strength ∧ s.snap.strength ≤ 0x7FFFFFFF := by simpa using h.1.1
  exact h

/-- LEN is at least 1 (60 R245). -/
theorem runs_length {i : Instr} {s : State} (h : Runs i s) (hd : readsLength i = true) :
    1 ≤ s.snap.len.toNat := by
  have h := ((firstError_eq_none_iff i s.snap).1 h.1).2.2.1
  simp only [badLength, hd, Bool.true_and, decide_eq_false_iff_not] at h
  exact Nat.one_le_iff_ne_zero.2 h

/-- The stream fits its carrier (60 R245). -/
theorem runs_capacity {i : Instr} {s : State} {n : Nat} (h : Runs i s)
    (hc : carrier i s.snap = some n) : streamBits s.snap.len.toNat s.snap.r.toNat ≤ n := by
  have h := ((firstError_eq_none_iff i s.snap).1 h.1).2.2.2.1
  simp only [overCapacity, hc, decide_eq_false_iff_not, Nat.not_lt] at h
  exact h

/-! ### Free draws -/

@[simp] theorem length_freeBytes (d n : Nat) : (freeBytes d n).length = n := by simp [freeBytes]

/-- A draw changes no byte outside its region. -/
theorem readByte_drawRegion {r : Region} {s : State} {a : Nat} (h : r.contains a = false) :
    readByte (drawRegion r s).mem a = readByte s.mem a := by
  have h : ¬(r.base ≤ a ∧ a < r.base + r.size) := by simpa [Region.contains] using h
  rw [drawRegion_mem, readByte_writeBytes_outside]
  rw [length_freeBytes]
  have := Nat.min_le_left r.size (2 ^ 32 - r.base)
  omega

/-- A draw changes only the memory and the counter of draws. -/
theorem drawRegion_eq (r : Region) (s : State) : drawRegion r s =
    { s with mem := (drawRegion r s).mem, draws := (drawRegion r s).draws } := rfl

theorem drawRegions_eq (rs : List Region) (s : State) : drawRegions rs s =
    { s with mem := (drawRegions rs s).mem, draws := (drawRegions rs s).draws } := by
  induction rs generalizing s with
  | nil => rfl
  | cons r rs ih =>
    simp only [drawRegions]
    conv_lhs => rw [ih]
    simp

/-- Draws change no byte outside their regions. -/
theorem readByte_drawRegions {rs : List Region} {s : State} {a : Nat}
    (h : ∀ r ∈ rs, r.contains a = false) :
    readByte (drawRegions rs s).mem a = readByte s.mem a := by
  induction rs generalizing s with
  | nil => rfl
  | cons r rs ih =>
    simp only [drawRegions]
    rw [ih fun q hq => h q (by simp [hq]), readByte_drawRegion (h r (by simp))]

theorem wf_drawRegion {r : Region} {s : State} (h : Memory.wf s.mem = true)
    (hb : r.base < 2 ^ 32) : Memory.wf (drawRegion r s).mem = true := by
  rw [drawRegion_mem]
  apply wf_writeBytes h
  right
  rw [length_freeBytes]
  have := Nat.min_le_right r.size (2 ^ 32 - r.base)
  omega

theorem wf_drawRegions {rs : List Region} {s : State} (h : Memory.wf s.mem = true)
    (hb : ∀ r ∈ rs, r.base < 2 ^ 32) : Memory.wf (drawRegions rs s).mem = true := by
  induction rs generalizing s with
  | nil => exact h
  | cons r rs ih =>
    exact ih (wf_drawRegion h (hb r (by simp))) fun q hq => hb q (by simp [hq])

/-! ### Completion -/

theorem complete_of_runs {i : Instr} {s : State} (h : Runs i s) (op : State → State) :
    complete i op s = .next (finish (op s)) := by
  obtain ⟨h1, h2, h3⟩ := h
  simp [complete, h1, h2, h3]

theorem complete_of_error {i : Instr} {s : State} {e : ErrCode} (h : firstError i s.snap = some e)
    (op : State → State) : complete i op s = .next (errorCompletion e s) := by
  simp [complete, h]

theorem complete_of_busError {i : Instr} {s : State} (h : firstError i s.snap = none)
    (hd : touchesDevice s.platform (regions i s.snap) = false)
    (hb : allBusOK s.platform (regions i s.snap) = false) (op : State → State) :
    complete i op s = .next (busErrorCompletion i s) := by
  simp [complete, h, hd, hb]

theorem complete_of_device {i : Instr} {s : State} (h : firstError i s.snap = none)
    (hd : touchesDevice s.platform (regions i s.snap) = true) (op : State → State) :
    complete i op s = .refused .deviceRegion := by
  simp [complete, h, hd]

/-- The three ways a completion ends (60 R241). -/
theorem complete_cases {i : Instr} {op : State → State} {s t : State}
    (h : complete i op s = .next t) :
    (∃ e, firstError i s.snap = some e ∧ t = errorCompletion e s) ∨
      (firstError i s.snap = none ∧ allBusOK s.platform (regions i s.snap) = false ∧
        t = busErrorCompletion i s) ∨
      (Runs i s ∧ t = finish (op s)) := by
  unfold complete at h
  split at h
  · next e he => cases h; exact .inl ⟨e, he, rfl⟩
  · next hn =>
    split at h
    · cases h
    · next hd =>
      split at h
      · next hb => cases h; exact .inr (.inr ⟨⟨hn, by simpa using hd, hb⟩, rfl⟩)
      · next hb => cases h; exact .inr (.inl ⟨hn, by simpa using hb, rfl⟩)

/-- The operation each command's rule describes. -/
def operationOf : Instr → State → State
  | .nop => fun s => s
  | .dct1d => vectorOperation dct8
  | .idct1d => vectorOperation idct8
  | .dct2d => blockOperation dct2d
  | .idct2d => blockOperation idct2d
  | .dwt2d => dwtOperation
  | .idwt2d => idwtOperation
  | .chext => chextOperation
  | .chrst => chrstOperation
  | .psnr => psnrOperation
  | .qembed => qembedOperation
  | .qextract => qextractOperation
  | .pack => packOperation
  | .unpack => unpackOperation
  | .dctcap => dctcapOperation
  | .dctemb => dctembOperation
  | .dctext => dctextOperation
  | .dwtcap => dwtcapOperation
  | .dwtemb => dwtembOperation
  | .dwtext => dwtextOperation

/-- Every meaning is the completion of its command with its operation (60 R240). -/
theorem exec_eq_complete (i : Instr) (s : State) : exec i s = complete i (operationOf i) s := by
  cases i <;> rfl

/-- The three ways a command ends (60 R241). -/
theorem exec_cases {i : Instr} {s t : State} (h : exec i s = .next t) :
    (∃ e, firstError i s.snap = some e ∧ t = errorCompletion e s) ∨
      (firstError i s.snap = none ∧ allBusOK s.platform (regions i s.snap) = false ∧
        t = busErrorCompletion i s) ∨
      (Runs i s ∧ t = finish (operationOf i s)) := by
  rw [exec_eq_complete] at h; exact complete_cases h

theorem exec_of_runs {i : Instr} {s : State} (h : Runs i s) :
    exec i s = .next (finish (operationOf i s)) := by
  rw [exec_eq_complete, complete_of_runs h]

/-- A command changes nothing but STATUS, the results, the memory and the counter of draws. -/
theorem operationOf_frame (i : Instr) (s : State) : operationOf i s =
    { s with status := (operationOf i s).status, results := (operationOf i s).results
             mem := (operationOf i s).mem, draws := (operationOf i s).draws } := by
  cases s
  cases i
  case psnr =>
    simp only [operationOf, psnrOperation, psnrReport]
    split <;> rfl
  case unpack =>
    simp only [operationOf, unpackOperation, reportDecode]
    split <;> rfl
  case dctext =>
    simp only [operationOf, dctextOperation, reportDecode]
    split <;> rfl
  case dwtext =>
    simp only [operationOf, dwtextOperation, reportDecode]
    split <;> rfl
  all_goals rfl

/-! ### The command in flight -/

/-- Every region of 30 R93 of the command in flight, and no other (70 R276). -/
theorem mem_activeRegions {s : State} {r : Region} : r ∈ activeRegions s ↔
    s.status.busy = true ∧ ∃ i, decode s.snap.word = .ok i ∧ r ∈ regions i s.snap := by
  unfold activeRegions inFlight
  cases s.status.busy <;> cases decode s.snap.word <;> simp

/-- Those of them that are written (70 R271, R277). -/
theorem mem_abandonedRegions {s : State} {r : Region} :
    r ∈ abandonedRegions s ↔ r ∈ activeRegions s ∧ r.access = .write := by
  simp [abandonedRegions, Region.isWrite]

end Sys2Proof.Laws
end

