-- ==== Sys2Proof/Laws/PerInstr.lean ====
section
/-! SUPPORT. A family of statements about the commands as syntax, one lemma per command. -/

namespace Sys2Proof.Laws

/-- The opcode of a command is one the opcode map assigns (30 R92). -/
def OpcodeAssigned.Statement (i : Instr) : Prop := (opcode i).toNat ∈ assignedOpcodes

theorem OpcodeAssigned.nop : OpcodeAssigned.Statement .nop := by
  unfold Statement; decide
theorem OpcodeAssigned.dct1d : OpcodeAssigned.Statement .dct1d := by
  unfold Statement; decide
theorem OpcodeAssigned.idct1d : OpcodeAssigned.Statement .idct1d := by
  unfold Statement; decide
theorem OpcodeAssigned.dct2d : OpcodeAssigned.Statement .dct2d := by
  unfold Statement; decide
theorem OpcodeAssigned.idct2d : OpcodeAssigned.Statement .idct2d := by
  unfold Statement; decide
theorem OpcodeAssigned.dwt2d : OpcodeAssigned.Statement .dwt2d := by
  unfold Statement; decide
theorem OpcodeAssigned.idwt2d : OpcodeAssigned.Statement .idwt2d := by
  unfold Statement; decide
theorem OpcodeAssigned.chext : OpcodeAssigned.Statement .chext := by
  unfold Statement; decide
theorem OpcodeAssigned.chrst : OpcodeAssigned.Statement .chrst := by
  unfold Statement; decide
theorem OpcodeAssigned.psnr : OpcodeAssigned.Statement .psnr := by
  unfold Statement; decide
theorem OpcodeAssigned.qembed : OpcodeAssigned.Statement .qembed := by
  unfold Statement; decide
theorem OpcodeAssigned.qextract : OpcodeAssigned.Statement .qextract := by
  unfold Statement; decide
theorem OpcodeAssigned.pack : OpcodeAssigned.Statement .pack := by
  unfold Statement; decide
theorem OpcodeAssigned.unpack : OpcodeAssigned.Statement .unpack := by
  unfold Statement; decide
theorem OpcodeAssigned.dctcap : OpcodeAssigned.Statement .dctcap := by
  unfold Statement; decide
theorem OpcodeAssigned.dctemb : OpcodeAssigned.Statement .dctemb := by
  unfold Statement; decide
theorem OpcodeAssigned.dctext : OpcodeAssigned.Statement .dctext := by
  unfold Statement; decide
theorem OpcodeAssigned.dwtcap : OpcodeAssigned.Statement .dwtcap := by
  unfold Statement; decide
theorem OpcodeAssigned.dwtemb : OpcodeAssigned.Statement .dwtemb := by
  unfold Statement; decide
theorem OpcodeAssigned.dwtext : OpcodeAssigned.Statement .dwtext := by
  unfold Statement; decide

end Sys2Proof.Laws
end

