-- ==== Sys2Proof/Tests/Slice0.lean ====
section
/-! SUPPORT. The model's own tests: the decoder on written words, worked examples of
95_test_vectors.md, one step each, and for each statement with hypotheses a state and operands that
meet them all together. -/

namespace Sys2Proof.Tests

-- The kernel evaluations below run one after the other.
set_option Elab.async false

open Sys2Proof.Machine Sys2Proof.Laws Sys2Proof.Claims

/-! ### Well-formedness: an ill-formed word for each check (30 R90, R97) -/

theorem test_reserved_refused : (RawCommand.ofWord 0x00000103#32).reservedClear = false := by decide

theorem test_reserved_top_refused : wellFormedWord 0x80000003#32 = false := by decide

theorem test_opcode_refused : (RawCommand.ofWord 0x00000013#32).opcodeAssigned = false := by decide

theorem test_unassigned_refused :
    [0x0E#32, 0x0F#32, 0x13#32, 0x17#32, 0xFF#32].map wellFormedWord
      = List.replicate 5 false := by decide

/-! ### Decoding: every opcode of 30 R92, written out, RSV = 0 -/

theorem test_decode_nop : decode 0b00000000000000000000000000000000#32 = .ok .nop := by rfl
theorem test_decode_dct1d : decode 0b00000000000000000000000000000001#32 = .ok .dct1d := by rfl
theorem test_decode_idct1d : decode 0b00000000000000000000000000000010#32 = .ok .idct1d := by rfl
theorem test_decode_dct2d : decode 0b00000000000000000000000000000011#32 = .ok .dct2d := by rfl
theorem test_decode_idct2d : decode 0b00000000000000000000000000000100#32 = .ok .idct2d := by rfl
theorem test_decode_dwt2d : decode 0b00000000000000000000000000000101#32 = .ok .dwt2d := by rfl
theorem test_decode_idwt2d : decode 0b00000000000000000000000000000110#32 = .ok .idwt2d := by rfl
theorem test_decode_chext : decode 0b00000000000000000000000000000111#32 = .ok .chext := by rfl
theorem test_decode_chrst : decode 0b00000000000000000000000000001000#32 = .ok .chrst := by rfl
theorem test_decode_psnr : decode 0b00000000000000000000000000001001#32 = .ok .psnr := by rfl
theorem test_decode_qembed : decode 0b00000000000000000000000000001010#32 = .ok .qembed := by rfl
theorem test_decode_qextract : decode 0b00000000000000000000000000001011#32 = .ok .qextract := by rfl
theorem test_decode_pack : decode 0b00000000000000000000000000001100#32 = .ok .pack := by rfl
theorem test_decode_unpack : decode 0b00000000000000000000000000001101#32 = .ok .unpack := by rfl
theorem test_decode_dctcap : decode 0b00000000000000000000000000010000#32 = .ok .dctcap := by rfl
theorem test_decode_dctemb : decode 0b00000000000000000000000000010001#32 = .ok .dctemb := by rfl
theorem test_decode_dctext : decode 0b00000000000000000000000000010010#32 = .ok .dctext := by rfl
theorem test_decode_dwtcap : decode 0b00000000000000000000000000010100#32 = .ok .dwtcap := by rfl
theorem test_decode_dwtemb : decode 0b00000000000000000000000000010101#32 = .ok .dwtemb := by rfl
theorem test_decode_dwtext : decode 0b00000000000000000000000000010110#32 = .ok .dwtext := by rfl

theorem test_decode_reserved : decode 0x00000111#32 = .error .reservedBits := by rfl
theorem test_decode_unknown : decode 0x0000000E#32 = .error .unknownOpcode := by rfl
theorem test_table_word : decodeTableWord 8 0x15 = some .dwtemb := by decide

/-! ### Small states -/

/-- Parameters with the four addresses apart. -/
def base : Params :=
  { Params.reset with srcAddr := 0x1000, auxAddr := 0x3000, dstAddr := 0x2000, scrAddr := 0x40000,
                      strength := 0x80000, redundancy := 1, levels := 1 }

/-- The state right after the command i was accepted with parameters q and memory m. -/
def accepted (i : Instr) (q : Params) (m : Memory) : State :=
  accept (encode i) { State.reset with params := q, mem := m }

/-- The state a step leads to; the reset state if it stops. -/
def next (o : Host.Outcome State Fault Refusal) : State :=
  match o with
  | .next s => s
  | .fault _ => State.reset
  | .refused _ => State.reset

/-- The state after the command's completion step. -/
def after (i : Instr) (q : Params) (m : Memory) : State := next (step (accepted i q m))

/-- Little-endian words stored at a. -/
def words (a : Nat) (xs : List Nat) : Memory :=
  writeBytes [] a (xs.flatMap fun x => wordBytes (BitVec.ofNat 32 x))

/-- Bytes stored at a, over m. -/
def bytes (m : Memory) (a : Nat) (xs : List Nat) : Memory :=
  writeBytes m a (xs.map fun x => BitVec.ofNat 8 x)

/-- The STATUS word and n words at DST. -/
def seen (s : State) (n : Nat) : Nat × List Nat :=
  (s.status.toWord.toNat,
    (List.range n).map fun k => (word32 (sampleAt s.mem (0x2000 + 4 * k))).toNat)

/-- The STATUS word and n bytes at DST. -/
def seenBytes (s : State) (n : Nat) : Nat × List Nat :=
  (s.status.toWord.toNat, (bytesAt s.mem 0x2000 n).map fun b => b.toNat)

/-! ### One step each, expected values from 95_test_vectors.md -/

/-- V1, the ramp. -/
theorem test_dct1d_ramp : seen (after .dct1d base (words 0x1000 [0x00000000, 0x00010000, 0x00020000,
    0x00030000, 0x00040000, 0x00050000, 0x00060000, 0x00070000])) 8 =
      (0x02, [0x0009E645, 0xFFF98EC4, 0x00000000, 0xFFFF5398, 0x00000000, 0xFFFFCC92, 0x00000000,
        0xFFFFF305]) := by decide +kernel

/-- V1, saturating. -/
theorem test_dct1d_saturates :
    seen (after .dct1d base (words 0x1000 (List.replicate 8 0x7FFFFFFF))) 8 =
      (0x0A, 0x7FFFFFFF :: List.replicate 7 0) := by decide +kernel

/-- V2, unit basis k = 1. -/
theorem test_idct1d_basis :
    seen (after .idct1d base (words 0x1000 [0, 0x00010000, 0, 0, 0, 0, 0, 0])) 8 =
      (0x02, [0x00007D8A, 0x00006A6E, 0x0000471D, 0x000018F9, 0xFFFFE707, 0xFFFFB8E3, 0xFFFF9592,
        0xFFFF8276]) := by decide +kernel

/-- V2, all maximal. -/
theorem test_idct1d_saturates :
    seen (after .idct1d base (words 0x1000 (List.replicate 8 0x7FFFFFFF))) 8 =
      (0x0A, [0x7FFFFFFF, 0xA3C3D529, 0x491F643B, 0xE64341B0, 0x27843CF8, 0xFC2685B4, 0x16F640E8,
        0x0A1A6558]) := by decide +kernel

/-- V3, constant 128.0. -/
theorem test_dct2d_constant :
    seen (after .dct2d base (words 0x1000 (List.replicate 64 0x00800000))) 64 =
      (0x02, 0x03FFFFFF :: List.replicate 63 0) := by decide +kernel

/-- V4, rows 0 and 1 of the (3, 4) basis image. -/
theorem test_idct2d_basis :
    seen (after .idct2d base (words 0x1000 ((List.replicate 28 0) ++ [0x00100000]))) 16 =
      (0x02, [0x00025A0D, 0xFFFDA5F3, 0xFFFDA5F3, 0x00025A0D, 0x00025A0D, 0xFFFDA5F3, 0xFFFDA5F3,
        0x00025A0D, 0xFFFF72BD, 0x00008D43, 0x00008D43, 0xFFFF72BD, 0xFFFF72BD, 0x00008D43,
        0x00008D43, 0xFFFF72BD]) := by decide +kernel

/-- V5, 4 × 4 at two levels. -/
theorem test_dwt2d_two_levels :
    seen (after .dwt2d { base with width := 4, height := 4, levels := 2 }
      (words 0x1000 ((List.range 16).map fun k => k * 65536))) 16 =
      (0x02, [0xFFFF0000, 0xFFFF0000, 0xFFFF0000, 0xFFFF0000, 0xFFFC0000, 0xFFFC0000, 0xFFFC0000,
        0xFFFC0000, 0, 0, 0, 0, 0xFFFC0000, 0xFFF00000, 0, 0x001E0000]) := by decide +kernel

/-- V5, 3 × 3 at two levels: edges replicated. -/
theorem test_dwt2d_odd :
    seen (after .dwt2d { base with width := 3, height := 3, levels := 2 }
      (words 0x1000 ((List.range 9).map fun k => (k + 1) * 65536))) 16 =
      (0x02, [0xFFFF0000, 0, 0xFFFF0000, 0, 0xFFFD0000, 0xFFFD0000, 0, 0, 0, 0, 0, 0, 0xFFFD0000,
        0xFFF70000, 0, 0x00180000]) := by decide +kernel

/-- V5, the raw unit. -/
theorem test_idwt2d_raw_unit :
    seen (after .idwt2d { base with width := 2, height := 2 } (words 0x1000 [1, 1, 1, 1])) 4 =
      (0x02, [2, 0, 0, 0]) := by decide +kernel

/-- V5, 1 × 1 at three levels. -/
theorem test_idwt2d_one_pixel :
    seen (after .idwt2d { base with width := 1, height := 1, levels := 3 }
      (words 0x1000 (List.replicate 9 0 ++ [0x00280000]))) 1 = (0x02, [0x00050000]) := by
  decide +kernel

/-- The pixels of V6. -/
def twoPixels : Memory := bytes [] 0x1000 [0x01, 0x02, 0x03, 0x04, 0x0A, 0x14, 0xFA, 0x28]

/-- V6. -/
theorem test_chext : seen (after .chext { base with width := 2, height := 1 } twoPixels) 2 =
    (0x02, [0x00030000, 0x00FA0000]) := by decide +kernel

/-- V6, M = (100.5, -3.0). -/
theorem test_chrst : seenBytes (after .chrst { base with width := 2, height := 1 }
    (bytes twoPixels 0x3000 [0x00, 0x80, 0x64, 0x00, 0x00, 0x00, 0xFD, 0xFF])) 8 =
      (0x02, [0x01, 0x02, 0x65, 0x04, 0x0A, 0x14, 0x00, 0x28]) := by decide +kernel

/-- V6, the top clamp. -/
theorem test_chrst_clamps : seenBytes (after .chrst { base with width := 2, height := 1 }
    (bytes twoPixels 0x3000 [0x00, 0x80, 0xFF, 0x00, 0xFF, 0x7F, 0xFF, 0x00])) 8 =
      (0x02, [0x01, 0x02, 0xFF, 0x04, 0x0A, 0x14, 0xFF, 0x28]) := by decide +kernel

/-- V7, full scale: 0 dB, below the threshold. -/
theorem test_psnr_full_scale : (fun s : State => (s.status.toWord.toNat, s.results.psnr.toInt))
    (after .psnr { base with width := 1, height := 1 } (bytes [] 0x3002 [0xFF])) = (0x02, 0) := by
  decide +kernel

/-- V7, beyond full scale. -/
theorem test_psnr_negative : (fun s : State => (s.status.toWord.toNat, s.results.psnr.toInt))
    (after .psnr { base with width := 1, height := 1 } (bytes [] 0x3002 [0xE8, 0x03])) =
      (0x02, -3039) := by decide +kernel

/-- V30, as a command. -/
theorem test_qembed : seen (after .qembed { base with len := 2 }
    (bytes (words 0x1000 [0x00640000, 0x00640000]) 0x3000 [0x40])) 2 =
      (0x02, [0x00600000, 0x00680000]) := by decide +kernel

/-- V30, clipping. -/
theorem test_qembed_clips : seen (after .qembed { base with len := 1, strength := 0x7FFFFFFF }
    (words 0x1000 [0x7FFFFFFF])) 1 = (0x0A, [0x7FFFFFFF]) := by decide +kernel

/-- V30, as a command: two bits, then pad bits 0. -/
theorem test_qextract : seenBytes (after .qextract { base with len := 2 }
    (words 0x1000 [0x00600000, 0x00680000])) 1 = (0x02, [0x40]) := by decide +kernel

/-- V20, "A" with r = 3. -/
theorem test_pack : (fun s : State => (seenBytes s 15, s.results.capBits.toNat,
    s.results.capBytes.toNat, s.results.used.toNat, s.results.bits.toNat))
      (after .pack { base with len := 1, redundancy := 3, bitcap := 120 } (bytes [] 0x1000 [0x41])) =
    ((0x02, [0, 0, 0, 0, 0, 0, 0, 0, 0, 0, 0, 0x07, 0x1C, 0x00, 0x07]), 8, 1, 120, 40) := by
  decide +kernel

/-- V22: one bit short of capacity. -/
theorem test_pack_capacity :
    seenBytes (after .pack { base with len := 1, redundancy := 3, bitcap := 119 }
      (bytes [] 0x1000 [0x41])) 15 = (0x0504, List.replicate 15 0) := by decide +kernel

/-- V21, one flip: bit 100. -/
theorem test_unpack_one_flip : (fun s : State => (seenBytes s 1, s.results.length.toNat,
    s.results.conf.toNat)) (after .unpack { base with redundancy := 3, bitcap := 120 }
      (bytes [] 0x1000 [0, 0, 0, 0, 0, 0, 0, 0, 0, 0, 0, 0x07, 0x14, 0x00, 0x07])) =
    ((0x12, [0x41]), 1, 64989) := by decide +kernel

/-- V21, all ones: an implausible header. -/
theorem test_unpack_implausible : (fun s : State => (seenBytes s 1, s.results.length.toNat,
    s.results.units.toNat)) (after .unpack { base with redundancy := 3, bitcap := 120 }
      (bytes [] 0x1000 (List.replicate 15 0xFF))) = ((0x02, [0]), 0, 120) := by decide +kernel

/-- V31, 128 × 128 with r = 3. -/
theorem test_dctcap : (fun s : State => (s.status.toWord.toNat, s.results.units.toNat,
    s.results.capBits.toNat, s.results.capBytes.toNat))
      (after .dctcap { base with width := 128, height := 128, redundancy := 3 } []) =
    (0x02, 256, 53, 6) := by decide +kernel

/-- V40, 100 × 60 at three levels with r = 2. -/
theorem test_dwtcap : (fun s : State => (s.status.toWord.toNat, s.results.units.toNat,
    s.results.capBits.toNat, s.results.capBytes.toNat))
      (after .dwtcap { base with width := 100, height := 60, levels := 3, redundancy := 2 } []) =
    (0x02, 84, 10, 1) := by decide +kernel

/-- V40, LV = 8. -/
theorem test_dwtcap_bad_levels : (after .dwtcap { base with width := 128, height := 128, levels := 8 }
    []).status.toWord = 0x0204 := by decide +kernel

/-! ### The codecs: programs P3 and P4 of 95_test_vectors.md -/

/-- w × h pixels whose blue byte is given. -/
def pixels (w h : Nat) (blueOf : Nat → Nat → Nat) : List Byte :=
  (List.range (w * h)).flatMap fun k => [0x11, 0x22, BitVec.ofNat 8 (blueOf (k / w) (k % w)), 0xFF]

/-- An image at 0x10000 and the payload 0x41 at 0x8000. -/
def imageMem (px : List Byte) : Memory := bytes (writeBytes [] 0x10000 px) 0x8000 [0x41]

/-- P3's parameters. -/
def dctParams : Params :=
  { base with width := 64, height := 40, srcAddr := 0x10000, auxAddr := 0x8000, dstAddr := 0x20000
              len := 1 }

/-- P4's parameters. -/
def dwtParams : Params :=
  { base with width := 16, height := 10, srcAddr := 0x10000, auxAddr := 0x8000, dstAddr := 0x20000
              scrAddr := 0x30000, len := 1 }

/-- The marked block of P3. -/
def markTable : List (List Int) :=
  let a := [129, 127, 127, 129, 129, 127, 127, 129]
  let b := [127, 129, 129, 127, 127, 129, 129, 127]
  let z := List.replicate 8 128
  [a, z, b, b, a, a, z, b]

/-- The marked image of P4: twelve blue bytes. -/
def dwtMarkedBlue (i j : Nat) : Nat :=
  if [(6, 14), (7, 15), (8, 2), (9, 3), (8, 14), (9, 15)].contains (i, j) then 132
  else if [(6, 15), (7, 14), (8, 3), (9, 2), (8, 15), (9, 14)].contains (i, j) then 124
  else 128

/-- P3: a block of 128.0 that carries a 1. -/
theorem test_dctemb_block :
    (embedBlock 0x80000 true (List.replicate 8 (List.replicate 8 0x800000))).val.map
      (fun row => row.map restoredByte) = markTable := by decide +kernel

/-- P3, DCTEMB: the results. -/
theorem test_dctemb_results : (fun s : State => (s.status.done, s.results.units.toNat,
    s.results.capBits.toNat, s.results.used.toNat)) (after .dctemb dctParams []) =
      (true, 40, 8, 40) := by decide +kernel

/-- P3: what a marked block reads back as. -/
theorem test_dctext_block :
    matAt (dct2d (markTable.map fun row => row.map fun x => x * 65536)).val 3 4 = 0x0006B27E ∧
      qextract 0x0006B27E 0x80000 = true := by decide +kernel

/-- An image of one block: no header fits, which is a success with nothing detected. -/
theorem test_dctext_short : (fun s : State => (s.status.toWord.toNat, s.results.conf.toNat,
    s.results.units.toNat)) (after .dctext { dctParams with width := 8, height := 8 } []) =
    (0x02, 0, 1) := by decide +kernel

/-- P4, DWTEMB: the bytes it writes to DST. -/
theorem test_dwtemb : dwtEmbed (pixels 16 10 fun _ _ => 128) 16 10 [0x41] 0x80000 1 1 =
    { val := pixels 16 10 dwtMarkedBlue, clipped := false } := by decide +kernel

/-- P4, DWTEMB: flags and results. -/
theorem test_dwtemb_results : (fun s : State => (s.status.toWord.toNat, s.results.units.toNat,
    s.results.capBits.toNat, s.results.used.toNat))
      (after .dwtemb dwtParams (imageMem (pixels 16 10 fun _ _ => 128))) = (0x02, 40, 8, 40) := by
  decide +kernel

/-- P4, DWTEXT of the marked image. -/
theorem test_dwtext : (fun s : State => (s.status.toWord.toNat, s.results.conf.toNat,
    s.results.length.toNat))
      (after .dwtext dwtParams (imageMem (pixels 16 10 dwtMarkedBlue))) = (0x12, 0x10000, 1) := by
  decide +kernel

/-! ### Witnesses: for each statement with hypotheses, states and operands that meet them all -/

/-- The outcome is a next state. -/
def ran (o : Host.Outcome State Fault Refusal) : Bool :=
  match o with
  | .next _ => true
  | .fault _ => false
  | .refused _ => false

theorem eq_next_of_ran {o : Host.Outcome State Fault Refusal} (h : ran o = true) :
    o = .next (next o) := by
  cases o with
  | next s => rfl
  | fault r => cases h
  | refused r => cases h

theorem test_witness_DecodeEncodeAgree : decode 0x00000016#32 = .ok .dwtext := by rfl

theorem test_witness_IllegalWordCompletes : State.reset.status.busy = false ∧
    State.reset.host = [] ∧ ∀ c ∈ [0x0E#32, 0x0F#32, 0x13#32, 0x17#32, 0xFF#32, 0x100#32,
      0xFFFFFFFF#32], IllegalWord c := by
  refine ⟨rfl, rfl, ?_⟩
  intro c hc
  unfold IllegalWord
  simp only [List.mem_cons, List.not_mem_nil, or_false] at hc
  rcases hc with h | h | h | h | h | h | h <;> subst h <;> decide

/-- The words next to the unassigned ones are legal. -/
theorem test_legal_boundaries :
    ∀ c ∈ [0x00#32, 0x0D#32, 0x10#32, 0x12#32, 0x14#32, 0x16#32], ¬IllegalWord c := by
  intro c hc
  unfold IllegalWord
  simp only [List.mem_cons, List.not_mem_nil, or_false] at hc
  rcases hc with h | h | h | h | h | h <;> subst h <;> decide

theorem test_witness_StepRunsLatchedCommand :
    (let s := accepted .dct1d base []
     s.status.busy = true ∧ decode s.snap.word = .ok .dct1d ∧ s.host = []) ∧
    (let s : State := { accepted .dct1d base [] with host := [.pause, .reset] }
     s.status.busy = true ∧ decode s.snap.word = .ok .dct1d ∧ s.host = .pause :: [.reset]) ∧
    State.reset.status.busy = false ∧
    ({ State.reset with host := [.pause] } : State).status.busy = false := by
  refine ⟨⟨rfl, rfl, rfl⟩, ⟨rfl, rfl, rfl⟩, rfl, rfl⟩

/-- The invariant at an accepted command. -/
theorem accepted_inv : (accepted .dct1d base []).Inv where
  mem_wf := by decide
  busy_clear := fun _ => by unfold State.clear; decide
  done_or_err := by decide
  err_code := by decide
  done_code := by decide
  code_clear := by decide
  no_detect := by decide
  conf_le := by decide
  psnr_inf := by decide
  busy_word := by decide

theorem test_witness_StepKeepsInvariant : (accepted .dct1d base []).Inv ∧
    step (accepted .dct1d base []) = .next (after .dct1d base []) :=
  ⟨accepted_inv, eq_next_of_ran (by decide +kernel)⟩

theorem test_witness_CommandFrame :
    exec .qembed (accepted .qembed { base with len := 1 } []) =
      .next (next (exec .qembed (accepted .qembed { base with len := 1 } []))) :=
  eq_next_of_ran (by decide +kernel)

theorem test_witness_CommandOutcomes : (accepted .dct1d base []).Inv ∧
    (accepted .dct1d base []).status.busy = true ∧ (accepted .dct1d base []).host = [] ∧
    step (accepted .dct1d base []) = .next (after .dct1d base []) :=
  ⟨accepted_inv, rfl, rfl, eq_next_of_ran (by decide +kernel)⟩

theorem test_witness_CheckErrorCompletes :
    firstError .qembed (accepted .qembed { base with strength := 0 } []).snap = some .badOption ∧
    firstError .chext (accepted .chext base []).snap = some .badDim ∧
    firstError .pack (accepted .pack base []).snap = some .badLength ∧
    firstError .pack (accepted .pack { base with len := 1, bitcap := 39 } []).snap
      = some .capacity ∧
    firstError .dct1d (accepted .dct1d { base with srcAddr := 0x1002 } []).snap = some .align ∧
    firstError .dct1d (accepted .dct1d { base with dstAddr := 0xFFFFFFE4 } []).snap
      = some .addrRange ∧
    firstError .dct1d (accepted .dct1d { base with dstAddr := 0x101C } []).snap
      = some .overlap := by decide +kernel

/-- The last byte of SRC is not backed. -/
theorem test_witness_BusErrorCompletes :
    let s := { accepted .dct1d base [] with
      platform := { regBase := 0, unbacked := [{ base := 0x101F, size := 1 }], device := [] } }
    firstError .dct1d s.snap = none ∧
      (∀ r ∈ regionRows .dct1d s.snap, ∀ u ∈ s.platform.device, ∀ a, r.base ≤ a →
        a < r.base + r.size → ¬(u.base ≤ a ∧ a < u.base + u.size)) ∧
      ∃ r ∈ regionRows .dct1d s.snap, ∃ a, r.base ≤ a ∧ a < r.base + r.size ∧
        busOK s.platform a = false :=
  ⟨by decide +kernel, fun _ _ _ hu => (List.not_mem_nil hu).elim,
    { base := 0x1000, size := 32, access := .read, samples := true }, by decide +kernel, 0x101F,
    by decide⟩

/-- The first byte of DST is a device. -/
theorem test_witness_DeviceRegionRefused :
    exec .dct1d { accepted .dct1d base [] with
      platform := { regBase := 0, unbacked := [], device := [{ base := 0x2000, size := 1 }] } } =
      .refused .deviceRegion :=
  (exec_eq_complete _ _).trans (complete_of_device (by decide +kernel) (by decide +kernel) _)

theorem test_witness_CommandCompletesInBoundedSteps :
    let s : State := { accepted .dct1d base [] with
      host := [.regRead 0x00C .word, .pause, .regWrite 0x010 .word 0, .memRead 0x2000] }
    s.platform.device = [] ∧ ∀ op ∈ s.host, ∀ a b, op ≠ .memWrite a b := by
  refine ⟨rfl, ?_⟩
  intro op h a b
  simp only [List.mem_cons, List.not_mem_nil, or_false] at h
  rcases h with h | h | h | h <;> subst h <;> simp

theorem test_witness_LowestErrorCodeWins :
    firstError .dctemb (accepted .dctemb { base with strength := 0, len := 0 } []).snap
      = some .badOption ∧ firstError .nop State.reset.snap = none := by decide +kernel

/-! Each command runs to success. -/

theorem test_witness_Dct1dTransforms : Runs .dct1d (accepted .dct1d base []) := by
  unfold Runs; decide +kernel

/-- DST ends exactly at 2^32. -/
theorem test_witness_Idct1dTransforms :
    Runs .idct1d (accepted .idct1d { base with dstAddr := 0xFFFFFFE0 } []) := by
  unfold Runs; decide +kernel

theorem test_witness_Dct2dTransforms : Runs .dct2d (accepted .dct2d base []) := by
  unfold Runs; decide +kernel

theorem test_witness_Idct2dTransforms : Runs .idct2d (accepted .idct2d base []) := by
  unfold Runs; decide +kernel

theorem test_witness_Dwt2dTransforms : Runs .dwt2d
    (accepted .dwt2d { base with width := 3, height := 5, levels := 7 } []) := by
  unfold Runs; decide +kernel

theorem test_witness_Idwt2dTransforms : Runs .idwt2d
    (accepted .idwt2d { base with width := 3, height := 1 } []) := by
  unfold Runs; decide +kernel

/-- A pixel buffer at an odd address. -/
theorem test_witness_ChextExtracts : Runs .chext
    (accepted .chext { base with width := 2, height := 1, srcAddr := 0x1001 } []) := by
  unfold Runs; decide +kernel

theorem test_witness_ChrstRestores : Runs .chrst
    (accepted .chrst { base with width := 2, height := 1, dstAddr := 0x2003 } []) := by
  unfold Runs; decide +kernel

/-- Both clauses: equal matrices (SRC is AUX), and matrices that differ. -/
theorem test_witness_PsnrIsGreatest :
    (let s := accepted .psnr { base with width := 1, height := 1, auxAddr := 0x1000 } []
     Runs .psnr s ∧ squaredDiff (fun i j => sampleAt s.mem (0x1000 + 4 * (i * 1 + j)))
      (fun i j => sampleAt s.mem (0x1000 + 4 * (i * 1 + j))) 1 1 = 0) ∧
    (let s := accepted .psnr { base with width := 1, height := 1 } (bytes [] 0x3000 [1])
     Runs .psnr s ∧ squaredDiff (fun i j => sampleAt s.mem (0x1000 + 4 * (i * 1 + j)))
      (fun i j => sampleAt s.mem (0x3000 + 4 * (i * 1 + j))) 1 1 ≠ 0) := by
  unfold Runs; decide +kernel

theorem test_witness_QembedPerturbs : Runs .qembed
    (accepted .qembed { base with len := 1, strength := 0x7FFFFFFF } []) := by
  unfold Runs; decide +kernel

theorem test_witness_QextractReads : Runs .qextract
    (accepted .qextract { base with len := 9, strength := 1 } []) := by
  unfold Runs; decide +kernel

theorem test_witness_PackWritesStream : Runs .pack
    (accepted .pack { base with len := 1, bitcap := 40 } []) := by
  unfold Runs; decide +kernel

/-- No payload found, and V21's payload found. -/
theorem test_witness_UnpackDecodes :
    Runs .unpack (accepted .unpack { base with redundancy := 0xFFFF, bitcap := 0 } []) ∧
    let s := accepted .unpack { base with redundancy := 3, bitcap := 120 }
      (bytes [] 0x1000 [0, 0, 0, 0, 0, 0, 0, 0, 0, 0, 0, 0x07, 0x14, 0x00, 0x07])
    Runs .unpack s ∧ (next (exec .unpack s)).status.detect = true := by
  unfold Runs; decide +kernel

theorem test_witness_DctcapReports :
    let s := accepted .dctcap { base with width := 7, height := 1 } []
    s.snap.r.toNat ≠ 0 ∧ s.snap.w.toNat ≠ 0 ∧ s.snap.h.toNat ≠ 0 := by decide +kernel

theorem test_witness_DctembMarks : Runs .dctemb (accepted .dctemb dctParams []) := by
  unfold Runs; decide +kernel

theorem test_witness_DctextDecodes : Runs .dctext (accepted .dctext dctParams []) := by
  unfold Runs; decide +kernel

theorem test_witness_DwtcapReports :
    let s := accepted .dwtcap { base with width := 1, height := 65535, levels := 7 } []
    s.snap.r.toNat ≠ 0 ∧ 1 ≤ s.snap.lv.toNat ∧ s.snap.lv.toNat ≤ 7 ∧ s.snap.w.toNat ≠ 0 ∧
      s.snap.h.toNat ≠ 0 := by decide +kernel

theorem test_witness_DwtembMarks : Runs .dwtemb (accepted .dwtemb dwtParams []) := by
  unfold Runs; decide +kernel

theorem test_witness_DwtextDecodes : Runs .dwtext (accepted .dwtext dwtParams []) := by
  unfold Runs; decide +kernel

/-! Properties of the units. -/

theorem test_witness_ConstantInputHasOnlyDc :
    (1 ≤ 7 ∧ 7 < 8) ∧ (0 < 8 ∧ 7 < 8 ∧ ¬(0 = 0 ∧ 7 = 0)) := by decide

/-- The clauses of both dimensions at the largest magnitude, and a block of pixel values. -/
theorem test_witness_DctRoundTripIsClose :
    (let x : List Int := [2 ^ 27, -2 ^ 27, 2 ^ 27, -2 ^ 27, 2 ^ 27, -2 ^ 27, 2 ^ 27, -2 ^ 27]
     x.length = 8 ∧ (∀ v ∈ x, |v| ≤ 2 ^ 27) ∧ 7 < 8) ∧
    (let B : Mat := List.replicate 8 (List.replicate 8 (-2 ^ 27))
     B.length = 8 ∧ (∀ row ∈ B, row.length = 8 ∧ ∀ v ∈ row, |v| ≤ 2 ^ 27) ∧ 7 < 8) ∧
    (let B : Mat := List.replicate 8 (List.replicate 8 (255 * 2 ^ 16))
     B.length = 8 ∧ (∀ row ∈ B, row.length = 8 ∧ ∀ v ∈ row, |v| ≤ 2 ^ 27) ∧
      ∀ row ∈ B, ∀ v ∈ row, ∃ b : Int, 0 ≤ b ∧ b ≤ 255 ∧ v = b * 2 ^ 16) := by
  refine ⟨by decide +kernel, by decide +kernel, by decide +kernel, by decide +kernel, ?_⟩
  intro row hr v hv
  rw [List.eq_of_mem_replicate hr] at hv
  exact ⟨255, by decide, by decide, List.eq_of_mem_replicate hv⟩

/-- Both clauses: a multiple of 2^7, of the largest magnitude. -/
theorem test_witness_DwtRoundTripIsClose :
    let A : Mat := [[2 ^ 20, -2 ^ 20, 0]]
    (1 ≤ 1 ∧ 1 ≤ 3 ∧ 1 ≤ 7 ∧ 7 ≤ 7 ∧ A.length = 1 ∧
      ∀ row ∈ A, row.length = 3 ∧ ∀ v ∈ row, |v| * 2 ^ 7 ≤ 2 ^ 27) ∧
    ∀ row ∈ A, ∀ v ∈ row, ∃ q : Int, v = q * 2 ^ 7 := by
  refine ⟨by decide +kernel, ?_⟩
  intro row hr v hv
  refine ⟨v / 2 ^ 7, ?_⟩
  simp only [List.mem_singleton] at hr
  subst hr
  simp only [List.mem_cons, List.not_mem_nil, or_false] at hv
  rcases hv with h | h | h <;> subst h <;> decide

theorem test_witness_RestorationIsolatesChannel :
    (pixels 2 1 fun _ _ => 3).length = 4 * (2 * 1) ∧ 7 % 4 ≠ 2 := by decide

/-- S at both ends, with the disturbances at both ends. -/
theorem test_witness_QuantizerStandsHalfStep :
    (1 ≤ (1 : Int) ∧ (1 : Int) ≤ 0x7FFFFFFF ∧ clips (qembedRaw 5 false 1) = false ∧
      -(1 : Int) ≤ 2 * 0 ∧ 2 * 0 < (1 : Int)) ∧
    (1 ≤ (0x7FFFFFFF : Int) ∧ (0x7FFFFFFF : Int) ≤ 0x7FFFFFFF ∧
      clips (qembedRaw (-5) true 0x7FFFFFFF) = false ∧
      -(0x7FFFFFFF : Int) ≤ 2 * (-0x3FFFFFFF) ∧ 2 * (0x3FFFFFFF : Int) < 0x7FFFFFFF) := by
  decide

/-- V21, bit 100 flipped: one flip in a chunk of three. -/
theorem test_witness_RepetitionCodeCorrects :
    let p : List Byte := [0x41]
    let s := (stream (frame p) 3).set 100 false
    1 ≤ p.length ∧ p.length < 2 ^ 32 ∧ 1 ≤ 3 ∧ (32 + 8 * p.length) * 3 ≤ s.length ∧
    ∀ i, i < 32 + 8 * p.length →
      2 * ((Finset.range 3).filter fun j =>
        s.getD (i * 3 + j) false ≠ (frame p).getD i false).card < 3 ∨
      ((frame p).getD i false = false ∧ 2 * ((Finset.range 3).filter fun j =>
        s.getD (i * 3 + j) false ≠ (frame p).getD i false).card ≤ 3) := by
  decide +kernel

/-- PACK at s, and UNPACK of its stream at u. -/
theorem test_witness_PackThenUnpackRoundTrip :
    let q := { base with len := 1, redundancy := 3, bitcap := 120 }
    let s := accepted .pack q (bytes [] 0x1000 [0x41])
    let t := next (exec .pack s)
    let u := accepted .unpack { q with srcAddr := 0x2000, dstAddr := 0x5000 } t.mem
    Runs .pack s ∧ exec .pack s = .next t ∧ Runs .unpack u ∧
    (∀ a, s.snap.dst.toNat ≤ a →
      a < s.snap.dst.toNat + (32 + 8 * s.snap.len.toNat) * s.snap.r.toNat / 8 →
      readByte u.mem a = readByte t.mem a) ∧
    u.snap.src = s.snap.dst ∧ u.snap.r = s.snap.r ∧ u.snap.n = s.snap.n ∧
    u.snap.fl.toNat ≤ 0x10000 := by
  refine ⟨?_, eq_next_of_ran (by decide +kernel), ?_, fun _ _ _ => rfl, rfl, rfl, rfl, by decide⟩
  · unfold Runs; decide +kernel
  · unfold Runs; decide +kernel

theorem test_witness_PayloadFitsIffWithinCapacity :
    1 ≤ 3 ∧ 1 ≤ 1 ∧ (32 + 8 * 1) * 3 ≤ 120 ∧ 1 ≤ capBytes 120 3 ∧ ¬(32 + 8 * 1) * 3 ≤ 119 := by
  decide

/-- The three clauses: a capacity report, a frame one block too long, and a payload that fits. -/
theorem test_witness_CapacityIsEnforced :
    (let s := accepted .dctcap { base with width := 64, height := 40 } []
     exec .dctcap s = .next (next (exec .dctcap s)) ∧ s.status.done = false ∧
      (next (exec .dctcap s)).status.done = true) ∧
    (let s := accepted .dctemb { dctParams with height := 39 } []
     (32 + 8 * s.snap.len.toNat) * s.snap.r.toNat >
        (s.snap.w.toNat / 8) * (s.snap.h.toNat / 8) ∧
      badOption .dctemb s.snap = false ∧ badDim .dctemb s.snap = false ∧
      badLength .dctemb s.snap = false) ∧
    (let s := accepted .dwtemb dwtParams []
     s.snap.len.toNat ≤ capBytes ((s.snap.w.toNat / 2 ^ s.snap.lv.toNat) *
        (s.snap.h.toNat / 2 ^ s.snap.lv.toNat)) s.snap.r.toNat) := by
  refine ⟨⟨eq_next_of_ran (by decide +kernel), by decide +kernel⟩, by decide +kernel,
    by decide +kernel⟩

/-- A decode that succeeds at the floor 1.0, a floor above 1.0, and a plausible header. -/
theorem test_witness_ConfidenceLiesInRange :
    let s := stream (frame [0x41]) 3
    1 ≤ 3 ∧ decodeStream s 3 0x10000 = some { payload := [0x41], conf := 0x10000 } ∧
      0x10000 < 0x10001 ∧ 0x8000 ≤ 0x8000 ∧ 32 * 3 ≤ s.length ∧
      plausible (decodedLength s 3) s.length 3 = true := by decide +kernel

/-- A carrier of zeros, and a constant image for both codecs. -/
theorem test_witness_UnmarkedImageNotDetected :
    (∀ k, k < 32 * 1 → (List.replicate 40 false).getD k false = false) ∧
    let s := accepted .dctext dctParams []
    let u := accepted .dwtext dwtParams []
    (Runs .dctext s ∧ ∀ k, k < s.snap.w.toNat * s.snap.h.toNat →
      readByte s.mem (s.snap.src.toNat + 4 * k + 2) = 0) ∧
    (Runs .dwtext u ∧ ∀ k, k < u.snap.w.toNat * u.snap.h.toNat →
      readByte u.mem (u.snap.src.toNat + 4 * k + 2) = 0) :=
  ⟨by decide +kernel, ⟨test_witness_DctextDecodes, fun _ _ => rfl⟩,
    ⟨test_witness_DwtextDecodes, fun _ _ => rfl⟩⟩

/-- Two states that differ in a byte of no read region. -/
theorem test_witness_EffectDependsOnReadRegions :
    let s := accepted .dct1d base []
    let s' := accepted .dct1d base [(0x1020, 1)]
    s.snap = s'.snap ∧ s.platform = s'.platform ∧ s.status = s'.status ∧
    s.results = s'.results ∧
    (∀ r ∈ regionRows .dct1d s.snap, r.access = .read → ∀ a, r.base ≤ a → a < r.base + r.size →
      readByte s.mem a = readByte s'.mem a) ∧
    exec .dct1d s = .next (next (exec .dct1d s)) ∧
    exec .dct1d s' = .next (next (exec .dct1d s')) := by
  refine ⟨rfl, rfl, rfl, rfl, ?_, eq_next_of_ran (by decide +kernel),
    eq_next_of_ran (by decide +kernel)⟩
  intro r hr ha a h1 h2
  have : a ≠ 0x1020 := by
    have hm : ∀ r ∈ regionRows .dct1d (accepted .dct1d base []).snap, r.access = .read →
        r.base + r.size ≤ 0x1020 := by decide +kernel
    have := hm r hr ha
    omega
  show readByte [] a = readByte [(0x1020, 1)] a
  simp [readByte, this.symm]

/-! The codecs' statements that speak of bytes of an image. -/

/-- Whether a command runs does not depend on the memory. -/
theorem runs_accepted {i : Instr} {q : Params} {m : Memory} (h : Runs i (accepted i q m))
    (m' : Memory) : Runs i (accepted i q m') := h

theorem blueWithin_same {t u : State} {dst w h : Nat} (hm : u.mem = t.mem)
    (hs : u.snap.src.toNat = dst) (a : Nat) : BlueWithin t u dst w h a := by
  intro i j _ _
  rw [hm, hs, sub_self, abs_zero]
  exact Int.natCast_nonneg a

/-- P4's image. -/
def dwtMem : Memory := imageMem (pixels 16 10 fun _ _ => 128)

/-- The memory after DWTEMB, up to the scratch bytes. -/
theorem dwtemb_mem {s : State} (h : Runs .dwtemb s) :
    (next (exec .dwtemb s)).mem = (drawRegion
      (writeSamplesAt s.snap.scrAddr s.snap.scratchBytes) { s with
        mem := writeBytes s.mem s.snap.dstAddr (dwtEmbed
          (loadBytes s.mem s.snap.srcAddr s.snap.imageBytes) s.snap.width s.snap.height
          (loadBytes s.mem s.snap.auxAddr s.snap.length) s.snap.strength s.snap.redundancy
          s.snap.levels).val }).mem := by
  rw [exec_of_runs h]; rfl

/-- A byte outside P4's scratch region after P4's DWTEMB. -/
theorem dwtemb_byte {m : Memory} {out : List Byte} {s : State} {a : Nat}
    (hs : s = accepted .dwtemb dwtParams m)
    (hout : (dwtEmbed (loadBytes m 0x10000 640) 16 10 (loadBytes m 0x8000 1) 0x80000 1 1).val = out)
    (hc : (writeSamplesAt 0x30000 640).contains a = false) :
    readByte (next (exec .dwtemb s)).mem a = readByte (writeBytes m 0x20000 out) a := by
  have hr : Runs .dwtemb s := by rw [hs]; exact runs_accepted test_witness_DwtembMarks m
  have hm0 : s.mem = m := by rw [hs]; rfl
  have hp : s.snap = (accepted .dwtemb dwtParams []).snap := by rw [hs]; rfl
  have e : s.snap.srcAddr = 0x10000 ∧ s.snap.auxAddr = 0x8000 ∧ s.snap.dstAddr = 0x20000 ∧
      s.snap.scrAddr = 0x30000 ∧ s.snap.imageBytes = 640 ∧ s.snap.width = 16 ∧
      s.snap.height = 10 ∧ s.snap.length = 1 ∧ s.snap.strength = 0x80000 ∧
      s.snap.redundancy = 1 ∧ s.snap.levels = 1 ∧ s.snap.scratchBytes = 640 := by
    rw [hp]; decide +kernel
  have hm := dwtemb_mem hr
  obtain ⟨e1, e2, e3, e4, e5, e6, e7, e8, e9, e10, e11, e12⟩ := e
  rw [e1, e2, e3, e4, e5, e6, e7, e8, e9, e10, e11, e12, hm0, Nat.cast_ofNat, hout] at hm
  rw [hm, readByte_drawRegion hc]

/-- P4: the byte at row 6, column 14 becomes 132. -/
theorem test_witness_MarkingIsLocal :
    ∃ s t : State, Runs .dwtemb s ∧ exec .dwtemb s = .next t ∧ 6 < s.snap.h.toNat ∧
      14 < s.snap.w.toNat ∧ 2 < 4 ∧
      readByte t.mem (s.snap.dst.toNat + 4 * (6 * s.snap.w.toNat + 14) + 2) ≠
        readByte s.mem (s.snap.src.toNat + 4 * (6 * s.snap.w.toNat + 14) + 2) := by
  obtain ⟨m, hm⟩ : ∃ m, m = dwtMem := ⟨_, rfl⟩
  obtain ⟨s, hs⟩ : ∃ s, s = accepted .dwtemb dwtParams m := ⟨_, rfl⟩
  have hr : Runs .dwtemb s := by rw [hs]; exact runs_accepted test_witness_DwtembMarks m
  have hout : (dwtEmbed (loadBytes m 0x10000 640) 16 10 (loadBytes m 0x8000 1) 0x80000 1 1).val =
      pixels 16 10 dwtMarkedBlue := by rw [hm]; decide +kernel
  have hp : s.snap = (accepted .dwtemb dwtParams []).snap := by rw [hs]; rfl
  have hm0 : s.mem = m := by rw [hs]; rfl
  have ha : s.snap.dst.toNat + 4 * (6 * s.snap.w.toNat + 14) + 2 = 0x201BA ∧
      s.snap.src.toNat + 4 * (6 * s.snap.w.toNat + 14) + 2 = 0x101BA ∧
      6 < s.snap.h.toNat ∧ 14 < s.snap.w.toNat := by rw [hp]; decide +kernel
  have hne : readByte (writeBytes m 0x20000 (pixels 16 10 dwtMarkedBlue)) 0x201BA ≠
      readByte m 0x101BA := by rw [hm]; decide +kernel
  refine ⟨s, next (exec .dwtemb s), hr, eq_next_of_ran (by rw [exec_of_runs hr]; rfl), ha.2.2.1,
    ha.2.2.2, by decide, ?_⟩
  rw [ha.1, ha.2.1, dwtemb_byte hs hout (by decide +kernel), hm0]
  exact hne

/-- Both codecs at the largest strength of the rule. -/
theorem test_witness_MarkIsImperceptible :
    (let s := accepted .dctemb { dctParams with strength := 0x3C0000 } []
     s.snap.s.toNat ≤ 60 * 2 ^ 16 ∧ Runs .dctemb s ∧
      exec .dctemb s = .next (next (exec .dctemb s))) ∧
    (let s := accepted .dwtemb { dwtParams with strength := 0xF0000 } []
     2 * s.snap.s.toNat ≤ 15 * 2 ^ s.snap.lv.toNat * 2 ^ 16 ∧ Runs .dwtemb s ∧
      exec .dwtemb s = .next (next (exec .dwtemb s))) := by
  have h1 : Runs .dctemb (accepted .dctemb { dctParams with strength := 0x3C0000 } []) := by
    unfold Runs; decide +kernel
  have h2 : Runs .dwtemb (accepted .dwtemb { dwtParams with strength := 0xF0000 } []) := by
    unfold Runs; decide +kernel
  exact ⟨⟨by decide, h1, eq_next_of_ran (by rw [exec_of_runs h1]; rfl)⟩,
    ⟨by decide, h2, eq_next_of_ran (by rw [exec_of_runs h2]; rfl)⟩⟩

/-- P4's blue bytes alone, and the payload. -/
def blueMem : Memory := (0x8000, 0x41) :: (List.range 160).map fun k => (0x10002 + 4 * k, 128)

/-- P4 with S = 8.0, which the bound of the statement allows for a = 0 and a = 1. -/
theorem test_witness_DwtMarkSurvivesNoise :
    let s := accepted .dwtemb dwtParams blueMem
    let t := next (exec .dwtemb s)
    let u := accepted .dwtext { dwtParams with srcAddr := 0x20000, dstAddr := 0x8100 } t.mem
    Runs .dwtemb s ∧ exec .dwtemb s = .next t ∧ Runs .dwtext u ∧ SameOptions s u ∧
    u.snap.lv = s.snap.lv ∧
    Unclamped s.snap.w.toNat s.snap.h.toNat (dwtMarked s.mem s.snap.src.toNat
      s.snap.aux.toNat s.snap.w.toNat s.snap.h.toNat s.snap.len.toNat s.snap.r.toNat
      s.snap.lv.toNat s.snap.s.toNat) ∧
    BlueWithin t u s.snap.dst.toNat s.snap.w.toNat s.snap.h.toNat 1 ∧
    (2 ^ s.snap.lv.toNat * (2 * 1 + 1) + 1) * 2 ^ 16 ≤ s.snap.s.toNat := by
  intro s t u
  have hr : Runs .dwtemb s := runs_accepted test_witness_DwtembMarks blueMem
  have he := exec_of_runs hr
  have hu : Runs .dwtext (accepted .dwtext
      { dwtParams with srcAddr := 0x20000, dstAddr := 0x8100 } []) := by
    unfold Runs; decide +kernel
  refine ⟨hr, eq_next_of_ran (by rw [he]; rfl), runs_accepted hu t.mem, ⟨rfl, rfl, rfl, rfl, by decide⟩, rfl, ?_,
    blueWithin_same rfl rfl 1, by decide⟩
  have h : ∀ i, i < 10 → ∀ j, j < 16 →
      -(2 ^ 15) ≤ dwtMarked blueMem 0x10000 0x8000 16 10 1 1 1 0x80000 i j ∧
      dwtMarked blueMem 0x10000 0x8000 16 10 1 1 1 0x80000 i j < 255 * 2 ^ 16 + 2 ^ 15 := by
    decide +kernel
  exact fun i j hi hj => h i hi j hj

/-- A gray image for P3 and its payload. -/
def dctMem : Memory := writeBytes (writeBytes [] 0x8000 [0x41]) 0x10000 (List.replicate 10240 128)

theorem blue_dctMem {i j : Nat} (hi : i < 40) (hj : j < 64) :
    blue dctMem 0x10000 64 i j = 0x800000 := by
  unfold blue dctMem
  rw [Nat.add_assoc, readByte_writeBytes_inside (by rw [List.length_replicate]; omega),
    List.getElem_replicate]
  decide

theorem forwardBlock_congr {B B' : Nat → Nat → Int} (h : ∀ i j, i < 8 → j < 8 → B i j = B' i j)
    (u v : Nat) : forwardBlock B u v = forwardBlock B' u v := by
  unfold forwardBlock forwardSum forwardRows forwardSum
  congr 1
  refine Finset.sum_congr rfl fun i hi => ?_
  dsimp only
  congr 3
  refine Finset.sum_congr rfl fun n hn => ?_
  rw [h i n (Finset.mem_range.1 hi) (Finset.mem_range.1 hn)]

theorem inverseBlock_congr {X X' : Nat → Nat → Int}
    (h : ∀ u v, u < 8 → v < 8 → X u v = X' u v) {i j : Nat} :
    inverseBlock X i j = inverseBlock X' i j := by
  unfold inverseBlock inverseSum inverseColumns inverseSum
  congr 1
  refine Finset.sum_congr rfl fun v hv => ?_
  dsimp only
  congr 3
  refine Finset.sum_congr rfl fun u hu => ?_
  rw [h u v (Finset.mem_range.1 hu) (Finset.mem_range.1 hv)]

/-- The gray block after marking: no cell is near a clamp. -/
theorem gray_block_unclamped : ∀ S ∈ [(0x80000 : Int), 0x160000, 0x250000], ∀ t : Bool,
    ∀ i, i < 8 → ∀ j, j < 8 →
      (fun x : Int => 0 ≤ x ∧ x < 255 * 2 ^ 16) (sat32 (inverseBlock (fun u v =>
        if u = 3 ∧ v = 4 then sat32 (nudged 0 t S)
        else if u = 0 ∧ v = 0 then 0x3FFFFFF else 0) i j)) := by decide +kernel

theorem gray_block_coeffs : ∀ u, u < 8 → ∀ v, v < 8 →
    sat32 (forwardBlock (fun _ _ => 0x800000) u v) = if u = 0 ∧ v = 0 then 0x3FFFFFF else 0 := by
  decide +kernel

/-- P3's gray image with S = 8.0, 22.0 and 37.0, the bounds for a = 0, 1 and 2. -/
theorem test_witness_DctMarkSurvivesNoise :
    ∀ c ∈ [(0, 0x80000#32), (1, 0x160000#32), (2, 0x250000#32)],
    let s := accepted .dctemb { dctParams with strength := c.2 } dctMem
    let t := next (exec .dctemb s)
    let u := accepted .dctext
      { dctParams with strength := c.2, srcAddr := 0x20000, dstAddr := 0x8100 } t.mem
    Runs .dctemb s ∧ exec .dctemb s = .next t ∧ Runs .dctext u ∧ SameOptions s u ∧
    Unclamped s.snap.w.toNat s.snap.h.toNat (dctMarked s.mem s.snap.src.toNat
      s.snap.aux.toNat s.snap.w.toNat s.snap.h.toNat s.snap.len.toNat s.snap.r.toNat
      s.snap.s.toNat) ∧
    BlueWithin t u s.snap.dst.toNat s.snap.w.toNat s.snap.h.toNat c.1 ∧
    DctStrengthFor s.snap.s.toNat c.1 := by
  intro c hc s t u
  have hS : (c.2.toNat : Int) ∈ [(0x80000 : Int), 0x160000, 0x250000] := by
    simp only [List.mem_cons, List.not_mem_nil, or_false] at hc
    rcases hc with h | h | h <;> subst h <;> decide
  have hr : Runs .dctemb s := by
    refine runs_accepted (m := []) ?_ dctMem
    simp only [List.mem_cons, List.not_mem_nil, or_false] at hc
    rcases hc with h | h | h <;> subst h <;> unfold Runs <;> decide +kernel
  have hu : Runs .dctext (accepted .dctext
      { dctParams with strength := c.2, srcAddr := 0x20000, dstAddr := 0x8100 } []) := by
    simp only [List.mem_cons, List.not_mem_nil, or_false] at hc
    rcases hc with h | h | h <;> subst h <;> unfold Runs <;> decide +kernel
  have hf : (0xC000#32).toNat ≤ 0x10000 := by decide
  refine ⟨hr, eq_next_of_ran (by rw [exec_of_runs hr]; rfl), runs_accepted hu t.mem,
    ⟨rfl, rfl, rfl, rfl, hf⟩, ?_, blueWithin_same rfl rfl _, ?_⟩
  · intro i j hi hj
    replace hi : i < 40 := hi
    replace hj : j < 64 := hj
    show -(2 ^ 15) ≤ dctMarked dctMem 0x10000 0x8000 64 40 1 1 c.2.toNat i j ∧
      dctMarked dctMem 0x10000 0x8000 64 40 1 1 c.2.toNat i j < 255 * 2 ^ 16 + 2 ^ 15
    unfold dctMarked
    dsimp only
    split
    · have hb : (i / 8) * (64 / 8) + j / 8 < 40 := by omega
      generalize (i / 8) * (64 / 8) + j / 8 = b at hb
      have he : ∀ u v, u < 8 → v < 8 →
          markedCoeff (blockCell dctMem 0x10000 64 b) (frameBit dctMem 0x8000 1 (b / 1))
            c.2.toNat u v = if u = 3 ∧ v = 4 then
              sat32 (nudged 0 (frameBit dctMem 0x8000 1 (b / 1)) c.2.toNat)
            else if u = 0 ∧ v = 0 then 0x3FFFFFF else 0 := by
        intro u v hu hv
        have hf : ∀ u v, forwardBlock (blockCell dctMem 0x10000 64 b) u v =
            forwardBlock (fun _ _ => 0x800000) u v := by
          refine forwardBlock_congr fun i j hi hj => ?_
          exact blue_dctMem (by omega) (by omega)
        unfold markedCoeff
        rw [hf, hf, gray_block_coeffs 3 (by decide) 4 (by decide), gray_block_coeffs u hu v hv]
        simp
      rw [inverseBlock_congr he]
      have := gray_block_unclamped _ hS (frameBit dctMem 0x8000 1 (b / 1)) (i % 8)
        (Nat.mod_lt _ (by decide)) (j % 8) (Nat.mod_lt _ (by decide))
      simp only at this
      omega
    · rw [blue_dctMem hi hj]; decide
  · simp only [List.mem_cons, List.not_mem_nil, or_false] at hc
    rcases hc with h | h | h <;> subst h <;> unfold DctStrengthFor <;> decide +kernel

/-! The host interface. -/

theorem test_witness_RegisterWriteReadsBack :
    (0x09C, Reg.resPsnr, State.reset.results.psnr) ∈ registerReads State.reset ∧
      (registerWrites State.reset 1).length = 14 ∧ (0x008, 0x3) ∈ writableRegisters ∧ (0x044, 0xFFFFFFFF) ∈ writableRegisters ∧
      0x000 ∈ readOnlyOffsets ∧ 0x09C ∈ readOnlyOffsets := by decide

/-- A register, an unmapped offset, and a misaligned and a narrow access. -/
theorem test_witness_RegisterWindowAccesses :
    (0x09C < 4096 ∧ 0x09C % 4 = 0 ∧ Reg.ofOffset 0x09C = some .resPsnr) ∧
    (0xFFC < 4096 ∧ 0xFFC % 4 = 0 ∧ 0xFFC ∉ registerOffsets) ∧
    (0xFFF < 4096 ∧ 0xFFF % 4 ≠ 0) ∧ AccessSize.byte ≠ .word ∧
    ∃ s : State, ∃ rest, s.host = .regRead (s.platform.regBase + 0xFFC) .word :: rest :=
  ⟨by decide, by decide, by decide, by decide,
    { State.reset with host := [.regRead 0xFFC .word] }, [], rfl⟩

theorem test_witness_CommandWriteAcceptsOrOverruns :
    (accepted .nop base []).status.busy = true ∧ State.reset.status.busy = false := by decide

theorem test_witness_ParameterWritesMissCommand :
    (accepted .dct1d base []).status.busy = true ∧ (0x044, 0xFFFFFFFF) ∈ writableRegisters ∧
    (0x044 : Nat) ≠ 0x008 ∧ exec .dct1d (accepted .dct1d base []) =
      .next (next (exec .dct1d (accepted .dct1d base []))) :=
  ⟨by decide, by decide, by decide, eq_next_of_ran (by decide +kernel)⟩

/-- A reset while a command is in flight, and one while idle. -/
theorem test_witness_ResetInputRestores :
    ({ accepted .dct1d base [] with host := [.reset] } : State).host = .reset :: [] ∧
      ({ State.reset with host := [.reset] } : State).status.busy = false := by decide

/-- The last byte of a read region, and the byte after it. -/
theorem test_witness_HostWriteHazard :
    InFlightByte { accepted .dct1d base [] with host := [.memWrite 0x101F 1] } false 0x101F ∧
      ¬InFlightByte { accepted .dct1d base [] with host := [.memWrite 0x1020 1] } false 0x1020 := by
  constructor
  · exact ⟨rfl, .dct1d, rfl,
      { base := 0x1000, size := 32, access := .read, samples := true }, by decide +kernel⟩
  · rintro ⟨-, i, hi, r, hr, -, h1, h2⟩
    have hi' : i = .dct1d := by
      have : decode (accepted .dct1d base []).snap.word = .ok .dct1d := rfl
      rw [show decode _ = _ from hi] at this
      injection this
    subst hi'
    have hm : ∀ r ∈ regionRows .dct1d (accepted .dct1d base []).snap,
        r.base + r.size ≤ 0x1020 ∨ 0x2000 ≤ r.base := by decide +kernel
    have := hm r hr
    omega

/-- The first byte of the write region, and a byte of the read region. -/
theorem test_witness_HostReadDuringCommand :
    InFlightByte { accepted .dct1d base [] with host := [.memRead 0x2000] } true 0x2000 ∧
      ¬InFlightByte { accepted .dct1d base [] with host := [.memRead 0x1000] } true 0x1000 := by
  constructor
  · exact ⟨rfl, .dct1d, rfl,
      { base := 0x2000, size := 32, access := .write, samples := true }, by decide +kernel⟩
  · rintro ⟨-, i, hi, r, hr, hw, h1, h2⟩
    have hi' : i = .dct1d := by
      have : decode (accepted .dct1d base []).snap.word = .ok .dct1d := rfl
      rw [show decode _ = _ from hi] at this
      injection this
    subst hi'
    have hm : ∀ r ∈ regionRows .dct1d (accepted .dct1d base []).snap, r.access = .write →
        0x2000 ≤ r.base := by decide +kernel
    have := hm r hr (hw rfl)
    omega

/-- 70 R271, R276, R277: DCTEMB with S = 0 is going to fail with BAD_OPTION, and while it is in
flight its 256 bytes at SRC and DST are regions (30 R93): a host write to the last byte of either is
a hazard, and a read of DST and a reset make free draws. -/
theorem test_regions_of_failing_command :
    let s := accepted .dctemb { base with width := 8, height := 8, strength := 0 } []
    firstError .dctemb s.snap = some .badOption ∧
      (step { s with host := [.memWrite 0x10FF 1] } = .fault .hostHazard ∧
        step { s with host := [.memWrite 0x20FF 1] } = .fault .hostHazard) ∧
      (next (step { s with host := [.memWrite 0x2100 1] })).mem = [(0x2100, 1)] ∧
      (next (step { s with host := [.memRead 0x2000] })).draws = 1 ∧
      (next (step { s with host := [.reset] })).draws = 256 :=
  ⟨by decide +kernel, ⟨rfl, rfl⟩, by decide +kernel, by decide +kernel, by decide +kernel⟩

end Sys2Proof.Tests
end

section
/-! PROOFS. The laws of the host's side of the machine: one equation per kind of step (00 R19, 70
R282), the register window (10 R20, R21), and the words of STATUS and CTRL (10 R24, R25). -/

namespace Sys2Proof.Proofs

open Sys2Proof.Machine Sys2Proof.Claims

/-! ### One step -/

theorem step_of_host_nil {s : State} (h : s.host = []) : step s = sequencerStep s := by
  simp [step, h]

theorem step_of_pause {s : State} {rest : List HostOp} (h : s.host = .pause :: rest) :
    step s = sequencerStep { s with host := rest } := by
  simp [step, h]

theorem step_of_hostOp {s : State} {op : HostOp} {rest : List HostOp} (h : s.host = op :: rest)
    (hop : op ≠ .pause) : step s = hostStep op { s with host := rest } := by
  cases op
  case pause => contradiction
  all_goals simp [step, h]

/-- What a step that answers a next state was: the sequencer's, or an access of the host. Either
starts from the state itself but for the host's list. -/
theorem step_cases {s t : State} (h : step s = .next t) :
    (∃ rest, sequencerStep { s with host := rest } = .next t) ∨
      ∃ op rest, hostStep op { s with host := rest } = .next t := by
  match hh : s.host with
  | [] => rw [step_of_host_nil hh] at h; exact .inl ⟨s.host, h⟩
  | op :: rest =>
    by_cases hop : op = .pause
    · subst hop; rw [step_of_pause hh] at h; exact .inl ⟨rest, h⟩
    · rw [step_of_hostOp hh hop] at h; exact .inr ⟨op, rest, h⟩

theorem sequencerStep_of_idle {s : State} (h : s.status.busy = false) :
    sequencerStep s = .next s := by
  simp [sequencerStep, h]

theorem sequencerStep_of_decode {s : State} {i : Instr} (hb : s.status.busy = true)
    (h : decode s.snap.word = .ok i) : sequencerStep s = exec i s := by
  simp [sequencerStep, hb, h]

theorem sequencerStep_of_illegal {s : State} {e : DecodeError} (hb : s.status.busy = true)
    (h : decode s.snap.word = .error e) :
    sequencerStep s = .next (errorCompletion .illegalCmd s) := by
  simp [sequencerStep, hb, h]

/-! ### The register window -/

/-- The offset in the window of an address given by its offset (10 R20). -/
@[simp] theorem windowOffset_add (f : Platform) {off : Nat} (h : off < 4096) :
    windowOffset f (f.regBase + off) = some off := by
  simp [windowOffset, h]

theorem alignedWord_iff (size : AccessSize) (off : Nat) :
    alignedWord size off = true ↔ size = .word ∧ off % 4 = 0 := by
  simp [alignedWord]

/-- A host register write does nothing or writes one register (10 R20). -/
theorem hostRegWrite_cases (addr : Nat) (size : AccessSize) (v : Word) (s : State) :
    hostRegWrite addr size v s = s ∨ ∃ r, hostRegWrite addr size v s = writeReg r v s := by
  unfold hostRegWrite
  split
  · exact .inl rfl
  · split
    · split
      · next r _ => exact .inr ⟨r, rfl⟩
      · exact .inl rfl
    · exact .inl rfl

section
variable {s : State} {off : Nat} {size : AccessSize} (v : Word) (hoff : off < 4096)
include hoff

theorem hostRegWrite_mapped {r : Reg} (ha : alignedWord size off = true)
    (hr : Reg.ofOffset off = some r) :
    hostRegWrite (s.platform.regBase + off) size v s = writeReg r v s := by
  simp [hostRegWrite, hoff, ha, hr]

theorem hostRegWrite_unmapped (hr : Reg.ofOffset off = none) :
    hostRegWrite (s.platform.regBase + off) size v s = s := by
  simp [hostRegWrite, hoff, hr]

theorem hostRegWrite_narrow (ha : alignedWord size off = false) :
    hostRegWrite (s.platform.regBase + off) size v s = s := by
  simp [hostRegWrite, hoff, ha]

theorem hostRegRead_mapped {r : Reg} (ha : alignedWord size off = true)
    (hr : Reg.ofOffset off = some r) :
    hostRegRead (s.platform.regBase + off) size s = { s with rdata := readReg s r } := by
  simp [hostRegRead, hoff, ha, hr]

theorem hostRegRead_unmapped (ha : alignedWord size off = true) (hr : Reg.ofOffset off = none) :
    hostRegRead (s.platform.regBase + off) size s = { s with rdata := 0 } := by
  simp [hostRegRead, hoff, ha, hr]

theorem hostRegRead_narrow (ha : alignedWord size off = false) :
    hostRegRead (s.platform.regBase + off) size s =
      { s with rdata := Config.freeWord s.draws, draws := s.draws + 1 } := by
  simp [hostRegRead, hoff, ha]

end

/-- The offsets that name a register are those of the register map (10 R21). -/
theorem ofOffset_ne_none_iff (off : Nat) : Reg.ofOffset off ≠ none ↔ off ∈ registerOffsets := by
  constructor
  · intro h
    unfold Reg.ofOffset at h
    split at h
    case h_27 => contradiction
    all_goals simp [registerOffsets]
  · have mapped : ∀ o ∈ registerOffsets, Reg.ofOffset o ≠ none := by decide
    exact mapped off

/-! ### The words of STATUS and CTRL -/

theorem toNat_append_eq_add {m n : Nat} (x : BitVec m) (y : BitVec n) :
    (x ++ y).toNat = x.toNat * 2 ^ n + y.toNat := by
  rw [BitVec.toNat_append, ← Nat.shiftLeft_add_eq_or_of_lt y.isLt, Nat.shiftLeft_eq]

theorem toNat_code (e : ErrCode) : e.code.toNat = codeNumber e := by
  cases e <;> rfl

/-- The word STATUS reads, as the sum of its bits (10 R25). -/
theorem toNat_statusToWord (st : Status) : st.toWord.toNat = statusWord st := by
  simp only [Status.toWord, statusWord, toNat_append_eq_add, BitVec.toNat_ofBool]
  cases st.errcode with
  | none => simp [errcodeByte]; omega
  | some e => simp [errcodeByte, toNat_code]; omega

/-- The bits of the word STATUS reads (10 R25). -/
theorem getLsbD_statusToWord (st : Status) (k : Nat) : st.toWord.getLsbD k =
    match k with
    | 0 => st.busy
    | 1 => st.done
    | 2 => st.err
    | 3 => st.sat
    | 4 => st.detect
    | 5 => st.psnrPass
    | 6 => st.psnrInf
    | 7 => st.cmdOvr
    | k + 8 => (errcodeByte st.errcode).getLsbD k := by
  unfold Status.toWord
  change BitVec.getLsbD (w := 16 + 8 + 1 + 1 + 1 + 1 + 1 + 1 + 1 + 1) _ k = _
  simp only [BitVec.getLsbD_append, BitVec.getLsbD_ofBool]
  match k with
  | 0 | 1 | 2 | 3 | 4 | 5 | 6 | 7 => simp
  | k + 8 => simpa using BitVec.lt_of_getLsbD

theorem ctrlToWord_eq (c : Ctrl) :
    c.toWord = BitVec.ofNat 32 (c.ieDone.toNat + 2 * c.ieErr.toNat) := by
  obtain ⟨d, e⟩ := c
  cases d <;> cases e <;> rfl

/-- The bits of the word CTRL reads (10 R24). -/
theorem getLsbD_ctrlToWord (c : Ctrl) (k : Nat) : c.toWord.getLsbD k =
    match k with
    | 0 => c.ieDone
    | 1 => c.ieErr
    | _ + 2 => false := by
  unfold Ctrl.toWord
  change BitVec.getLsbD (w := 30 + 1 + 1) _ k = _
  simp only [BitVec.getLsbD_append, BitVec.getLsbD_ofBool]
  match k with
  | 0 | 1 => simp
  | k + 2 => simp

end Sys2Proof.Proofs
end

section
/-! PROOFS. What a command does to the memory, said once: writes, each inside one of its write
regions (20 R75). -/

namespace Sys2Proof.Proofs

open Sys2Proof.Machine Sys2Proof.Laws

/-! ### Writes inside regions -/

/-- The second memory comes from the first by writes, each from the base of a region of the list
and no longer than that region. -/
inductive Writes (rs : List Region) : Memory → Memory → Prop
  | refl (m : Memory) : Writes rs m m
  | put {m m' : Memory} {r : Region} {bs : List Byte} (hm : Writes rs m m') (hr : r ∈ rs)
      (hl : bs.length ≤ r.size) : Writes rs m (writeBytes m' r.base bs)

theorem Writes.draw {rs : List Region} {m : Memory} {r : Region} {s : State}
    (hm : Writes rs m s.mem) (hr : r ∈ rs) : Writes rs m (drawRegion r s).mem := by
  rw [drawRegion_mem]
  exact hm.put hr (by rw [length_freeBytes]; exact Nat.min_le_left _ _)

theorem Writes.draws {rs qs : List Region} {m : Memory} {s : State}
    (hm : Writes rs m s.mem) (hq : ∀ q ∈ qs, q ∈ rs) : Writes rs m (drawRegions qs s).mem := by
  induction qs generalizing s with
  | nil => exact hm
  | cons q qs ih => exact ih (hm.draw (hq q (by simp))) fun q' h' => hq q' (by simp [h'])

/-- Writes leave every byte outside the regions alone. -/
theorem Writes.readByte_eq {rs : List Region} {m m' : Memory} (h : Writes rs m m') {a : Nat}
    (ha : ∀ r ∈ rs, ¬(r.base ≤ a ∧ a < r.base + r.size)) : readByte m' a = readByte m a := by
  induction h with
  | refl => rfl
  | put hm hr hl ih =>
    rw [readByte_writeBytes_outside, ih]
    have := ha _ hr
    omega

/-- Writes inside regions that lie below 2^32 keep the canonical form (20 R60). -/
theorem Writes.wf {rs : List Region} {m m' : Memory} (h : Writes rs m m')
    (hrs : ∀ r ∈ rs, r.size = 0 ∨ r.base + r.size ≤ 2 ^ 32) (hm : Memory.wf m = true) :
    Memory.wf m' = true := by
  induction h with
  | refl => exact hm
  | @put m' r bs _ hr hl ih =>
    apply wf_writeBytes ih
    rcases hrs _ hr with h0 | hb
    · exact .inl (List.length_eq_zero_iff.1 (by omega))
    · exact .inr (by omega)

/-! ### The lengths of what the commands write -/

theorem mem_writeRegions {i : Instr} {p : Snapshot} {r : Region} :
    r ∈ writeRegions i p ↔ r ∈ regions i p ∧ r.access = .write := by
  simp [writeRegions, Region.isWrite]

theorem length_layoutSamples_dwt {A : Mat} {h w : Nat} (hA : Shaped h w A) (lv : Nat) :
    (layoutSamples (dwt A h w lv).val).length = layoutWords h w lv := by
  obtain ⟨hb, hl⟩ := shaped_dwt hA lv
  rw [length_layoutSamples hb (by rwa [length_dwt_details]), length_dwt_details]

theorem shaped_idwt_loadLayout (m : Memory) (a h w lv : Nat) :
    Shaped h w (idwt (loadLayout m a h w lv).ll (loadLayout m a h w lv).details h w).val :=
  shaped_idwt (by rw [length_loadLayout]; exact (shaped_loadLayout m a h w lv).2)

@[simp] theorem length_dctBits (pix : List Byte) (w h : Nat) (S : Int) :
    (dctBits pix w h S).val.length = dctBlocks w h := by
  simp [dctBits]

/-- One bit per coefficient of HH of the deepest level (43 R205). -/
theorem length_dwtBits {pix : List Byte} {w h lv : Nat} (hp : pix.length = 4 * (w * h))
    (hlv : 1 ≤ lv) (S : Int) : (dwtBits pix w h S lv).val.length = dwtCoeffs w h lv := by
  have hM : Shaped (alignedSize h lv) (alignedSize w lv) (topLeft (chext pix w h) _ _) :=
    shaped_topLeft (shaped_chext hp) (alignedSize_le h lv) (alignedSize_le w lv)
  have hd := (shaped_dwt hM lv).1
  have hHH := shaped_deepestHH hd (List.length_pos_iff.1 (by rwa [length_dwt_details]))
  rw [length_dwt_details, deepSize_alignedSize, deepSize_alignedSize] at hHH
  calc (dwtBits pix w h S lv).val.length = _ := List.length_map _
    _ = (h / 2 ^ lv) * (w / 2 ^ lv) := length_flatten hHH
    _ = dwtCoeffs w h lv := by rw [dwtCoeffs_eq, Nat.mul_comm]

@[simp] theorem length_dctEmbed (pix : List Byte) (w h : Nat) (payload : List Byte) (S : Int)
    (r : Nat) : (dctEmbed pix w h payload S r).val.length = pix.length := by
  simp [dctEmbed]

@[simp] theorem length_dwtEmbed (pix : List Byte) (w h : Nat) (payload : List Byte) (S : Int)
    (r lv : Nat) : (dwtEmbed pix w h payload S r lv).val.length = pix.length := by
  simp [dwtEmbed]

/-! ### The writes of each operation -/

@[simp] theorem psnrReport_mem (n D : Nat) (s : State) : (psnrReport n D s).mem = s.mem := by
  unfold psnrReport; split <;> rfl

/-- Bytes written from the base of a region marked W. -/
theorem Writes.bytes {i : Instr} {p : Snapshot} {m : Memory} {a n : Nat} {bs : List Byte}
    (hr : writeBytesAt a n ∈ regions i p) (hl : bs.length ≤ n) :
    Writes (writeRegions i p) m (writeBytes m a bs) :=
  (Writes.refl m).put (mem_writeRegions.2 ⟨hr, rfl⟩) hl

/-- Samples written from the base of a region marked W and S. -/
theorem Writes.samples {i : Instr} {p : Snapshot} {m : Memory} {a n : Nat} {xs : List Int}
    (hr : writeSamplesAt a n ∈ regions i p) (hl : 4 * xs.length ≤ n) :
    Writes (writeRegions i p) m (writeBytes m a (sampleBytes xs)) :=
  (Writes.refl m).put (mem_writeRegions.2 ⟨hr, rfl⟩) (by rwa [length_sampleBytes])

/-- The scratch region of the DWT codec is one of the write regions. -/
theorem Writes.scratch {i : Instr} {s : State} {m : Memory}
    (hm : Writes (writeRegions i s.snap) m s.mem)
    (hr : writeSamplesAt s.snap.scrAddr s.snap.scratchBytes ∈ regions i s.snap) :
    Writes (writeRegions i s.snap) m (drawScratch s).mem :=
  hm.draw (mem_writeRegions.2 ⟨hr, rfl⟩)

/-- An extraction writes its payload, which fits the capacity of the carrier, or nothing. -/
theorem Writes.decoded {i : Instr} {p : Snapshot} {m : Memory} {s : State} {dst r n fl : Nat}
    {bits : List Bool} (hm : Writes (writeRegions i p) m s.mem) (hr : 1 ≤ r)
    (hdst : writeBytesAt dst (capBytes n r) ∈ regions i p) (hn : bits.length = n) :
    Writes (writeRegions i p) m (reportDecode dst (decodeStream bits r fl) s).mem := by
  subst hn
  cases hd : decodeStream bits r fl with
  | none => exact hm
  | some d => exact hm.put (mem_writeRegions.2 ⟨hdst, rfl⟩) (length_payload_le hr hd)

/-- A command that runs writes inside its write regions only (20 R75). -/
theorem writes_operationOf {i : Instr} {s : State} (h : Runs i s) :
    Writes (writeRegions i s.snap) s.mem (operationOf i s).mem := by
  have hpix : (loadBytes s.mem s.snap.srcAddr s.snap.imageBytes).length =
      4 * (s.snap.width * s.snap.height) := length_loadBytes _ _ _
  cases i with
  | nop => exact .refl _
  | dctcap => exact .refl _
  | dwtcap => exact .refl _
  | psnr =>
    rw [show (operationOf .psnr s).mem = s.mem from psnrReport_mem _ _ _]
    exact .refl _
  | dct1d => exact .samples (n := 32) (by simp [regions]) (by simp)
  | idct1d => exact .samples (n := 32) (by simp [regions]) (by simp)
  | dct2d =>
    exact .samples (n := 256) (by simp [regions]) (by rw [length_flatten (shaped_dct2d _)])
  | idct2d =>
    exact .samples (n := 256) (by simp [regions]) (by rw [length_flatten (shaped_idct2d _)])
  | dwt2d =>
    exact .samples (n := s.snap.layoutBytes) (by simp [regions])
      (by rw [length_layoutSamples_dwt (shaped_loadMatrix _ _ _ _)]; rfl)
  | idwt2d =>
    exact .samples (n := s.snap.imageBytes) (by simp [regions])
      (by rw [length_flatten (shaped_idwt_loadLayout _ _ _ _ _), Nat.mul_comm s.snap.height]; rfl)
  | chext =>
    exact .samples (n := s.snap.imageBytes) (by simp [regions])
      (by rw [length_flatten (shaped_chext hpix), Nat.mul_comm s.snap.height]; rfl)
  | chrst => exact .bytes (n := s.snap.imageBytes) (by simp [regions]) (by simp)
  | qembed => exact .samples (n := 4 * s.snap.length) (by simp [regions]) (by simp)
  | qextract => exact .bytes (n := ceilDiv s.snap.length 8) (by simp [regions]) (by simp)
  | pack =>
    exact .bytes (n := ceilDiv (streamBits s.snap.length s.snap.redundancy) 8) (by simp [regions])
      (by simp [streamBits])
  | unpack =>
    exact .decoded (.refl _) (runs_redundancy h rfl) (n := s.snap.bitcap) (by simp [regions])
      (length_loadBits _ _ _)
  | dctemb => exact .bytes (n := s.snap.imageBytes) (by simp [regions]) (by simp)
  | dctext =>
    exact .decoded (.refl _) (runs_redundancy h rfl) (n := s.snap.blocks) (by simp [regions])
      (length_dctBits _ _ _ _)
  | dwtemb =>
    exact .scratch (s := noteSat _ (putBytes _ _ s))
      (.bytes (n := s.snap.imageBytes) (by simp [regions]) (by simp)) (by simp [regions])
  | dwtext =>
    exact .decoded (.scratch (s := noteSat _ s) (.refl _) (by simp [regions]))
      (runs_redundancy h rfl) (n := s.snap.coeffs) (by simp [regions])
      (length_dwtBits hpix (runs_levels h rfl).1 _)

/-- What a command that answers a next state does to the memory: nothing at a check error, and
otherwise writes inside its write regions, which lie below 2^32 (60 R243 to R245, 20 R69). -/
theorem exec_mem_cases {i : Instr} {s t : State} (h : exec i s = .next t) :
    t.mem = s.mem ∨ (firstError i s.snap = none ∧ Writes (writeRegions i s.snap) s.mem t.mem) := by
  rcases exec_cases h with ⟨e, -, rfl⟩ | ⟨hn, -, rfl⟩ | ⟨hr, rfl⟩
  · exact .inl rfl
  · exact .inr ⟨hn, (Writes.refl _).draws fun _ hq => hq⟩
  · exact .inr ⟨hr.1, writes_operationOf hr⟩

/-- Every command keeps the canonical form of the memory (20 R60). -/
theorem wf_exec {i : Instr} {s t : State} (h : exec i s = .next t) (hm : Memory.wf s.mem = true) :
    Memory.wf t.mem = true := by
  rcases exec_mem_cases h with he | ⟨hn, hw⟩
  · rwa [he]
  · exact hw.wf (fun r hr => region_le_of_runs hn (mem_writeRegions.1 hr).1) hm

end Sys2Proof.Proofs
end

section
/-! PROOFS. Every step keeps the invariant of the machine (10 R29, R44 to R46, 60 R240 to R243). -/

namespace Sys2Proof.Proofs

open Sys2Proof.Machine Sys2Proof.Laws

/-! ### Flags and results while a command computes -/

/-- What holds of flags and results from acceptance to completion: no error, RES_LENGTH and
RES_CONF as DETECT says (10 R45), RES_CONF at most 1.0 (41 R156), PSNR_INF with its result (40
R130). -/
def Reported (s : State) : Prop :=
  s.status.err = false ∧ s.status.errcode = none ∧
    (s.status.detect = false → s.results.length = 0 ∧ s.results.conf = 0) ∧
    s.results.conf.toNat ≤ 65536 ∧
    (s.status.psnrInf = true → s.status.psnrPass = true ∧ s.results.psnr = 0x7FFFFFFF)

theorem reported_of_clear {s : State} (h : s.clear) : Reported s := by
  obtain ⟨-, herr, -, -, -, hinf, hcode, hres⟩ := h
  simp [Reported, herr, hcode, hinf, hres, Results.zero]

section
variable (s : State)

@[simp] theorem reported_noteSat (c : Bool) : Reported (noteSat c s) ↔ Reported s := Iff.rfl
@[simp] theorem reported_putBytes (a : Nat) (bs : List Byte) :
    Reported (putBytes a bs s) ↔ Reported s := Iff.rfl
@[simp] theorem reported_putSamples (a : Nat) (xs : List Int) :
    Reported (putSamples a xs s) ↔ Reported s := Iff.rfl
@[simp] theorem reported_drawScratch : Reported (drawScratch s) ↔ Reported s := Iff.rfl
@[simp] theorem reported_reportCapacity (n r : Nat) :
    Reported (reportCapacity n r s) ↔ Reported s := Iff.rfl
@[simp] theorem reported_reportUnits (n : Nat) : Reported (reportUnits n s) ↔ Reported s := Iff.rfl
@[simp] theorem reported_reportEmbedded (n r : Nat) :
    Reported (reportEmbedded n r s) ↔ Reported s := Iff.rfl

end

/-- A decode reports a confidence of at most 1.0 (41 R156). -/
theorem conf_le_of_decodeStream {s : List Bool} {r fl : Nat} {d : Decoded}
    (h : decodeStream s r fl = some d) : d.conf ≤ 65536 := by
  obtain ⟨-, -, -, -, hconf⟩ := decodeStream_eq_some h
  rw [hconf]
  apply Nat.div_le_of_le_mul
  exact Nat.mul_le_mul_right _ (totalAgreement_bounds s r _).2

/-- Both ends of an extraction report as 10 R45 and 60 R247 say. -/
theorem reported_reportDecode {dst : Nat} {bits : List Bool} {r fl : Nat} {s : State}
    (h : Reported s) : Reported (reportDecode dst (decodeStream bits r fl) s) := by
  obtain ⟨herr, hcode, -, -, hinf⟩ := h
  cases hd : decodeStream bits r fl with
  | none => simpa [Reported, reportDecode, herr, hcode] using hinf
  | some d =>
    have hconf := conf_le_of_decodeStream hd
    refine ⟨herr, hcode, by simp [reportDecode], ?_, hinf⟩
    calc (BitVec.ofNat 32 d.conf).toNat ≤ d.conf := Nat.mod_le _ _
      _ ≤ 65536 := hconf

/-- PSNR reports its infinity with PSNR_PASS and 0x7FFFFFFF, and no infinity otherwise (40 R130). -/
theorem reported_psnrReport {n D : Nat} {s : State} (h : s.clear) :
    Reported (psnrReport n D s) := by
  obtain ⟨-, herr, -, -, -, hinf, hcode, hres⟩ := h
  unfold psnrReport
  split <;> simp [Reported, herr, hcode, hinf, hres, Results.zero]

/-- Every command's operation, begun with flags and results clear, keeps them in order. -/
theorem reported_operationOf (i : Instr) {s : State} (h : s.clear) :
    Reported (operationOf i s) := by
  have hs := reported_of_clear h
  cases i
  case psnr => exact reported_psnrReport h
  case unpack => exact reported_reportDecode (by simpa using hs)
  case dctext => exact reported_reportDecode (by simpa using hs)
  case dwtext => exact reported_reportDecode (by simpa using hs)
  all_goals exact hs

/-! ### Updates that keep the invariant -/

/-- The invariant speaks of flags, results, snapshot, LAST_CMD and memory only. -/
theorem inv_of_eq {s t : State} (h : s.Inv) (hst : t.status = s.status)
    (hres : t.results = s.results) (hsnap : t.snap = s.snap) (hcmd : t.lastCmd = s.lastCmd)
    (hmem : Memory.wf t.mem = true) : t.Inv where
  mem_wf := hmem
  busy_clear := by unfold State.clear; rw [hst, hres]; exact h.busy_clear
  done_or_err := by rw [hst]; exact h.done_or_err
  err_code := by rw [hst]; exact h.err_code
  done_code := by rw [hst]; exact h.done_code
  code_clear := by rw [hst, hres]; exact h.code_clear
  no_detect := by rw [hst, hres]; exact h.no_detect
  conf_le := by rw [hres]; exact h.conf_le
  psnr_inf := by rw [hst, hres]; exact h.psnr_inf
  busy_word := by rw [hst, hsnap, hcmd]; exact h.busy_word

theorem inv_withHost {s : State} (h : s.Inv) (rest : List HostOp) :
    State.Inv { s with host := rest } := inv_of_eq h rfl rfl rfl rfl h.mem_wf

/-- CMD_OVR is free of the other flags (10 R32). -/
theorem inv_withCmdOvr {s : State} (h : s.Inv) (b : Bool) :
    State.Inv { s with status := { s.status with cmdOvr := b } } where
  mem_wf := h.mem_wf
  busy_clear := h.busy_clear
  done_or_err := h.done_or_err
  err_code := h.err_code
  done_code := h.done_code
  code_clear := h.code_clear
  no_detect := h.no_detect
  conf_le := h.conf_le
  psnr_inf := h.psnr_inf
  busy_word := h.busy_word

/-- A write-one-to-clear only takes DONE and ERR away (10 R33). -/
theorem inv_writeOneToClear {s : State} (h : s.Inv) (v : Word) :
    State.Inv { s with status := s.status.writeOneToClear v } where
  mem_wf := h.mem_wf
  busy_clear := fun hb => by
    obtain ⟨hdone, herr, hrest⟩ := h.busy_clear hb
    exact ⟨by simp [Status.writeOneToClear, hdone], by simp [Status.writeOneToClear, herr],
      hrest⟩
  done_or_err := fun ⟨hd, he⟩ =>
    h.done_or_err ⟨(Bool.and_eq_true_iff.1 hd).1, (Bool.and_eq_true_iff.1 he).1⟩
  err_code := fun he => h.err_code (Bool.and_eq_true_iff.1 he).1
  done_code := fun hd => h.done_code (Bool.and_eq_true_iff.1 hd).1
  code_clear := h.code_clear
  no_detect := h.no_detect
  conf_le := h.conf_le
  psnr_inf := h.psnr_inf
  busy_word := h.busy_word

/-- The snapshot of a command word holds that word (30 R90, 10 R44). -/
@[simp] theorem word_latch (c : Word) (q : Params) : (latch c q).word = c := by
  have h : (latch c q).word = c.extractLsb' 0 32 :=
    BitVec.extractLsb'_append_extractLsb'_eq_extractLsb' rfl
  rw [h, BitVec.extractLsb'_eq_self]

/-- Flags and results 0, no command in flight or one that has just been accepted. -/
theorem inv_of_clear {s : State} (hc : s.clear) (hm : Memory.wf s.mem = true)
    (hw : s.status.busy = true → s.snap.word = s.lastCmd) : s.Inv := by
  have hclear := hc
  obtain ⟨hdone, herr, hsat, hdet, hpass, hinf, hcode, hres⟩ := hc
  exact
    { mem_wf := hm
      busy_clear := fun _ => hclear
      done_or_err := by simp [hdone]
      err_code := by simp [herr]
      done_code := by simp [hdone]
      code_clear := by simp [hcode]
      no_detect := by simp [hres, Results.zero]
      conf_le := by simp [hres, Results.zero]
      psnr_inf := by simp [hinf]
      busy_word := hw }

theorem clear_accept (c : Word) (s : State) : (accept c s).clear :=
  ⟨rfl, rfl, rfl, rfl, rfl, rfl, rfl, rfl⟩

theorem clear_resetInput (s : State) : (resetInput s).clear :=
  ⟨rfl, rfl, rfl, rfl, rfl, rfl, rfl, rfl⟩

theorem inv_accept {s : State} (h : s.Inv) (c : Word) : (accept c s).Inv :=
  inv_of_clear (clear_accept c s) h.mem_wf fun _ => word_latch c s.params

theorem inv_writeCmd {s : State} (h : s.Inv) (c : Word) : (writeCmd c s).Inv := by
  unfold writeCmd
  split
  · exact inv_withCmdOvr h true
  · exact inv_accept h c

theorem inv_writeReg {s : State} (h : s.Inv) (r : Reg) (v : Word) : (writeReg r v s).Inv := by
  cases r
  case status => exact inv_writeOneToClear h v
  case cmd => exact inv_writeCmd h v
  all_goals exact inv_of_eq h rfl rfl rfl rfl h.mem_wf

/-! ### Accesses of the host -/

theorem inv_hostRegWrite {s : State} (h : s.Inv) (addr : Nat) (size : AccessSize) (v : Word) :
    (hostRegWrite addr size v s).Inv := by
  rcases hostRegWrite_cases addr size v s with he | ⟨r, he⟩ <;> rw [he]
  · exact h
  · exact inv_writeReg h r v

/-- A register read touches the host's own read value and the count of free draws only. -/
theorem inv_hostRegRead {s : State} (h : s.Inv) (addr : Nat) (size : AccessSize) :
    (hostRegRead addr size s).Inv := by
  unfold hostRegRead
  repeat' split
  all_goals exact inv_of_eq h rfl rfl rfl rfl h.mem_wf

theorem inv_hostMemRead {s : State} (h : s.Inv) (addr : Word) : (hostMemRead addr s).Inv := by
  unfold hostMemRead
  split <;> exact inv_of_eq h rfl rfl rfl rfl h.mem_wf

theorem inv_hostMemWrite {s t : State} (h : s.Inv) {addr : Word} {b : Byte}
    (ht : hostMemWrite addr b s = .next t) : t.Inv := by
  unfold hostMemWrite at ht
  split at ht
  · contradiction
  · cases ht
    have hlt : addr.toNat + [b].length ≤ 2 ^ 32 := addr.isLt
    exact inv_of_eq h rfl rfl rfl rfl (wf_writeBytes h.mem_wf (.inr hlt))

theorem inv_resetInput {s : State} (h : s.Inv) : (resetInput s).Inv := by
  refine inv_of_clear (clear_resetInput s) ?_ fun hb => ?_
  case refine_2 => cases hb
  refine wf_drawRegions h.mem_wf fun r hr => ?_
  obtain ⟨-, i, -, hi⟩ := mem_activeRegions.1 (mem_abandonedRegions.1 hr).1
  exact region_base_lt hi

theorem inv_hostStep {s t : State} (h : s.Inv) {op : HostOp} (ht : hostStep op s = .next t) :
    t.Inv := by
  cases op
  case memWrite => exact inv_hostMemWrite h ht
  all_goals cases ht
  case regWrite => exact inv_hostRegWrite h _ _ _
  case regRead => exact inv_hostRegRead h _ _
  case memRead => exact inv_hostMemRead h _
  case reset => exact inv_resetInput h
  case pause => exact h

/-! ### Completion -/

/-- A success after an operation that left flags and results in order (60 R240). -/
theorem inv_finish {s : State} (h : Reported s) (hm : Memory.wf s.mem = true) :
    (finish s).Inv := by
  obtain ⟨herr, hcode, hdet, hconf, hinf⟩ := h
  exact
    { mem_wf := hm
      busy_clear := by simp [Status.succeeded]
      done_or_err := by simp [Status.succeeded, herr]
      err_code := by simp [Status.succeeded, herr]
      done_code := fun _ => hcode
      code_clear := by simp [Status.succeeded, hcode]
      no_detect := hdet
      conf_le := hconf
      psnr_inf := hinf
      busy_word := by simp [Status.succeeded] }

/-- An error completion of a state whose flags and results are clear (60 R243). -/
theorem inv_errorCompletion {s : State} (hc : s.clear) (hm : Memory.wf s.mem = true)
    (e : ErrCode) : (errorCompletion e s).Inv := by
  obtain ⟨-, -, hsat, hdet, hpass, hinf, -, hres⟩ := hc
  exact
    { mem_wf := hm
      busy_clear := by simp [Status.failed]
      done_or_err := by simp [Status.failed]
      err_code := by simp [Status.failed]
      done_code := by simp [Status.failed]
      code_clear := fun _ => ⟨hres, hsat, hdet, hpass, hinf⟩
      no_detect := by simp [hres, Results.zero]
      conf_le := by simp [hres, Results.zero]
      psnr_inf := by simp [Status.failed, hinf]
      busy_word := by simp [Status.failed] }

theorem clear_drawRegions {s : State} (h : s.clear) (rs : List Region) :
    (drawRegions rs s).clear := by
  rw [drawRegions_eq]; exact h

/-- A command in flight completes into a state of the invariant, in each of its three ways (60
R241). -/
theorem inv_exec {i : Instr} {s t : State} (h : s.Inv) (hb : s.status.busy = true)
    (ht : exec i s = .next t) : t.Inv := by
  have hc := h.busy_clear hb
  have hm := wf_exec ht h.mem_wf
  rcases exec_cases ht with ⟨e, -, rfl⟩ | ⟨-, -, rfl⟩ | ⟨-, rfl⟩
  · exact inv_errorCompletion hc hm e
  · exact inv_errorCompletion (clear_drawRegions hc _) hm .busError
  · exact inv_finish (reported_operationOf i hc) hm

theorem inv_sequencerStep {s t : State} (h : s.Inv) (ht : sequencerStep s = .next t) : t.Inv := by
  cases hb : s.status.busy with
  | false => rw [sequencerStep_of_idle hb] at ht; cases ht; exact h
  | true =>
    cases hd : decode s.snap.word with
    | ok i => rw [sequencerStep_of_decode hb hd] at ht; exact inv_exec h hb ht
    | error e =>
      rw [sequencerStep_of_illegal hb hd] at ht
      cases ht
      exact inv_errorCompletion (h.busy_clear hb) h.mem_wf .illegalCmd

/-- Settles O7: the step is the sequencer's or an access of the host, and each keeps the
invariant. -/
theorem stepKeepsInvariant : Obligations.StepKeepsInvariant := by
  intro s t h ht
  rcases step_cases ht with ⟨rest, hq⟩ | ⟨op, rest, ho⟩
  · exact inv_sequencerStep (inv_withHost h rest) hq
  · exact inv_hostStep (inv_withHost h rest) ho

end Sys2Proof.Proofs
end

section
/-! PROOFS. The register window as the host sees it (10 R20 to R25, R33, R34, R44, R47). -/

namespace Sys2Proof.Proofs

open Sys2Proof.Machine Sys2Proof.Claims

/-! ### Reads and writes of one register -/

/-- Every register but CMD and STATUS is one field of CTRL or of the parameters, or read-only. -/
theorem writeReg_frame {r : Reg} (hcmd : r ≠ .cmd) (hstatus : r ≠ .status) (v : Word) (s : State) :
    writeReg r v s =
      { s with ctrl := (writeReg r v s).ctrl, params := (writeReg r v s).params } := by
  cases r
  case cmd => contradiction
  case status => contradiction
  all_goals rfl

/-- A write to such a register leaves what every other register reads. -/
theorem readReg_writeReg_of_ne {r r' : Reg} (hcmd : r ≠ .cmd) (hstatus : r ≠ .status)
    (hne : r' ≠ r) (v : Word) (s : State) : readReg (writeReg r v s) r' = readReg s r' := by
  cases r
  case cmd => contradiction
  case status => contradiction
  all_goals
    cases r' <;> first
      | contradiction
      | rfl

theorem getLsbD_lowMask {n k : Nat} (hk : k < 32) :
    (BitVec.ofNat 32 (2 ^ n - 1)).getLsbD k = decide (k < n) := by
  rw [BitVec.getLsbD_ofNat, Nat.testBit_two_pow_sub_one, decide_eq_true hk, Bool.true_and]

/-- A word stored in a narrower field reads back without its upper bits (10 R20). -/
theorem setWidth_setWidth_eq_and {n : Nat} (v : Word) :
    (v.setWidth n).setWidth 32 = v &&& BitVec.ofNat 32 (2 ^ n - 1) := by
  apply BitVec.eq_of_getLsbD_eq
  intro k hk
  rw [BitVec.getLsbD_and, getLsbD_lowMask hk, BitVec.getLsbD_setWidth, BitVec.getLsbD_setWidth,
    decide_eq_true hk, Bool.true_and, Bool.and_comm]

/-- CTRL keeps its two bits (10 R24). -/
theorem toWord_ctrlOfWord (v : Word) : (Ctrl.ofWord v).toWord = v &&& 0x3 := by
  apply BitVec.eq_of_getLsbD_eq
  intro k hk
  have hmask : (0x3 : Word).getLsbD k = decide (k < 2) := getLsbD_lowMask (n := 2) hk
  rw [BitVec.getLsbD_and, getLsbD_ctrlToWord, hmask]
  match k with
  | 0 | 1 => simp [Ctrl.ofWord]
  | k + 2 => simp

/-- Each RW register reads back the bits in use of what was written to it (10 R20, R21). -/
theorem writableRegisters_readBack : ∀ e ∈ writableRegisters, ∃ r, Reg.ofOffset e.1 = some r ∧
    r ≠ .cmd ∧ r ≠ .status ∧ ∀ (s : State) (v : Word), readReg (writeReg r v s) r = v &&& e.2 := by
  simp only [writableRegisters, List.forall_mem_cons, List.not_mem_nil, false_imp_iff,
    implies_true, and_true]
  have half (v : Word) : (v.setWidth 16).setWidth 32 = v &&& 0xFFFF :=
    setWidth_setWidth_eq_and v
  have nibble (v : Word) : (v.setWidth 4).setWidth 32 = v &&& 0xF :=
    setWidth_setWidth_eq_and v
  have full (v : Word) : v = v &&& 0xFFFFFFFF := BitVec.and_allOnes.symm
  exact ⟨⟨.ctrl, rfl, by decide, by decide, fun _ => toWord_ctrlOfWord⟩,
    ⟨.width, rfl, by decide, by decide, fun _ => half⟩,
    ⟨.height, rfl, by decide, by decide, fun _ => half⟩,
    ⟨.srcAddr, rfl, by decide, by decide, fun _ => full⟩,
    ⟨.auxAddr, rfl, by decide, by decide, fun _ => full⟩,
    ⟨.dstAddr, rfl, by decide, by decide, fun _ => full⟩,
    ⟨.scrAddr, rfl, by decide, by decide, fun _ => full⟩,
    ⟨.len, rfl, by decide, by decide, fun _ => full⟩,
    ⟨.strength, rfl, by decide, by decide, fun _ => full⟩,
    ⟨.redundancy, rfl, by decide, by decide, fun _ => half⟩,
    ⟨.levels, rfl, by decide, by decide, fun _ => nibble⟩,
    ⟨.confFloor, rfl, by decide, by decide, fun _ => full⟩,
    ⟨.psnrThresh, rfl, by decide, by decide, fun _ => full⟩,
    ⟨.bitcap, rfl, by decide, by decide, fun _ => full⟩⟩

/-- Each offset of the register map names its register, which reads the word beside it (10 R21). -/
theorem registerReads_hold (s : State) :
    ∀ e ∈ registerReads s, Reg.ofOffset e.1 = some e.2.1 ∧ readReg s e.2.1 = e.2.2 := by
  have hstatus : s.status.toWord = BitVec.ofNat 32 (statusWord s.status) := by
    rw [← toNat_statusToWord, BitVec.ofNat_toNat, BitVec.setWidth_eq]
  simp [registerReads, Reg.ofOffset, readReg, ctrlToWord_eq, hstatus, idValue, constValue]

/-- What a write to each RW register leaves (10 R21, R24, R35 to R43). -/
theorem registerWrites_hold (s : State) (v : Word) :
    ∀ e ∈ registerWrites s v, ∃ r, Reg.ofOffset e.1 = some r ∧ writeReg r v s = e.2 := by
  simp [registerWrites, Reg.ofOffset, writeReg, Ctrl.ofWord]

/-- A write to a read-only register is ignored (10 R20). -/
theorem readOnlyOffsets_ignore (s : State) (v : Word) :
    ∀ off ∈ readOnlyOffsets, ∃ r, Reg.ofOffset off = some r ∧ writeReg r v s = s := by
  simp [readOnlyOffsets, Reg.ofOffset, writeReg]

/-- Settles O52, each clause by the table of its registers. -/
theorem registerWriteReadsBack : Obligations.RegisterWriteReadsBack := by
  refine ⟨registerReads_hold, registerWrites_hold, fun s v e he => ?_, readOnlyOffsets_ignore,
    fun s => ⟨rfl, rfl⟩⟩
  obtain ⟨r, hoff, hcmd, hstatus, hread⟩ := writableRegisters_readBack e he
  exact ⟨r, hoff, hread s v, fun r' hne => readReg_writeReg_of_ne hcmd hstatus hne v s, _, _,
    writeReg_frame hcmd hstatus v s⟩

/-- Settles O53: by the three kinds of access, each through what the window does with it. -/
theorem registerWindowAccesses : Obligations.RegisterWindowAccesses := by
  intro s rest off size v hoff
  refine ⟨fun r hsize halign hr => ?_, fun hsize halign hno => ?_, fun hnarrow => ?_,
    ofOffset_ne_none_iff off⟩
  · have ha := (alignedWord_iff size off).2 ⟨hsize, halign⟩
    constructor <;> intro hhost <;> rw [step_of_hostOp hhost (by simp)]
    · exact congrArg _ (hostRegWrite_mapped (s := { s with host := rest }) v hoff ha hr)
    · exact congrArg _ (hostRegRead_mapped (s := { s with host := rest }) hoff ha hr)
  · have ha := (alignedWord_iff size off).2 ⟨hsize, halign⟩
    have hr : Reg.ofOffset off = none := not_not.1 fun h => hno ((ofOffset_ne_none_iff off).1 h)
    constructor <;> intro hhost <;> rw [step_of_hostOp hhost (by simp)]
    · exact congrArg _ (hostRegWrite_unmapped (s := { s with host := rest }) v hoff hr)
    · exact congrArg _ (hostRegRead_unmapped (s := { s with host := rest }) hoff ha hr)
  · have ha : alignedWord size off = false := by
      rw [Bool.eq_false_iff, ne_eq, alignedWord_iff]; tauto
    constructor <;> intro hhost <;> rw [step_of_hostOp hhost (by simp)]
    · exact congrArg _ (hostRegWrite_narrow (s := { s with host := rest }) v hoff ha)
    · exact ⟨_, _, congrArg _ (hostRegRead_narrow (s := { s with host := rest }) hoff ha)⟩

/-! ### STATUS, CMD and the interrupt output -/

/-- The mask of the bits that a write to STATUS clears (10 R33). -/
theorem getLsbD_clearMask {k : Nat} (hk : k < 32) :
    (0x86 : Word).getLsbD k = decide (k = 1 ∨ k = 2 ∨ k = 7) := by
  revert k; decide

/-- A write-one-to-clear on the word STATUS reads (10 R33). -/
theorem toWord_writeOneToClear (st : Status) (v : Word) :
    (st.writeOneToClear v).toWord = st.toWord &&& ~~~(v &&& 0x86) := by
  apply BitVec.eq_of_getLsbD_eq
  intro k hk
  rw [BitVec.getLsbD_and, BitVec.getLsbD_not, BitVec.getLsbD_and, getLsbD_clearMask hk,
    getLsbD_statusToWord, getLsbD_statusToWord]
  match k with
  | 0 | 1 | 2 | 3 | 4 | 5 | 6 | 7 => simp [Status.writeOneToClear]
  | k + 8 => simp [Status.writeOneToClear, hk]

/-- Settles O54: the word and its bits, before and after the write. -/
theorem statusWriteOneToClear : Obligations.StatusWriteOneToClear :=
  ⟨fun s => toNat_statusToWord s.status,
    fun s v => ⟨toWord_writeOneToClear s.status v, rfl, rfl⟩⟩

theorem writeReg_cmd_of_busy {s : State} (h : s.status.busy = true) (c : Word) :
    writeReg .cmd c s = { s with status := { s.status with cmdOvr := true } } := by
  simp [writeReg, writeCmd, h]

theorem writeReg_cmd_of_idle {s : State} (h : s.status.busy = false) (c : Word) :
    writeReg .cmd c s = accept c s := by
  simp [writeReg, writeCmd, h]

/-- Settles O55: an overrun while BUSY = 1, acceptance otherwise. -/
theorem commandWriteAcceptsOrOverruns : Obligations.CommandWriteAcceptsOrOverruns := by
  intro s c
  refine ⟨fun h => writeReg_cmd_of_busy h c, fun h => writeReg_cmd_of_idle h c, fun h => ?_,
    fun h => ?_⟩
  · rw [writeReg_cmd_of_idle h]; rfl
  · rw [writeReg_cmd_of_busy h]; rfl

/-- Settles O56: each word reads its flags at their bits. -/
theorem irqFollowsStatusAndCtrl : Obligations.IrqFollowsStatusAndCtrl := by
  intro s
  simp only [readReg, getLsbD_statusToWord, getLsbD_ctrlToWord, irq]

end Sys2Proof.Proofs
end

section
/-! PROOFS. The region table in index form, the frame of every command, and when a command is
refused (20 R69, R73, R75, 30 R93, 60 R240 to R245). -/

namespace Sys2Proof.Proofs

open Sys2Proof.Machine Sys2Proof.Claims Sys2Proof.Laws

/-! ### The region table in index form (30 R93) -/

/-- The levels of the halved side are the later levels of the side (40 R121). -/
theorem levelSize_halfUp (x l : Nat) : levelSize (halfUp x) l = levelSize x (l + 1) := by
  induction l with
  | zero => rfl
  | succ l ih => rw [levelSize, ih]; rfl

/-- The detail subbands of level 1, then those of the halved matrix (40 R123). -/
theorem bandOffset_succ (h w l : Nat) :
    bandOffset h w (l + 1) =
      3 * (halfUp h * halfUp w) + bandOffset (halfUp h) (halfUp w) l := by
  simp only [bandOffset, levelSize_halfUp]
  rw [Finset.sum_range_succ', Nat.add_comm]
  rfl

/-- The layout ends with LL of the deepest level (40 R123). -/
theorem layoutWords_eq_bandOffset (h w lv : Nat) :
    layoutWords h w lv = bandOffset h w lv + levelSize h lv * levelSize w lv := by
  induction lv generalizing h w with
  | zero => simp [layoutWords, bandOffset, levelSize]
  | succ lv ih =>
    rw [layoutWords, ih, bandOffset_succ, levelSize_halfUp, levelSize_halfUp, Nat.add_assoc]

/-- The table written out row by row is the model's (30 R93). -/
theorem regionRows_eq_regions (i : Instr) (p : Snapshot) : regionRows i p = regions i p := by
  have hlayout : p.layoutBytes = 4 * (bandOffset p.h.toNat p.w.toNat p.lv.toNat +
      levelSize p.h.toNat p.lv.toNat * levelSize p.w.toNat p.lv.toNat) :=
    congrArg (4 * ·) (layoutWords_eq_bandOffset _ _ _)
  have hcoeffs : p.coeffs =
      (p.w.toNat / 2 ^ p.lv.toNat) * (p.h.toNat / 2 ^ p.lv.toNat) := dwtCoeffs_eq _ _ _
  cases i
  case dwt2d => simp only [regions, hlayout]; rfl
  case idwt2d => simp only [regions, hlayout]; rfl
  case dwtext => simp only [regions, hcoeffs]; rfl
  all_goals rfl

/-! ### What a command leaves unchanged (20 R75, 60 R243) -/

theorem reportDecode_cmdOvr (dst : Nat) (d : Option Decoded) (s : State) :
    (reportDecode dst d s).status.cmdOvr = s.status.cmdOvr := by
  cases d <;> rfl

theorem psnrReport_cmdOvr (n D : Nat) (s : State) :
    (psnrReport n D s).status.cmdOvr = s.status.cmdOvr := by
  unfold psnrReport; split <;> rfl

/-- No operation touches CMD_OVR: only the host sets and clears it (10 R33, R34). -/
theorem operationOf_cmdOvr (i : Instr) (s : State) :
    (operationOf i s).status.cmdOvr = s.status.cmdOvr := by
  cases i
  case psnr => exact psnrReport_cmdOvr _ _ s
  case unpack => exact reportDecode_cmdOvr _ _ _
  case dctext => exact reportDecode_cmdOvr _ _ _
  case dwtext => exact reportDecode_cmdOvr _ _ _
  all_goals rfl

/-- Each of the three ways a command ends changes STATUS, the results, the memory and the counter
of draws only (60 R241). -/
theorem exec_frame {i : Instr} {s t : State} (h : exec i s = .next t) :
    t = { s with status := t.status, results := t.results, mem := t.mem, draws := t.draws } := by
  rcases exec_cases h with ⟨e, -, rfl⟩ | ⟨-, -, rfl⟩ | ⟨-, rfl⟩
  · rfl
  · rw [busErrorCompletion, drawRegions_eq]; rfl
  · rw [operationOf_frame]; rfl

theorem exec_cmdOvr {i : Instr} {s t : State} (h : exec i s = .next t) :
    t.status.cmdOvr = s.status.cmdOvr := by
  rcases exec_cases h with ⟨e, -, rfl⟩ | ⟨-, -, rfl⟩ | ⟨-, rfl⟩
  · rfl
  · rw [busErrorCompletion, drawRegions_eq]; rfl
  · exact operationOf_cmdOvr i s

/-- A byte in no write region reads as before, whatever way the command ends (20 R75). -/
theorem exec_readByte_outside {i : Instr} {s t : State} (h : exec i s = .next t) {a : Nat}
    (ha : ∀ r ∈ regions i s.snap, r.access = .write → ¬(r.base ≤ a ∧ a < r.base + r.size)) :
    readByte t.mem a = readByte s.mem a := by
  rcases exec_mem_cases h with hsame | ⟨-, hwrites⟩
  · rw [hsame]
  · refine hwrites.readByte_eq fun r hr => ?_
    obtain ⟨hmem, hw⟩ := mem_writeRegions.1 hr
    exact ha r hmem hw

/-- Settles O8: the frame of the state, CMD_OVR, and the writes inside the region table. -/
theorem commandFrame : Obligations.CommandFrame := by
  intro i s t h
  refine ⟨exec_frame h, exec_cmdOvr h, fun a ha => ?_⟩
  rw [regionRows_eq_regions] at ha
  exact exec_readByte_outside h ha

/-! ### When a command is refused (20 R73) -/

theorem touchesDevice_eq_true_iff (f : Platform) (rs : List Region) :
    touchesDevice f rs = true ↔ ∃ r ∈ rs, ∃ a, r.base ≤ a ∧ a < r.base + r.size ∧
      ∃ u ∈ f.device, u.base ≤ a ∧ a < u.base + u.size := by
  simp only [touchesDevice, List.any_eq_true, meets_iff, Region.contains, Span.contains,
    decide_eq_true_eq]
  refine exists_congr fun r => and_congr_right fun _ => ⟨?_, ?_⟩
  · rintro ⟨u, hu, a, ⟨hlo, hhi⟩, hua⟩
    exact ⟨a, hlo, hhi, u, hu, hua⟩
  · rintro ⟨a, hlo, hhi, u, hu, hua⟩
    exact ⟨u, hu, a, ⟨hlo, hhi⟩, hua⟩

/-- The refusal comes after the checks of 60 R245 and before busOK is asked. -/
theorem exec_eq_refused_iff (i : Instr) (s : State) : exec i s = .refused .deviceRegion ↔
    firstError i s.snap = none ∧ touchesDevice s.platform (regions i s.snap) = true := by
  rw [exec_eq_complete]
  refine ⟨fun h => ?_, fun ⟨hnone, hdev⟩ => complete_of_device hnone hdev _⟩
  cases hfirst : firstError i s.snap with
  | some e => rw [complete_of_error hfirst] at h; cases h
  | none =>
    refine ⟨rfl, ?_⟩
    by_contra hdev
    have hplain : touchesDevice s.platform (regions i s.snap) = false := by simpa using hdev
    cases hbus : allBusOK s.platform (regions i s.snap) with
    | true => rw [complete_of_runs ⟨hfirst, hplain, hbus⟩] at h; cases h
    | false => rw [complete_of_busError hfirst hplain hbus] at h; cases h

/-- Settles O12: the refusal of a completion, read through the region table and the device spans
byte by byte. -/
theorem deviceRegionRefused : Obligations.DeviceRegionRefused := by
  intro i s
  rw [exec_eq_refused_iff, touchesDevice_eq_true_iff, regionRows_eq_regions]

end Sys2Proof.Proofs
end

section
/-! PROOFS. The decoder and the encoder of command words against the opcode map, and what an illegal
word does (30 R90 to R92, R97). -/

namespace Sys2Proof.Proofs

open Sys2Proof.Machine Sys2Proof.Claims

/-! ### The fields of a command word (30 R90) -/

theorem toNat_rsv_ofWord (c : Word) : (RawCommand.ofWord c).rsv.toNat = c.toNat / 256 := by
  simp only [RawCommand.ofWord, BitVec.extractLsb'_toNat, Nat.shiftRight_eq_div_pow]
  have := c.isLt
  omega

theorem toNat_op_ofWord (c : Word) : (RawCommand.ofWord c).op.toNat = c.toNat % 256 := by
  simp [RawCommand.ofWord]

theorem rsv_ofWord_eq_zero_iff (c : Word) :
    (RawCommand.ofWord c).rsv = 0 ↔ c.toNat / 256 = 0 := by
  rw [← toNat_rsv_ofWord, BitVec.toNat_eq]; rfl

theorem op_ofWord_eq_iff (c : Word) (x : BitVec 8) :
    (RawCommand.ofWord c).op = x ↔ c.toNat % 256 = x.toNat := by
  rw [← toNat_op_ofWord, BitVec.toNat_eq]

theorem toNat_encode (i : Instr) : (encode i).toNat = (opcode i).toNat :=
  (toNat_append_eq_add (0 : BitVec 24) (opcode i)).trans (by simp)

/-- The word of a command is the one with RSV = 0 and its OP. -/
theorem eq_encode_iff (c : Word) (i : Instr) :
    c = encode i ↔ (RawCommand.ofWord c).rsv = 0 ∧ (RawCommand.ofWord c).op = opcode i := by
  rw [rsv_ofWord_eq_zero_iff, op_ofWord_eq_iff, BitVec.toNat_eq, toNat_encode]
  have := (opcode i).isLt
  omega

/-! ### The opcode map (30 R92) -/

theorem mem_opcodeMap_iff (i : Instr) (n : Nat) : (i, n) ∈ opcodeMap ↔ n = (opcode i).toNat := by
  cases i <;> simp [opcodeMap, opcode]

theorem mem_assignedOpcodes_iff (n : Nat) : n ∈ assignedOpcodes ↔ ∃ i, (i, n) ∈ opcodeMap := by
  have hcolumn : assignedOpcodes = opcodeMap.map Prod.snd := rfl
  simp [hcolumn]

theorem opcode_mem_assignedOpcodes (i : Instr) : (opcode i).toNat ∈ assignedOpcodes :=
  (mem_assignedOpcodes_iff _).2 ⟨i, (mem_opcodeMap_iff i _).2 rfl⟩

theorem decodeOp_opcode (i : Instr) : decodeOp (opcode i) = some i := by
  cases i <;> rfl

/-- Each row of the decoder's table has the opcode of its command. -/
theorem decodeOp_eq_some_iff (op : BitVec 8) (i : Instr) :
    decodeOp op = some i ↔ op = opcode i := by
  refine ⟨fun h => ?_, fun h => h ▸ decodeOp_opcode i⟩
  unfold decodeOp at h
  split at h
  case h_21 => contradiction
  all_goals
    next hop =>
      cases h
      exact BitVec.eq_of_toNat_eq hop

/-! ### Decoding a word (30 R91, R92) -/

theorem decode_eq_ok_iff_fields (c : Word) (i : Instr) :
    decode c = .ok i ↔ (RawCommand.ofWord c).rsv = 0 ∧ (RawCommand.ofWord c).op = opcode i := by
  rw [← decodeOp_eq_some_iff, decode]
  split
  case isFalse hrsv => simp only [reduceCtorEq, hrsv, false_and]
  case isTrue hrsv =>
    cases decodeOp (RawCommand.ofWord c).op <;> simp [hrsv]

theorem decode_eq_ok_iff (c : Word) (i : Instr) : decode c = .ok i ↔ c = encode i := by
  rw [decode_eq_ok_iff_fields, eq_encode_iff]

theorem wellFormedWord_encode (i : Instr) : wellFormedWord (encode i) = true := by
  obtain ⟨hrsv, hop⟩ := (eq_encode_iff (encode i) i).1 rfl
  simp [wellFormedWord, RawCommand.wellFormed, RawCommand.reservedClear,
    RawCommand.opcodeAssigned, hrsv, hop, opcode_mem_assignedOpcodes]

/-- Settles O2: a word decodes to a command exactly when it is the command's encoding. -/
theorem decodeEncodeAgree : Obligations.DecodeEncodeAgree :=
  ⟨fun i => ⟨wellFormedWord_encode i, (decode_eq_ok_iff _ i).2 rfl⟩,
    fun c i h => ((decode_eq_ok_iff c i).1 h).symm⟩

/-- Settles O1: both fields read as numbers, OP through the opcode map. -/
theorem wordSelectsRow : Obligations.WordSelectsRow := by
  intro c i
  rw [decode_eq_ok_iff_fields, rsv_ofWord_eq_zero_iff, op_ofWord_eq_iff, mem_opcodeMap_iff]

/-! ### Words that select no row (30 R97) -/

theorem exists_decode_eq_ok_iff (c : Word) :
    (∃ i, decode c = .ok i) ↔ c.toNat / 256 = 0 ∧ c.toNat % 256 ∈ assignedOpcodes := by
  simp only [wordSelectsRow c, exists_and_left, mem_assignedOpcodes_iff]

/-- The values R97 lists are those no row of the opcode map has. -/
theorem illegalWord_iff (c : Word) :
    IllegalWord c ↔ c.toNat / 256 ≠ 0 ∨ c.toNat % 256 ∉ assignedOpcodes := by
  simp only [IllegalWord, assignedOpcodes, List.mem_cons, List.not_mem_nil, or_false]
  omega

theorem illegalWord_iff_decode_ne_ok (c : Word) : IllegalWord c ↔ ∀ i, decode c ≠ .ok i := by
  rw [← not_exists, exists_decode_eq_ok_iff, illegalWord_iff, not_and_or]

theorem decode_of_illegalWord {c : Word} (h : IllegalWord c) : ∃ e, decode c = .error e := by
  cases hd : decode c with
  | error e => exact ⟨e, rfl⟩
  | ok i => exact absurd hd ((illegalWord_iff_decode_ne_ok c).1 h i)

/-- The step after the acceptance of an illegal word is its error completion (60 R243). -/
theorem step_accept_of_illegalWord {s : State} {c : Word} (hhost : s.host = [])
    (h : IllegalWord c) :
    step (accept c s) = .next (errorCompletion .illegalCmd (accept c s)) := by
  obtain ⟨e, he⟩ := decode_of_illegalWord h
  have hlatched : decode (accept c s).snap.word = .error e := by
    rw [Laws.accept_snap, word_latch, he]
  rw [step_of_host_nil (s := accept c s) hhost, sequencerStep_of_illegal rfl hlatched]

/-- Settles O4: R97's words are those that decode to nothing, and such a word is accepted and then
completes with ILLEGAL_CMD. -/
theorem illegalWordCompletes : Obligations.IllegalWordCompletes := by
  refine ⟨illegalWord_iff_decode_ne_ok, fun s c hidle hhost hill => ?_⟩
  have haccept : writeReg .cmd c s = accept c s := writeReg_cmd_of_idle hidle c
  refine ⟨haccept, ?_⟩
  rw [haccept, step_accept_of_illegalWord hhost hill]
  rfl

/-- Settles O3: the five commands are read off their encodings, the two rejections evaluated. -/
theorem writtenWordsDecode : Obligations.WrittenWordsDecode := by
  have hdecode (i : Instr) : decode (encode i) = .ok i := (decode_eq_ok_iff _ i).2 rfl
  exact ⟨hdecode .nop, hdecode .dct2d, hdecode .pack, hdecode .dctemb, hdecode .dwtemb, rfl, rfl⟩

end Sys2Proof.Proofs
end

section
/-! PROOFS. What a command that writes one array of bytes or samples to DST does (20 R62 to R64, 60
R240), and channel extraction and restoration (40 R126 to R128, R135). -/

namespace Sys2Proof.Proofs

open Sys2Proof.Machine Sys2Proof.Claims Sys2Proof.Laws

/-! ### A completion that writes one array -/

/-- Without a clip a success sets DONE, clears BUSY and leaves the other flags (60 R240). -/
theorem doneStatus_false (st : Status) : doneStatus st false = st.succeeded := by
  simp [doneStatus, Status.succeeded]

/-- A success whose operation writes bytes and notes SAT (60 R240, 10 R26). -/
theorem exec_of_noteSat_putBytes {i : Instr} {s : State} {a : Nat} {bs : List Byte} {c : Bool}
    (h : Runs i s) (hop : operationOf i s = noteSat c (putBytes a bs s)) :
    exec i s = .next { s with mem := writeBytes s.mem a bs, status := doneStatus s.status c } := by
  rw [exec_of_runs h, hop]; rfl

/-- A success whose operation writes bytes and cannot saturate. -/
theorem exec_of_putBytes {i : Instr} {s : State} {a : Nat} {bs : List Byte} (h : Runs i s)
    (hop : operationOf i s = putBytes a bs s) :
    exec i s =
      .next { s with mem := writeBytes s.mem a bs, status := doneStatus s.status false } := by
  rw [exec_of_runs h, hop, doneStatus_false]; rfl

theorem sameOutside_writeBytes {m : Memory} {a n : Nat} {bs : List Byte} (hn : bs.length = n) :
    SameOutside m (writeBytes m a bs) a n := by
  subst hn
  exact fun _ hx => readByte_writeBytes_outside hx

theorem sameOutside_putSamples {m : Memory} {a n : Nat} {xs : List Int} (hn : 4 * xs.length = n) :
    SameOutside m (writeBytes m a (sampleBytes xs)) a n :=
  sameOutside_writeBytes ((length_sampleBytes xs).trans hn)

/-- The row-major position of an element (00 R15). -/
theorem index_lt_mul {h w i j : Nat} (hi : i < h) (hj : j < w) : i * w + j < h * w :=
  Nat.mul_comm w h ▸ index_lt hi hj

/-- Sample (i, j) of a matrix that was written (20 R64, 00 R14). -/
theorem sampleAt_putMatrix {m : Memory} {a h w i j : Nat} {M : Mat} (hM : Shaped h w M)
    (hi : i < h) (hj : j < w) :
    sampleAt (writeBytes m a (sampleBytes M.flatten)) (a + 4 * (i * w + j)) =
      sat32 (matAt M i j) := by
  have hk : i * w + j < M.flatten.length := by
    rw [length_flatten hM]; exact index_lt_mul hi hj
  rw [sampleAt_putSamples hk, getD_flatten hM hi hj]

theorem sameOutside_putMatrix {m : Memory} {a h w n : Nat} {M : Mat} (hM : Shaped h w M)
    (hn : 4 * (h * w) = n) : SameOutside m (writeBytes m a (sampleBytes M.flatten)) a n :=
  sameOutside_putSamples (by rw [length_flatten hM, hn])

/-! ### CHEXT and CHRST -/

/-- Byte c of pixel (i, j) of a loaded pixel buffer (20 R65). -/
theorem getD_loadPixels {m : Memory} {src w h i j c : Nat} (hi : i < h) (hj : j < w) (hc : c < 4) :
    (loadBytes m src (4 * (w * h))).getD (4 * (i * w + j) + c) 0 =
      readByte m (src + 4 * (i * w + j) + c) := by
  have hlt := index_lt hi hj
  rw [getD_loadBytes (by omega), Nat.add_assoc]

/-- The channel matrix of a pixel buffer in memory (40 R126). -/
theorem matAt_chext_loadBytes {m : Memory} {src w h i j : Nat} (hi : i < h) (hj : j < w) :
    matAt (chext (loadBytes m src (4 * (w * h))) w h) i j = blue m src w i j := by
  rw [matAt_chext (length_loadBytes _ _ _) hi hj, getD_loadPixels hi hj (by omega), blue]
  norm_num

/-- A channel sample lies far inside the range of a word (40 R126). -/
theorem sat32_blue (m : Memory) (src w i j : Nat) :
    sat32 (blue m src w i j) = blue m src w i j := by
  have := (readByte m (src + 4 * (i * w + j) + 2)).isLt
  exact sat32_of_bounds (by unfold blue; omega)

/-- Settles O23: the channel matrix, whose samples PutSample does not change. -/
theorem chextExtracts : Obligations.ChextExtracts := by
  intro s hruns
  have hM : Shaped s.snap.h.toNat s.snap.w.toNat
      (chext (loadBytes s.mem s.snap.srcAddr s.snap.imageBytes) s.snap.w.toNat s.snap.h.toNat) :=
    shaped_chext (length_loadBytes _ _ _)
  refine ⟨_, exec_of_putBytes hruns rfl, fun i j hi hj => ?_,
    sameOutside_putMatrix hM (by rw [Nat.mul_comm s.snap.h.toNat])⟩
  calc _ = sat32 (matAt _ i j) := sampleAt_putMatrix hM hi hj
    _ = sat32 (blue s.mem s.snap.src.toNat s.snap.w.toNat i j) :=
      congrArg sat32 (matAt_chext_loadBytes hi hj)
    _ = _ := sat32_blue _ _ _ _ _

/-- A written buffer is the one at src with channel 2 restored from the matrix (40 R127). -/
theorem restored_chrst {m : Memory} {src dst w h : Nat} {M : Mat} (hM : Shaped h w M) :
    Restored m (writeBytes m dst (chrst (loadBytes m src (4 * (w * h))) M)) src dst w h
      (matAt M) := by
  have hpix : (loadBytes m src (4 * (w * h))).length = 4 * (w * h) := length_loadBytes _ _ _
  intro i j hi hj
  have hread : ∀ c < 4,
      readByte (writeBytes m dst (chrst (loadBytes m src (4 * (w * h))) M))
        (dst + 4 * (i * w + j) + c) =
      if c = 2 then clampByte (matAt M i j) else readByte m (src + 4 * (i * w + j) + c) := by
    intro c hc
    have hlt := index_lt hi hj
    rw [Nat.add_assoc, readByte_writeBytes_inside (by rw [length_chrst, hpix]; omega),
      ← getD_loadPixels hi hj hc, ← getD_chrst hpix hM hi hj hc, List.getD_eq_getElem]
  refine ⟨?_, fun c hc => ?_⟩
  · rw [hread 2 (by omega), if_pos rfl, toNat_clampByte, restoredByte]
  · rw [hread c (by omega), if_neg (by omega)]

/-- A restoration reads its matrix at the w × h pixels only. -/
theorem restored_congr {m m' : Memory} {src dst w h : Nat} {M N : Nat → Nat → Int}
    (hr : Restored m m' src dst w h M) (hMN : ∀ i j, i < h → j < w → M i j = N i j) :
    Restored m m' src dst w h N := fun i j hi hj => hMN i j hi hj ▸ hr i j hi hj

/-- Settles O24: the restored buffer, with the matrix read from AUX. -/
theorem chrstRestores : Obligations.ChrstRestores := by
  intro s hruns
  exact ⟨_, exec_of_putBytes hruns rfl,
    restored_congr (restored_chrst (shaped_loadMatrix _ _ _ _)) fun _ _ => matAt_loadMatrix,
    sameOutside_writeBytes ((length_chrst _ _).trans (length_loadBytes _ _ _))⟩

/-- Restoration touches byte 2 of a pixel only, whatever the matrix (40 R135). -/
theorem getD_restorePixels_of_ne {px : List Byte} {xs : List Int} {k : Nat} (hk : k % 4 ≠ 2) :
    (restorePixels px xs).getD k 0 = px.getD k 0 := by
  fun_induction restorePixels px xs generalizing k with
  | case1 r g b a px x xs ih =>
    match k with
    | 0 | 1 | 3 => rfl
    | 2 => contradiction
    | k + 4 => simpa using ih (k := k) (by omega)
  | case2 => rfl

/-- Putting a buffer's own channel samples back changes nothing (40 R135). -/
theorem restorePixels_channelSamples (px : List Byte) :
    restorePixels px (channelSamples px) = px := by
  fun_induction channelSamples px with
  | case1 r g b a px ih => rw [restorePixels, ih, clampByte_sample]
  | case2 px hshort => simp [restorePixels]

/-- Settles O39. -/
theorem restorationIsolatesChannel : Obligations.RestorationIsolatesChannel := by
  intro pix w h hpix
  refine ⟨fun M k hk => getD_restorePixels_of_ne hk, fun M => length_chrst pix M, ?_⟩
  have hflat : (chext pix w h).flatten = channelSamples pix :=
    flatten_matOfFlat (by rw [length_channelSamples hpix, Nat.mul_comm])
  rw [chrst, hflat, restorePixels_channelSamples]

end Sys2Proof.Proofs
end

section
/-! PROOFS. The DCT kernels in index form, and the four DCT commands (40 R111 to R118). -/

namespace Sys2Proof.Proofs

open Sys2Proof.Machine Sys2Proof.Claims Sys2Proof.Laws

/-! ### The kernels in index form -/

theorem getD_dct8_eq {x : List Int} (hx : x.length = 8) {k : Nat} (hk : k < 8) :
    (dct8 x).val.getD k 0 = sat32 (forwardSum (fun n => x.getD n 0) k) := getD_dct8 hx hk

theorem getD_idct8_eq {X : List Int} (hX : X.length = 8) {n : Nat} (hn : n < 8) :
    (idct8 X).val.getD n 0 = sat32 (inverseSum (fun k => X.getD k 0) n) := getD_idct8 hX hn

/-- A forward sum reads the eight samples only. -/
theorem forwardSum_congr {x y : Nat → Int} (h : ∀ n < 8, x n = y n) (k : Nat) :
    forwardSum x k = forwardSum y k := by
  unfold forwardSum
  rw [Finset.sum_congr rfl fun n hn => by rw [h n (Finset.mem_range.1 hn)]]

theorem inverseSum_congr {X Y : Nat → Int} (h : ∀ k < 8, X k = Y k) (n : Nat) :
    inverseSum X n = inverseSum Y n := by
  unfold inverseSum
  rw [Finset.sum_congr rfl fun k hk => by rw [h k (Finset.mem_range.1 hk)]]

theorem matAt_dct2d_rows_eq {B : Mat} (hB : Shaped 8 8 B) {i k : Nat} (hi : i < 8) (hk : k < 8) :
    matAt (onRows dct8 B).val i k = forwardRows (matAt B) i k := matAt_dct2d_rows hB hi hk

theorem matAt_idct2d_columns_eq {X : Mat} (hX : X.length = 8) {i v : Nat} (hi : i < 8)
    (hv : v < 8) : matAt (onColumns idct8 X).val i v = inverseColumns (matAt X) i v :=
  matAt_idct2d_columns hX hi hv

/-- The second pass of dct2d runs over the first (40 R113). -/
theorem forwardSum_dct2d_rows {B : Mat} (hB : Shaped 8 8 B) {v : Nat} (hv : v < 8) (u : Nat) :
    forwardSum (fun i => matAt (onRows dct8 B).val i v) u = forwardBlock (matAt B) u v :=
  forwardSum_congr (fun _ hi => matAt_dct2d_rows_eq hB hi hv) u

/-- The second pass of idct2d runs over the first (40 R114). -/
theorem inverseSum_idct2d_columns {X : Mat} (hX : X.length = 8) {i : Nat} (hi : i < 8) (j : Nat) :
    inverseSum (fun v => matAt (onColumns idct8 X).val i v) j = inverseBlock (matAt X) i j :=
  inverseSum_congr (fun _ hv => matAt_idct2d_columns_eq hX hi hv) j

theorem matAt_dct2d_eq {B : Mat} (hB : Shaped 8 8 B) {u v : Nat} (hu : u < 8) (hv : v < 8) :
    matAt (dct2d B).val u v = sat32 (forwardBlock (matAt B) u v) := by
  rw [← forwardSum_dct2d_rows hB hv]
  exact matAt_dct2d hB hu hv

theorem matAt_idct2d_eq {X : Mat} (hX : X.length = 8) {i j : Nat} (hi : i < 8) (hj : j < 8) :
    matAt (idct2d X).val i j = sat32 (inverseBlock (matAt X) i j) := by
  rw [← inverseSum_idct2d_columns hX hi]
  exact matAt_idct2d hi hj

theorem clipped_dct2d_iff {B : Mat} (hB : Shaped 8 8 B) :
    (dct2d B).clipped = true ↔ ForwardBlockClips (matAt B) := by
  refine (clipped_dct2d hB).trans (or_congr Iff.rfl ?_)
  refine exists₂_congr fun u v => and_congr_right fun _ => and_congr_right fun hv => ?_
  rw [← forwardSum_dct2d_rows hB hv]
  rfl

theorem clipped_idct2d_iff {X : Mat} (hX : X.length = 8) :
    (idct2d X).clipped = true ↔ InverseBlockClips (matAt X) := by
  refine (clipped_idct2d hX).trans (or_congr Iff.rfl ?_)
  refine exists₂_congr fun i j => and_congr_right fun hi => and_congr_right fun _ => ?_
  rw [← inverseSum_idct2d_columns hX hi]
  rfl

/-! ### A block is read at its 8 × 8 cells only -/

section
variable {B B' : Nat → Nat → Int} (h : ∀ i j, i < 8 → j < 8 → B i j = B' i j)
include h

theorem forwardBlock_congr (u v : Nat) : forwardBlock B u v = forwardBlock B' u v :=
  forwardSum_congr (fun i hi => congrArg sat32 (forwardSum_congr (fun j hj => h i j hi hj) v)) u

theorem inverseBlock_congr (i j : Nat) : inverseBlock B i j = inverseBlock B' i j :=
  inverseSum_congr (fun v hv => congrArg sat32 (inverseSum_congr (fun u hu => h u v hu hv) i)) j

theorem forwardBlockClips_congr : ForwardBlockClips B ↔ ForwardBlockClips B' := by
  unfold ForwardBlockClips
  refine or_congr (exists₂_congr fun i k => and_congr_right fun hi => ?_)
    (exists₂_congr fun u v => ?_)
  · rw [forwardSum_congr (fun j hj => h i j hi hj)]
  · rw [forwardBlock_congr h]

theorem inverseBlockClips_congr : InverseBlockClips B ↔ InverseBlockClips B' := by
  unfold InverseBlockClips
  refine or_congr (exists₂_congr fun i v => and_congr_right fun _ => and_congr_right fun hv => ?_)
    (exists₂_congr fun i j => ?_)
  · rw [inverseSum_congr (fun u hu => h u v hu hv)]
  · rw [inverseBlock_congr h]

end

/-! ### The four commands -/

/-- A kernel on 8 samples gives the saturated values of f and notes whether one clips. -/
structure ComputesVector (kernel : List Int → Sat (List Int)) (f : (Nat → Int) → Nat → Int) :
    Prop where
  length : ∀ x, (kernel x).val.length = 8
  value : ∀ x, x.length = 8 → ∀ k < 8,
    (kernel x).val.getD k 0 = sat32 (f (fun n => x.getD n 0) k)
  clipped : ∀ x, x.length = 8 → ((kernel x).clipped = true ↔
    ∃ k, k < 8 ∧ sat32 (f (fun n => x.getD n 0) k) ≠ f (fun n => x.getD n 0) k)
  congr : ∀ x y : Nat → Int, (∀ n < 8, x n = y n) → ∀ k, f x k = f y k

theorem dct8_computesVector : ComputesVector dct8 forwardSum where
  length := length_dct8
  value _ hx _ hk := getD_dct8_eq hx hk
  clipped _ hx := clipped_dct8 hx
  congr _ _ h k := forwardSum_congr h k

theorem idct8_computesVector : ComputesVector idct8 inverseSum where
  length := length_idct8
  value _ hX _ hn := getD_idct8_eq hX hn
  clipped _ hX := clipped_idct8 hX
  congr _ _ h n := inverseSum_congr h n

/-- DCT1D and IDCT1D: a kernel on the 8 samples at SRC (40 R115, R116). -/
theorem exec_vectorOperation {i : Instr} {s : State} {kernel : List Int → Sat (List Int)}
    {f : (Nat → Int) → Nat → Int} (hruns : Runs i s)
    (hop : operationOf i = vectorOperation kernel) (hk : ComputesVector kernel f) :
    let x := fun n => sampleAt s.mem (s.snap.src.toNat + 4 * n)
    ∃ m c, exec i s = .next { s with mem := m, status := doneStatus s.status c } ∧
      (∀ k, k < 8 → sampleAt m (s.snap.dst.toNat + 4 * k) = sat32 (f x k)) ∧
      SameOutside s.mem m s.snap.dst.toNat 32 ∧
      (c = true ↔ ∃ k, k < 8 ∧ sat32 (f x k) ≠ f x k) := by
  intro x
  set xs := loadSamples s.mem s.snap.src.toNat 8
  have hlen : xs.length = 8 := length_loadSamples _ _ _
  have hx : ∀ k, f (fun n => xs.getD n 0) k = f x k :=
    hk.congr _ _ fun n hn => getD_loadSamples hn
  have hexec : exec i s = .next { s with
      mem := writeBytes s.mem s.snap.dst.toNat (sampleBytes (kernel xs).val)
      status := doneStatus s.status (kernel xs).clipped } :=
    exec_of_noteSat_putBytes hruns (congrFun hop s)
  refine ⟨_, _, hexec, fun k hk8 => ?_, sameOutside_putSamples (by rw [hk.length]), ?_⟩
  · rw [sampleAt_putSamples (by rwa [hk.length]), hk.value xs hlen k hk8, sat32_sat32, hx]
  · rw [hk.clipped xs hlen]; simp only [hx]

/-- Settles O17: dct8 on the samples at SRC. -/
theorem dct1dTransforms : Obligations.Dct1dTransforms := fun _ hruns =>
  exec_vectorOperation hruns rfl dct8_computesVector

/-- Settles O18: idct8 on the samples at SRC. -/
theorem idct1dTransforms : Obligations.Idct1dTransforms := fun _ hruns =>
  exec_vectorOperation hruns rfl idct8_computesVector

/-- A kernel on 8 × 8 blocks gives the saturated values of f and notes a clip as Clips says. -/
structure ComputesBlock (kernel : Mat → Sat Mat) (f : (Nat → Nat → Int) → Nat → Nat → Int)
    (Clips : (Nat → Nat → Int) → Prop) : Prop where
  shaped : ∀ M, Shaped 8 8 (kernel M).val
  value : ∀ M, Shaped 8 8 M → ∀ u v, u < 8 → v < 8 →
    matAt (kernel M).val u v = sat32 (f (matAt M) u v)
  clipped : ∀ M, Shaped 8 8 M → ((kernel M).clipped = true ↔ Clips (matAt M))
  congr : ∀ B B' : Nat → Nat → Int, (∀ i j, i < 8 → j < 8 → B i j = B' i j) →
    (∀ u v, f B u v = f B' u v) ∧ (Clips B ↔ Clips B')

theorem dct2d_computesBlock : ComputesBlock dct2d forwardBlock ForwardBlockClips where
  shaped := shaped_dct2d
  value _ hM _ _ hu hv := matAt_dct2d_eq hM hu hv
  clipped _ hM := clipped_dct2d_iff hM
  congr _ _ h := ⟨forwardBlock_congr h, forwardBlockClips_congr h⟩

theorem idct2d_computesBlock : ComputesBlock idct2d inverseBlock InverseBlockClips where
  shaped := shaped_idct2d
  value _ hM _ _ hi hj := matAt_idct2d_eq hM.1 hi hj
  clipped _ hM := clipped_idct2d_iff hM.1
  congr _ _ h := ⟨inverseBlock_congr h, inverseBlockClips_congr h⟩

/-- DCT2D and IDCT2D: a kernel on the block at SRC (40 R117, R118). -/
theorem exec_blockOperation {i : Instr} {s : State} {kernel : Mat → Sat Mat}
    {f : (Nat → Nat → Int) → Nat → Nat → Int} {Clips : (Nat → Nat → Int) → Prop}
    (hruns : Runs i s) (hop : operationOf i = blockOperation kernel)
    (hk : ComputesBlock kernel f Clips) :
    let B := fun i j => sampleAt s.mem (s.snap.src.toNat + 4 * (8 * i + j))
    ∃ m c, exec i s = .next { s with mem := m, status := doneStatus s.status c } ∧
      (∀ u v, u < 8 → v < 8 →
        sampleAt m (s.snap.dst.toNat + 4 * (8 * u + v)) = sat32 (f B u v)) ∧
      SameOutside s.mem m s.snap.dst.toNat 256 ∧ (c = true ↔ Clips B) := by
  intro B
  set M := loadMatrix s.mem s.snap.src.toNat 8 8
  have hM : Shaped 8 8 M := shaped_loadMatrix _ _ _ _
  have hMB : ∀ i j, i < 8 → j < 8 → matAt M i j = B i j := fun i j hi hj => by
    rw [matAt_loadMatrix hi hj, Nat.mul_comm i]
  obtain ⟨hf, hclips⟩ := hk.congr (matAt M) B hMB
  have hexec : exec i s = .next { s with
      mem := writeBytes s.mem s.snap.dst.toNat (sampleBytes (kernel M).val.flatten)
      status := doneStatus s.status (kernel M).clipped } :=
    exec_of_noteSat_putBytes hruns (congrFun hop s)
  refine ⟨_, _, hexec, fun u v hu hv => ?_, sameOutside_putMatrix (hk.shaped M) rfl,
    (hk.clipped M hM).trans hclips⟩
  rw [Nat.mul_comm 8 u, sampleAt_putMatrix (hk.shaped M) hu hv, hk.value M hM u v hu hv,
    sat32_sat32, hf]

/-- Settles O19: dct2d on the block at SRC. -/
theorem dct2dTransforms : Obligations.Dct2dTransforms := fun _ hruns =>
  exec_blockOperation hruns rfl dct2d_computesBlock

/-- Settles O20: idct2d on the block at SRC. -/
theorem idct2dTransforms : Obligations.Idct2dTransforms := fun _ hruns =>
  exec_blockOperation hruns rfl idct2d_computesBlock

end Sys2Proof.Proofs
end

section
/-! PROOFS. Properties of the DCT kernels: a constant has its DC coefficient only (40 R133), and the
round trips are close (40 R131, R132). -/

namespace Sys2Proof.Proofs

open Sys2Proof.Machine Sys2Proof.Claims Sys2Proof.Laws

/-! ### The ROM (40 R110) -/

/-- Row 0 is constant and every other row sums to 0. -/
theorem sum_cosRom_row : ∀ k < 8,
    ∑ n ∈ Finset.range 8, matAt cosRom k n = if k = 0 then 3037000496 else 0 := by decide

theorem sum_abs_cosRom_row : ∀ k < 8,
    ∑ n ∈ Finset.range 8, |matAt cosRom k n| ≤ 3037000496 := by decide

theorem sum_abs_cosRom_column : ∀ n < 8,
    ∑ k ∈ Finset.range 8, |matAt cosRom k n| ≤ 2836660528 := by decide

/-- The product of the transposed ROM with the ROM, less 2^60 times the identity. -/
def gramError (n m : Nat) : Int :=
  ∑ k ∈ Finset.range 8, matAt cosRom k n * matAt cosRom k m - if m = n then 2 ^ 60 else 0

/-- The ROM is orthogonal up to the rounding of its entries. -/
theorem sum_abs_gramError : ∀ n < 8,
    ∑ m ∈ Finset.range 8, |gramError n m| ≤ 3592751444 := by decide

/-! ### A constant input -/

theorem rnd_zero (b : Nat) (hb : 1 ≤ b) : rnd 0 b = 0 := by
  have hlt : (2 : Nat) ^ (b - 1) < 2 ^ b := Nat.pow_lt_pow_right (by omega) (by omega)
  unfold rnd
  rw [zero_add]
  exact_mod_cast Nat.div_eq_of_lt hlt

/-- The forward sums of a constant vector: rnd of the row sums (40 R133). -/
theorem forwardSum_const {x : Nat → Int} {c : Int} (hx : ∀ n < 8, x n = c) {k : Nat} (hk : k < 8) :
    forwardSum x k = if k = 0 then rnd (3037000496 * c) 30 else 0 := by
  rw [forwardSum_congr (y := fun _ => c) hx, forwardSum, ← Finset.sum_mul, sum_cosRom_row k hk]
  split
  · rfl
  · rw [zero_mul, rnd_zero 30 (by omega)]

theorem sat32_zero : sat32 0 = 0 := rfl

/-- A constant block has its DC coefficient only: each row has, so that every other column of the
row pass is 0, and column 0 is constant (40 R133). -/
theorem forwardBlock_const {B : Nat → Nat → Int} {c : Int}
    (hB : ∀ i j, i < 8 → j < 8 → B i j = c) {u v : Nat} (hu : u < 8) (hv : v < 8)
    (huv : ¬(u = 0 ∧ v = 0)) : forwardBlock B u v = 0 := by
  have hrow : ∀ i < 8,
      forwardRows B i v = if v = 0 then sat32 (rnd (3037000496 * c) 30) else 0 := by
    intro i hi
    rw [forwardRows, forwardSum_const (fun j hj => hB i j hi hj) hv, apply_ite sat32, sat32_zero]
  rw [forwardBlock, forwardSum_const hrow hu]
  by_cases hu0 : u = 0
  · have hv0 : v ≠ 0 := fun h => huv ⟨hu0, h⟩
    rw [if_pos hu0, if_neg hv0, mul_zero, rnd_zero 30 (by omega)]
  · rw [if_neg hu0]

/-- Settles O36: the constant vector, then the constant block. -/
theorem constantInputHasOnlyDc : Obligations.ConstantInputHasOnlyDc := by
  intro c
  have hget : ∀ n < 8, (List.replicate 8 c).getD n 0 = c := fun n hn => by
    rw [List.getD_replicate _ hn]
  have hval : ∀ k < 8, (dct8 (List.replicate 8 c)).val.getD k 0 =
      sat32 (if k = 0 then rnd (3037000496 * c) 30 else 0) := fun k hk => by
    rw [getD_dct8_eq List.length_replicate hk, forwardSum_const hget hk]
  refine ⟨fun k hk hk8 => ?_, hval 0 (by omega), fun u v hu hv huv => ?_⟩
  · rw [hval k hk8, if_neg (by omega), sat32_zero]
  · have hshape : Shaped 8 8 (List.replicate 8 (List.replicate 8 c)) :=
      ⟨List.length_replicate, fun row hrow => by
        rw [List.eq_of_mem_replicate hrow, List.length_replicate]⟩
    have hcell : ∀ i j, i < 8 → j < 8 →
        matAt (List.replicate 8 (List.replicate 8 c)) i j = c := fun i j hi hj => by
      rw [matAt, List.getD_replicate _ hi, hget j hj]
    rw [matAt_dct2d_eq hshape hu hv, forwardBlock_const hcell hu hv huv, sat32_zero]

/-! ### Round trips -/

/-- rnd is within half a unit of the quotient. -/
theorem abs_rnd_thirty_sub_le (v : Int) : |rnd v 30 * 2 ^ 30 - v| ≤ 2 ^ 29 := by
  rw [rnd_thirty, abs_le]; omega

theorem abs_sum_mul_le {c v : Nat → Int} {C V : Int} (hV : 0 ≤ V)
    (hc : ∑ k ∈ Finset.range 8, |c k| ≤ C) (hv : ∀ k < 8, |v k| ≤ V) :
    |∑ k ∈ Finset.range 8, c k * v k| ≤ C * V :=
  calc |∑ k ∈ Finset.range 8, c k * v k|
      ≤ ∑ k ∈ Finset.range 8, |c k * v k| := Finset.abs_sum_le_sum_abs _ _
    _ ≤ ∑ k ∈ Finset.range 8, |c k| * V := Finset.sum_le_sum fun k hk => by
        rw [abs_mul]
        exact mul_le_mul_of_nonneg_left (hv k (Finset.mem_range.1 hk)) (abs_nonneg _)
    _ = (∑ k ∈ Finset.range 8, |c k|) * V := (Finset.sum_mul _ _ _).symm
    _ ≤ C * V := mul_le_mul_of_nonneg_right hc hV

/-- The forward kernel multiplies magnitudes by 2√2 at most (40 R131). -/
theorem abs_forwardSum_le {x : Nat → Int} {M : Int} (hM : 0 ≤ M) (hx : ∀ n < 8, |x n| ≤ M)
    {k : Nat} (hk : k < 8) : |forwardSum x k| * 2 ^ 30 ≤ 3037000496 * M + 2 ^ 29 := by
  have hsum := abs_sum_mul_le hM (sum_abs_cosRom_row k hk) hx
  have hrnd := abs_rnd_thirty_sub_le (∑ n ∈ Finset.range 8, matAt cosRom k n * x n)
  unfold forwardSum
  rw [abs_le] at hsum hrnd
  generalize rnd _ 30 = y at *
  rcases abs_cases y with ⟨hy, _⟩ | ⟨hy, _⟩ <;> rw [hy] <;> linarith

/-- The inverse sums of the forward ones, before the inverse rnd: the Gram matrix of the ROM times
the samples. -/
theorem sum_cosRom_column_mul (x : Nat → Int) {n : Nat} (hn : n < 8) :
    ∑ k ∈ Finset.range 8, matAt cosRom k n * ∑ m ∈ Finset.range 8, matAt cosRom k m * x m =
      2 ^ 60 * x n + ∑ m ∈ Finset.range 8, gramError n m * x m := by
  have hdelta : ∑ m ∈ Finset.range 8, (if m = n then 2 ^ 60 else 0) * x m = 2 ^ 60 * x n := by
    simp [ite_mul, hn]
  calc ∑ k ∈ Finset.range 8, matAt cosRom k n * ∑ m ∈ Finset.range 8, matAt cosRom k m * x m
      = ∑ m ∈ Finset.range 8, ∑ k ∈ Finset.range 8,
          matAt cosRom k n * (matAt cosRom k m * x m) := by
        simp only [Finset.mul_sum]; exact Finset.sum_comm
    _ = ∑ m ∈ Finset.range 8, ((if m = n then 2 ^ 60 else 0) * x m + gramError n m * x m) :=
        Finset.sum_congr rfl fun m _ => by
          simp only [gramError, ← mul_assoc, ← Finset.sum_mul]; ring
    _ = _ := by rw [Finset.sum_add_distrib, hdelta]

/-- The inverse of coefficients within d of the forward ones: what the ROM's entries, the forward
rnd with d, and the inverse rnd add to the error (40 R131). -/
theorem inverseSum_close {x y : Nat → Int} {M d : Int} (hM : 0 ≤ M) (hd : 0 ≤ d)
    (hx : ∀ n < 8, |x n| ≤ M) (hy : ∀ k < 8, |y k - forwardSum x k| ≤ d) {n : Nat} (hn : n < 8) :
    |inverseSum y n - x n| * 2 ^ 60 ≤
      3592751444 * M + 2836660528 * (2 ^ 29 + 2 ^ 30 * d) + 2 ^ 59 := by
  set r : Nat → Int := fun k => 2 ^ 30 * y k - ∑ m ∈ Finset.range 8, matAt cosRom k m * x m with hr
  have hforward : ∀ k < 8, |r k| ≤ 2 ^ 29 + 2 ^ 30 * d := by
    intro k hk
    have hrnd := abs_rnd_thirty_sub_le (∑ m ∈ Finset.range 8, matAt cosRom k m * x m)
    have hyk := hy k hk
    simp only [hr]
    unfold forwardSum at hyk
    rw [abs_le] at *
    constructor <;> linarith
  have hsplit : 2 ^ 30 * ∑ k ∈ Finset.range 8, matAt cosRom k n * y k =
      2 ^ 60 * x n + ∑ m ∈ Finset.range 8, gramError n m * x m +
        ∑ k ∈ Finset.range 8, matAt cosRom k n * r k := by
    rw [← sum_cosRom_column_mul x hn, ← Finset.sum_add_distrib, Finset.mul_sum]
    exact Finset.sum_congr rfl fun k _ => by simp only [hr]; ring
  have hgram := abs_sum_mul_le hM (sum_abs_gramError n hn) hx
  have hround := abs_sum_mul_le (by positivity) (sum_abs_cosRom_column n hn) hforward
  have hinverse := abs_rnd_thirty_sub_le (∑ k ∈ Finset.range 8, matAt cosRom k n * y k)
  unfold inverseSum
  rw [abs_le] at hgram hround hinverse
  generalize rnd _ 30 = z at *
  rcases abs_cases (z - x n) with ⟨hz, _⟩ | ⟨hz, _⟩ <;> rw [hz] <;> linarith

theorem sat32_of_abs_le {x : Int} (h : |x| ≤ 2147483647) : sat32 x = x := by
  rw [abs_le] at h
  exact sat32_of_bounds (by omega)

theorem abs_getD_le {x : List Int} {M : Int} (hM : 0 ≤ M) (hx : ∀ v ∈ x, |v| ≤ M) (n : Nat) :
    |x.getD n 0| ≤ M := by
  by_cases hn : n < x.length
  · rw [List.getD_eq_getElem _ _ hn]; exact hx _ (List.getElem_mem hn)
  · rw [List.getD_eq_default _ _ (by omega)]; simpa using hM

theorem abs_matAt_le {B : Mat} {M : Int} (hM : 0 ≤ M) (hB : ∀ row ∈ B, ∀ v ∈ row, |v| ≤ M)
    (i j : Nat) : |matAt B i j| ≤ M := by
  refine abs_getD_le hM ?_ j
  by_cases hi : i < B.length
  · rw [List.getD_eq_getElem _ _ hi]; exact hB _ (List.getElem_mem hi)
  · rw [List.getD_eq_default _ _ (by omega)]; simp

/-- The 1D round trip (40 R131); no sat32 clips on the way. -/
theorem abs_idct8_dct8_sub_le {x : List Int} (hlen : x.length = 8) (hx : ∀ v ∈ x, |v| ≤ 2 ^ 27)
    {n : Nat} (hn : n < 8) : |(idct8 (dct8 x).val).val.getD n 0 - x.getD n 0| ≤ 2 := by
  have hsample : ∀ m < 8, |x.getD m 0| ≤ 2 ^ 27 := fun m _ => abs_getD_le (by norm_num) hx m
  have hcoeff : ∀ k < 8, (dct8 x).val.getD k 0 = forwardSum (fun m => x.getD m 0) k := by
    intro k hk
    have hbound := abs_forwardSum_le (by norm_num) hsample hk
    rw [getD_dct8_eq hlen hk, sat32_of_abs_le (by omega)]
  have hclose := inverseSum_close (y := fun k => (dct8 x).val.getD k 0) (d := 0) (by norm_num)
    le_rfl hsample (fun k hk => by rw [hcoeff k hk, sub_self, abs_zero]) hn
  have hxn := hsample n hn
  rw [getD_idct8_eq (length_dct8 x) hn]
  generalize inverseSum _ n = z at *
  rw [abs_le] at hxn
  have hz : |z - x.getD n 0| ≤ 2 := by omega
  rw [sat32_of_abs_le (by rw [abs_le] at *; omega)]
  exact hz

section
variable {B : Nat → Nat → Int} (hB : ∀ i j, i < 8 → j < 8 → |B i j| ≤ 2 ^ 27)
include hB

theorem forwardRows_eq_forwardSum {i k : Nat} (hi : i < 8) (hk : k < 8) :
    forwardRows B i k = forwardSum (B i) k ∧ |forwardSum (B i) k| ≤ 379625063 := by
  have hbound := abs_forwardSum_le (by norm_num) (fun j hj => hB i j hi hj) hk
  have hle : |forwardSum (B i) k| ≤ 379625063 := by omega
  exact ⟨sat32_of_abs_le (by omega), hle⟩

theorem sat32_forwardBlock {u v : Nat} (hu : u < 8) (hv : v < 8) :
    sat32 (forwardBlock B u v) = forwardBlock B u v := by
  have hrows : ∀ i < 8, |forwardRows B i v| ≤ 379625063 := fun i hi => by
    obtain ⟨heq, hle⟩ := forwardRows_eq_forwardSum hB hi hv
    rw [heq]; exact hle
  have hbound := abs_forwardSum_le (by norm_num) hrows hu
  exact sat32_of_abs_le (by unfold forwardBlock; omega)

/-- The column pass of the inverse gives back the row pass of the forward transform (40 R132). -/
theorem abs_inverseColumns_sub_le {X : Nat → Nat → Int}
    (hX : ∀ u v, u < 8 → v < 8 → X u v = forwardBlock B u v) {i v : Nat} (hi : i < 8)
    (hv : v < 8) : |inverseColumns X i v - forwardSum (B i) v| ≤ 3 := by
  have hrow : ∀ i < 8, forwardRows B i v = forwardSum (B i) v ∧
      |forwardSum (B i) v| ≤ 379625063 := fun i hi => forwardRows_eq_forwardSum hB hi hv
  have hclose := inverseSum_close (x := fun i => forwardRows B i v) (y := fun u => X u v)
    (M := 379625063) (d := 0) (by norm_num) le_rfl
    (fun i hi => by obtain ⟨heq, hle⟩ := hrow i hi; rw [heq]; exact hle)
    (fun u hu => by rw [hX u v hu hv, forwardBlock, sub_self, abs_zero]) hi
  obtain ⟨heq, hle⟩ := hrow i hi
  simp only [heq] at hclose
  unfold inverseColumns
  generalize inverseSum _ i = z at *
  have hz : |z - forwardSum (B i) v| ≤ 3 := by omega
  rw [sat32_of_abs_le (by rw [abs_le] at *; omega)]
  exact hz

/-- The 2D round trip (40 R132). -/
theorem abs_inverseBlock_sub_le {X : Nat → Nat → Int}
    (hX : ∀ u v, u < 8 → v < 8 → X u v = forwardBlock B u v) {i j : Nat} (hi : i < 8)
    (hj : j < 8) : |inverseBlock X i j - B i j| ≤ 11 := by
  have hclose := inverseSum_close (y := fun v => inverseColumns X i v) (M := 2 ^ 27) (d := 3)
    (by norm_num) (by norm_num) (fun j hj => hB i j hi hj)
    (fun v hv => abs_inverseColumns_sub_le hB hX hi hv) hj
  unfold inverseBlock
  omega

end

/-- The 2D round trip on blocks; no sat32 clips on the way (40 R132). -/
theorem abs_idct2d_dct2d_sub_le {B : Mat} (hshape : Shaped 8 8 B)
    (hB : ∀ i j, i < 8 → j < 8 → |matAt B i j| ≤ 2 ^ 27) {i j : Nat} (hi : i < 8) (hj : j < 8) :
    |matAt (idct2d (dct2d B).val).val i j - matAt B i j| ≤ 11 := by
  have hX : ∀ u v, u < 8 → v < 8 → matAt (dct2d B).val u v = forwardBlock (matAt B) u v :=
    fun u v hu hv => by rw [matAt_dct2d_eq hshape hu hv, sat32_forwardBlock hB hu hv]
  have hclose := abs_inverseBlock_sub_le hB hX hi hj
  have hcell := hB i j hi hj
  rw [matAt_idct2d_eq (shaped_dct2d B).1 hi hj]
  rw [sat32_of_abs_le (by rw [abs_le] at *; omega)]
  exact hclose

/-- A sample within half of 2^16 of a multiple rounds to that multiple. -/
theorem rnd_sixteen_of_close {z b : Int} (h : |z - b * 2 ^ 16| < 2 ^ 15) : rnd z 16 = b := by
  rw [rnd_sixteen]; rw [abs_lt] at h; omega

theorem matAt_mem {h w : Nat} {M : Mat} (hM : Shaped h w M) {i j : Nat} (hi : i < h) (hj : j < w) :
    ∃ row ∈ M, matAt M i j ∈ row := by
  have hi' : i < M.length := by rw [hM.1]; exact hi
  have hj' : j < M[i].length := by rw [hM.2 _ (List.getElem_mem hi')]; exact hj
  refine ⟨M[i], List.getElem_mem hi', ?_⟩
  rw [matAt, List.getD_eq_getElem _ _ hi', List.getD_eq_getElem _ _ hj']
  exact List.getElem_mem hj'

/-- Settles O37: the 1D bound, the 2D bound, and the rounding back of pixel values. -/
theorem dctRoundTripIsClose : Obligations.DctRoundTripIsClose := by
  refine ⟨fun x hlen hx n hn => (abs_idct8_dct8_sub_le hlen hx hn).trans (by norm_num),
    fun B hlen hB => ?_⟩
  have hshape : Shaped 8 8 B := ⟨hlen, fun row hrow => (hB row hrow).1⟩
  have hcell : ∀ i j, i < 8 → j < 8 → |matAt B i j| ≤ 2 ^ 27 := fun i j _ _ =>
    abs_matAt_le (by norm_num) (fun row hrow => (hB row hrow).2) i j
  have hclose : ∀ i j, i < 8 → j < 8 →
      |matAt (idct2d (dct2d B).val).val i j - matAt B i j| ≤ 11 := fun _ _ hi hj =>
    abs_idct2d_dct2d_sub_le hshape hcell hi hj
  refine ⟨fun i j hi hj => (hclose i j hi hj).trans (by norm_num), fun hpix i j hi hj => ?_⟩
  obtain ⟨row, hrow, hmem⟩ := matAt_mem hshape hi hj
  obtain ⟨b, -, -, hb⟩ := hpix row hrow _ hmem
  have hz := hclose i j hi hj
  rw [hb] at hz ⊢
  rw [rnd_sixteen_of_close (hz.trans_lt (by norm_num))]

end Sys2Proof.Proofs
end

section
/-! PROOFS. PSNR: the defining inequality is downward closed and changes inside the bounds of 40
R129, so bisection finds its greatest exponent (40 R129, R130). -/

namespace Sys2Proof.Proofs

open Sys2Proof.Machine Sys2Proof.Claims Sys2Proof.Laws

/-! ### The defining inequality -/

/-- 10^m·a ≤ b for an integer m, the power moved to the right for m < 0. -/
def TenPowLe (a b : Nat) (m : Int) : Prop := 10 ^ m.toNat * a ≤ b * 10 ^ (-m).toNat

theorem TenPowLe.of_le {a b : Nat} {m m' : Int} (hle : m' ≤ m) (h : TenPowLe a b m) :
    TenPowLe a b m' :=
  calc 10 ^ m'.toNat * a ≤ 10 ^ m.toNat * a :=
        Nat.mul_le_mul_right _ (Nat.pow_le_pow_right (by norm_num) (by omega))
    _ ≤ b * 10 ^ (-m).toNat := h
    _ ≤ b * 10 ^ (-m').toNat :=
        Nat.mul_le_mul_left _ (Nat.pow_le_pow_right (by norm_num) (by omega))

theorem tenPowLe_iff (a b : Nat) (m : Int) :
    TenPowLe a b m ↔ if 0 ≤ m then 10 ^ m.toNat * a ≤ b else a ≤ b * 10 ^ (-m).toNat := by
  unfold TenPowLe
  split
  case isTrue h => rw [show (-m).toNat = 0 by omega, pow_zero, mul_one]
  case isFalse h => rw [show m.toNat = 0 by omega, pow_zero, one_mul]

theorem psnrHolds_iff_tenPowLe (n D : Nat) (m : Int) :
    psnrHolds n D m = true ↔ TenPowLe (D ^ 2560) ((65025 * n * 2 ^ 32) ^ 2560) m :=
  decide_eq_true_iff

/-- The model's inequality, with both powers written, is the rule's. -/
theorem psnrHolds_iff (n D : Nat) (m : Int) : psnrHolds n D m = true ↔ PsnrAtLeast n D m :=
  (psnrHolds_iff_tenPowLe n D m).trans (tenPowLe_iff _ _ m)

theorem psnrHolds_of_le {n D : Nat} {m m' : Int} (hle : m' ≤ m) (h : psnrHolds n D m = true) :
    psnrHolds n D m' = true := by
  rw [psnrHolds_iff_tenPowLe] at *
  exact h.of_le hle

/-! ### The bounds of the exponent -/

/-- A bound on the ratio of two numbers, checked at the tenth power, bounds it at a higher one. -/
theorem pow_le_pow_mul_ten_pow {a x y n e k E : Nat} (ha : a ≤ n * x)
    (hratio : x ^ 10 ≤ y ^ 10 * 10 ^ e) (hE : e * k ≤ E) :
    a ^ (10 * k) ≤ (n * y) ^ (10 * k) * 10 ^ E :=
  calc a ^ (10 * k) ≤ (n * x) ^ (10 * k) := Nat.pow_le_pow_left ha _
    _ = n ^ (10 * k) * (x ^ 10) ^ k := by rw [Nat.mul_pow, pow_mul x]
    _ ≤ n ^ (10 * k) * (y ^ 10 * 10 ^ e) ^ k :=
        Nat.mul_le_mul_left _ (Nat.pow_le_pow_left hratio k)
    _ = (n * y) ^ (10 * k) * 10 ^ (e * k) := by
        rw [Nat.mul_pow, Nat.mul_pow, ← pow_mul, ← pow_mul, mul_assoc]
    _ ≤ (n * y) ^ (10 * k) * 10 ^ E :=
        Nat.mul_le_mul_left _ (Nat.pow_le_pow_right (by norm_num) hE)

/-- Both bounds, for a power K = 10·k. D is at most n·2^64, so that the inequality holds at -E for E
at least 4.9·K; D is at least 1 and n at most 2^32, so that it fails above 24.2·K. -/
theorem ten_pow_bounds {n D k K E F : Nat} (hK : K = 10 * k) (hE : 49 * k ≤ E) (hF : 242 * k < F)
    (hD : D ≠ 0) (hDn : D ≤ n * 2 ^ 64) (hn : n ≤ 2 ^ 32) :
    D ^ K ≤ (65025 * n * 2 ^ 32) ^ K * 10 ^ E ∧ ¬10 ^ F * D ^ K ≤ (65025 * n * 2 ^ 32) ^ K := by
  subst hK
  constructor
  · rw [show 65025 * n * 2 ^ 32 = n * (65025 * 2 ^ 32) by ring]
    exact pow_le_pow_mul_ten_pow hDn (by norm_num) hE
  · rw [not_le]
    calc (65025 * n * 2 ^ 32) ^ (10 * k) ≤ (1 * 1) ^ (10 * k) * 10 ^ (242 * k) :=
          pow_le_pow_mul_ten_pow (x := 65025 * 2 ^ 64) (by omega) (by norm_num) le_rfl
      _ = 10 ^ (242 * k) := by rw [one_mul, one_pow, one_mul]
      _ < 10 ^ F := Nat.pow_lt_pow_right (by norm_num) hF
      _ ≤ 10 ^ F * D ^ (10 * k) :=
          Nat.le_mul_of_pos_right _ (Nat.pow_pos (Nat.pos_of_ne_zero hD))

/-- The inequality holds just above the lower bound and fails at the upper (40 R129). -/
theorem psnrAtLeast_bounds {n D : Nat} (hn : n ≤ 2 ^ 32) (hD : D ≠ 0) (hDn : D ≤ n * 2 ^ 64) :
    PsnrAtLeast n D (-12599) ∧ ¬PsnrAtLeast n D 62000 := by
  rw [PsnrAtLeast, PsnrAtLeast, if_neg (by norm_num), if_pos (by norm_num)]
  exact ten_pow_bounds (k := 256) (K := 2560) (E := (-(-12599) : Int).toNat)
    (F := (62000 : Int).toNat) (by norm_num) (by norm_num) (by norm_num) hD hDn hn

/-! ### Bisection -/

/-- The search ends between two neighbours, with the inequality true at the lower only. -/
theorem psnrSearch_spec {n D fuel : Nat} {lo hi : Int} (hlt : lo < hi) (hfuel : hi - lo ≤ 2 ^ fuel)
    (hlo : psnrHolds n D lo = true) (hhi : psnrHolds n D hi = false) :
    psnrHolds n D (psnrSearch n D fuel lo hi) = true ∧
      psnrHolds n D (psnrSearch n D fuel lo hi + 1) = false := by
  induction fuel generalizing lo hi with
  | zero =>
    rw [show hi = lo + 1 by omega] at hhi
    exact ⟨hlo, hhi⟩
  | succ fuel ih =>
    rw [pow_succ] at hfuel
    unfold psnrSearch
    split
    · rw [show hi = lo + 1 by omega] at hhi
      exact ⟨hlo, hhi⟩
    · split
      next hmid => exact ih (by omega) (by omega) hmid hhi
      next hmid => exact ih (by omega) (by omega) hlo (Bool.eq_false_iff.2 hmid)

/-- psnr_q is the greatest exponent of the inequality, strictly inside the bounds (40 R129). -/
theorem psnrQ_spec {n D : Nat} (hn : n ≤ 2 ^ 32) (hD : D ≠ 0) (hDn : D ≤ n * 2 ^ 64) :
    -12600 < psnrQ n D ∧ psnrQ n D < 62000 ∧ PsnrAtLeast n D (psnrQ n D) ∧
      ∀ m, PsnrAtLeast n D m → m ≤ psnrQ n D := by
  obtain ⟨hlow, hhigh⟩ := psnrAtLeast_bounds hn hD hDn
  rw [← psnrHolds_iff] at hlow hhigh
  have hhigh := Bool.eq_false_iff.2 hhigh
  obtain ⟨hq, hnext⟩ := psnrSearch_spec (fuel := 20) (lo := -12600) (by norm_num) (by norm_num)
    (psnrHolds_of_le (by norm_num) hlow) hhigh
  have hdef : psnrSearch n D 20 (-12600) 62000 = psnrQ n D := rfl
  rw [hdef] at hq hnext
  generalize psnrQ n D = q at hq hnext ⊢
  have below {m m' : Int} (hm : psnrHolds n D m = true) (hm' : psnrHolds n D m' = false) :
      m < m' := by
    by_contra hge
    exact Bool.false_ne_true (hm'.symm.trans (psnrHolds_of_le (by omega) hm))
  have hgreatest : ∀ m, psnrHolds n D m = true → m ≤ q := fun m hm =>
    Int.lt_add_one_iff.1 (below hm hnext)
  have habove := hgreatest _ hlow
  exact ⟨by omega, below hq hhigh, (psnrHolds_iff n D _).1 hq,
    fun m hm => hgreatest m ((psnrHolds_iff n D m).2 hm)⟩

/-! ### The command -/

theorem squaredDiff_congr {A A' B B' : Nat → Nat → Int} {h w : Nat}
    (hA : ∀ i j, i < h → j < w → A i j = A' i j) (hB : ∀ i j, i < h → j < w → B i j = B' i j) :
    squaredDiff A B h w = squaredDiff A' B' h w :=
  Finset.sum_congr rfl fun i hi => Finset.sum_congr rfl fun j hj => by
    rw [hA i j (Finset.mem_range.1 hi) (Finset.mem_range.1 hj),
      hB i j (Finset.mem_range.1 hi) (Finset.mem_range.1 hj)]

theorem squaredError_eq_squaredDiff {A B : Mat} {h w : Nat} (hA : Shaped h w A)
    (hB : Shaped h w B) : squaredError A B = squaredDiff (matAt A) (matAt B) h w :=
  squaredError_eq_sum hA hB

/-- Two samples differ by less than 2^32, so D is at most n·2^64 (40 R129). -/
theorem squaredDiff_le {A B : Nat → Nat → Int} {h w : Nat}
    (hA : ∀ i j, -2147483648 ≤ A i j ∧ A i j ≤ 2147483647)
    (hB : ∀ i j, -2147483648 ≤ B i j ∧ B i j ≤ 2147483647) :
    squaredDiff A B h w ≤ h * w * 2 ^ 64 := by
  have hcell : ∀ i j, ((A i j - B i j) ^ 2).toNat ≤ 2 ^ 64 := by
    intro i j
    have ha := hA i j
    have hb := hB i j
    have hsq : (A i j - B i j) ^ 2 ≤ (2 ^ 32) ^ 2 := sq_le_sq' (by omega) (by omega)
    omega
  calc squaredDiff A B h w
      ≤ ∑ _i ∈ Finset.range h, ∑ _j ∈ Finset.range w, 2 ^ 64 :=
        Finset.sum_le_sum fun i _ => Finset.sum_le_sum fun j _ => hcell i j
    _ = h * w * 2 ^ 64 := by simp [mul_assoc]

/-- PSNR reports on the D of the matrices at SRC and AUX (40 R130). -/
theorem exec_psnr {s : State} (hruns : Runs .psnr s) :
    exec .psnr s = .next (finish (psnrReport (s.snap.h.toNat * s.snap.w.toNat)
      (squaredDiff
        (fun i j => sampleAt s.mem (s.snap.src.toNat + 4 * (i * s.snap.w.toNat + j)))
        (fun i j => sampleAt s.mem (s.snap.aux.toNat + 4 * (i * s.snap.w.toNat + j)))
        s.snap.h.toNat s.snap.w.toNat) s)) := by
  have hD := squaredError_eq_squaredDiff
    (shaped_loadMatrix s.mem s.snap.srcAddr s.snap.height s.snap.width)
    (shaped_loadMatrix s.mem s.snap.auxAddr s.snap.height s.snap.width)
  rw [squaredDiff_congr (fun _ _ => matAt_loadMatrix) (fun _ _ => matAt_loadMatrix)] at hD
  rw [exec_of_runs hruns, operationOf, psnrOperation, hD]
  rfl

theorem finish_psnrReport_zero (n : Nat) (s : State) : finish (psnrReport n 0 s) = { s with
    status := { doneStatus s.status false with psnrInf := true, psnrPass := true }
    results := { s.results with psnr := 0x7FFFFFFF } } := by
  rw [doneStatus_false]; rfl

theorem finish_psnrReport {n D : Nat} (hD : D ≠ 0) (s : State) :
    finish (psnrReport n D s) = { s with
      status := { doneStatus s.status false with
        psnrPass := decide (psnrQ n D ≥ s.snap.t.toInt) }
      results := { s.results with psnr := BitVec.ofInt 32 (psnrQ n D) } } := by
  rw [doneStatus_false, psnrReport, if_neg hD]
  generalize psnrQ n D = q
  rfl

/-- Settles O25: D = 0 apart, psnr_q by its specification. -/
theorem psnrIsGreatest : Obligations.PsnrIsGreatest := by
  intro s hruns w h D
  have hexec : exec .psnr s = .next (finish (psnrReport (h * w) D s)) := exec_psnr hruns
  refine ⟨fun hD => by rw [hexec, hD, finish_psnrReport_zero], fun hD => ?_⟩
  have hn : h * w ≤ 2 ^ 32 :=
    calc h * w ≤ 2 ^ 16 * 2 ^ 16 := Nat.mul_le_mul s.snap.h.isLt.le s.snap.w.isLt.le
      _ = 2 ^ 32 := by norm_num
  have hDn : D ≤ h * w * 2 ^ 64 :=
    squaredDiff_le (fun _ _ => sampleAt_bounds _ _) (fun _ _ => sampleAt_bounds _ _)
  clear_value D h w
  have hspec := psnrQ_spec hn hD hDn
  rw [hexec, finish_psnrReport hD]
  generalize psnrQ (h * w) D = q at hspec ⊢
  obtain ⟨hlow, hhigh, hholds, hgreatest⟩ := hspec
  exact ⟨q, hlow, hhigh, hholds, hgreatest, rfl⟩

end Sys2Proof.Proofs
end

section
/-! PROOFS. The Haar kernels and the subband layout in index form, and DWT2D and IDWT2D (40 R119 to
R125). -/

namespace Sys2Proof.Proofs

open Sys2Proof.Machine Sys2Proof.Claims Sys2Proof.Laws

/-! ### Sizes -/

theorem levelSize_pos {x : Nat} (hx : 1 ≤ x) (l : Nat) : 1 ≤ levelSize x l := by
  induction l with
  | zero => exact hx
  | succ l ih => rw [levelSize]; omega

theorem levelSize_one (x : Nat) : levelSize x 1 = halfUp x := rfl

theorem levelSize_le_two_mul (x l : Nat) : levelSize x l ≤ 2 * levelSize x (l + 1) := by
  rw [levelSize]; omega

/-- Halving a position of a level gives a position of the next. -/
theorem div_two_lt_levelSize {x l i : Nat} (h : i < levelSize x l) :
    i / 2 < levelSize x (l + 1) := by
  rw [levelSize]; omega

/-! ### The subbands by number -/

/-- Subband t of a level: 0 is LH, 1 is HL, 2 is HH (40 R119). -/
def bandOf (b : Bands) : Nat → Mat
  | 0 => b.lh
  | 1 => b.hl
  | _ => b.hh

/-- Element (i, j) of subband t of level l + 1 of a decomposition (40 R121). -/
def bandAt (bs : List Bands) (t l i j : Nat) : Int :=
  match bs[l]? with
  | some b => matAt (bandOf b t) i j
  | none => 0

/-! ### The layout (40 R123) -/

theorem bandWord_succ (h w t l i j : Nat) : bandWord h w t (l + 1) i j =
    3 * (halfUp h * halfUp w) + bandWord (halfUp h) (halfUp w) t l i j := by
  unfold bandWord
  rw [bandOffset_succ, levelSize_halfUp, levelSize_halfUp]
  omega

theorem topWord_succ (h w lv i j : Nat) : topWord h w (lv + 1) i j =
    3 * (halfUp h * halfUp w) + topWord (halfUp h) (halfUp w) lv i j := by
  unfold topWord
  rw [bandOffset_succ, levelSize_halfUp, Nat.add_assoc]

/-- The subbands of level 1 stand first, LH, HL, HH in turn. -/
theorem bandWord_zero (h w t i j : Nat) :
    bandWord h w t 0 i j = t * (halfUp h * halfUp w) + (i * halfUp w + j) := by
  simp [bandWord, bandOffset, levelSize_one]

theorem topWord_zero (h w i j : Nat) : topWord h w 0 i j = i * w + j := by
  simp [topWord, bandOffset, levelSize]

theorem layoutSamples_cons (b : Bands) (bs : List Bands) (ll : Mat) :
    layoutSamples { details := b :: bs, ll := ll } =
      b.lh.flatten ++ (b.hl.flatten ++ (b.hh.flatten ++
        layoutSamples { details := bs, ll := ll })) := by
  simp [layoutSamples]

/-- Past the three subbands of level 1 stands the layout of the deeper levels. -/
theorem getD_layoutSamples_cons {h w : Nat} {b : Bands} {bs : List Bands} (ll : Mat)
    (hb : BandsShaped h w (b :: bs)) (k : Nat) :
    (layoutSamples { details := b :: bs, ll := ll }).getD
        (3 * (halfUp h * halfUp w) + k) 0 =
      (layoutSamples { details := bs, ll := ll }).getD k 0 := by
  obtain ⟨hlh, hhl, hhh, -⟩ := hb
  have e1 := length_flatten hlh
  have e2 := length_flatten hhl
  have e3 := length_flatten hhh
  rw [layoutSamples_cons, List.getD_append_right _ _ _ _ (by omega),
    List.getD_append_right _ _ _ _ (by omega), List.getD_append_right _ _ _ _ (by omega)]
  congr 1
  omega

theorem getD_layoutSamples_first {h w : Nat} {b : Bands} {bs : List Bands} {ll : Mat}
    (hb : BandsShaped h w (b :: bs)) {t i j : Nat} (ht : t < 3) (hi : i < halfUp h)
    (hj : j < halfUp w) : (layoutSamples { details := b :: bs, ll := ll }).getD
        (t * (halfUp h * halfUp w) + (i * halfUp w + j)) 0 = matAt (bandOf b t) i j := by
  obtain ⟨hlh, hhl, hhh, -⟩ := hb
  have e1 := length_flatten hlh
  have e2 := length_flatten hhl
  have e3 := length_flatten hhh
  have hlt := index_lt_mul hi hj
  rw [layoutSamples_cons]
  match t, ht with
  | 0, _ =>
    rw [List.getD_append _ _ _ _ (by omega), zero_mul, zero_add]
    exact getD_flatten hlh hi hj 0
  | 1, _ =>
    rw [List.getD_append_right _ _ _ _ (by omega), List.getD_append _ _ _ _ (by omega), e1,
      one_mul, Nat.add_sub_cancel_left]
    exact getD_flatten hhl hi hj 0
  | 2, _ =>
    rw [List.getD_append_right _ _ _ _ (by omega), List.getD_append_right _ _ _ _ (by omega),
      List.getD_append _ _ _ _ (by omega), e1, e2, two_mul, Nat.add_assoc,
      Nat.add_sub_cancel_left, Nat.add_sub_cancel_left]
    exact getD_flatten hhh hi hj 0

/-- Every detail coefficient stands at its word of the layout (40 R123). -/
theorem getD_layoutSamples_band {h w : Nat} {bs : List Bands} {ll : Mat} {t l i j : Nat}
    (hb : BandsShaped h w bs) (ht : t < 3) (hl : l < bs.length) (hi : i < levelSize h (l + 1))
    (hj : j < levelSize w (l + 1)) :
    (layoutSamples { details := bs, ll := ll }).getD (bandWord h w t l i j) 0 =
      bandAt bs t l i j := by
  induction bs generalizing h w l with
  | nil => contradiction
  | cons b bs ih =>
    cases l with
    | zero => rw [bandWord_zero]; exact getD_layoutSamples_first hb ht hi hj
    | succ l =>
      rw [bandWord_succ, getD_layoutSamples_cons ll hb]
      rw [← levelSize_halfUp] at hi hj
      exact ih hb.2.2.2 (by simpa using hl) hi hj

/-- Every element of LL_Lv stands at its word of the layout (40 R123). -/
theorem getD_layoutSamples_top {h w : Nat} {bs : List Bands} {ll : Mat} {i j : Nat}
    (hb : BandsShaped h w bs) (hll : Shaped (deepSize h bs.length) (deepSize w bs.length) ll)
    (hi : i < levelSize h bs.length) (hj : j < levelSize w bs.length) :
    (layoutSamples { details := bs, ll := ll }).getD (topWord h w bs.length i j) 0 =
      matAt ll i j := by
  induction bs generalizing h w with
  | nil => rw [List.length_nil, topWord_zero]; exact getD_flatten hll hi hj 0
  | cons b bs ih =>
    rw [List.length_cons] at *
    rw [topWord_succ, getD_layoutSamples_cons ll hb]
    rw [← levelSize_halfUp] at hi hj
    exact ih hb.2.2.2 hll hi hj

/-- A loaded detail coefficient (40 R123). -/
theorem bandAt_loadLayout {m : Memory} {a h w lv t l i j : Nat} (ht : t < 3) (hl : l < lv)
    (hi : i < levelSize h (l + 1)) (hj : j < levelSize w (l + 1)) :
    bandAt (loadLayout m a h w lv).details t l i j =
      sampleAt m (a + 4 * bandWord h w t l i j) := by
  induction lv generalizing a h w l with
  | zero => omega
  | succ lv ih =>
    cases l with
    | zero =>
      rw [bandWord_zero]
      match t, ht with
      | 0, _ => exact (matAt_loadMatrix hi hj).trans (congrArg _ (by rw [levelSize_one]; ring))
      | 1, _ => exact (matAt_loadMatrix hi hj).trans (congrArg _ (by rw [levelSize_one]; ring))
      | 2, _ => exact (matAt_loadMatrix hi hj).trans (congrArg _ (by rw [levelSize_one]; ring))
    | succ l =>
      rw [← levelSize_halfUp] at hi hj
      rw [bandWord_succ]
      refine (ih (by omega) hi hj).trans (congrArg _ ?_)
      ring

/-- A loaded element of LL_Lv (40 R123). -/
theorem matAt_loadLayout_ll {m : Memory} {a h w lv i j : Nat} (hi : i < levelSize h lv)
    (hj : j < levelSize w lv) :
    matAt (loadLayout m a h w lv).ll i j = sampleAt m (a + 4 * topWord h w lv i j) := by
  induction lv generalizing a h w with
  | zero => rw [topWord_zero]; exact matAt_loadMatrix hi hj
  | succ lv ih =>
    rw [← levelSize_halfUp] at hi hj
    rw [topWord_succ]
    refine (ih hi hj).trans (congrArg _ ?_)
    ring

/-! ### The forward transform in index form (40 R119, R121) -/

/-- A forward output reads the matrix inside its h × w elements. -/
theorem haarOut_congr {A A' : Nat → Nat → Int} {h w : Nat} (hh : 1 ≤ h) (hw : 1 ≤ w)
    (hA : ∀ i j, i < h → j < w → A i j = A' i j) (t i j : Nat) :
    haarOut A h w t i j = haarOut A' h w t i j := by
  have hedge : ∀ i j, edge A h w i j = edge A' h w i j := fun i j =>
    hA _ _ (by omega) (by omega)
  simp only [haarOut, hedge]

theorem levelLL_congr {A A' : Nat → Nat → Int} {h w : Nat} (hh : 1 ≤ h) (hw : 1 ≤ w)
    (hA : ∀ i j, i < h → j < w → A i j = A' i j) {l i j : Nat} (hi : i < levelSize h l)
    (hj : j < levelSize w l) : levelLL A h w l i j = levelLL A' h w l i j := by
  induction l generalizing i j with
  | zero => exact hA i j hi hj
  | succ l ih =>
    exact congrArg sat32 (haarOut_congr (levelSize_pos hh l) (levelSize_pos hw l)
      (fun _ _ hi hj => ih hi hj) 3 i j)

theorem levelOut_congr {A A' : Nat → Nat → Int} {h w : Nat} (hh : 1 ≤ h) (hw : 1 ≤ w)
    (hA : ∀ i j, i < h → j < w → A i j = A' i j) (t l i j : Nat) :
    levelOut A h w t l i j = levelOut A' h w t l i j :=
  haarOut_congr (levelSize_pos hh l) (levelSize_pos hw l)
    (fun _ _ hi hj => levelLL_congr hh hw hA hi hj) t i j

/-- LL_l is saturated from level 1 on. -/
theorem sat32_levelLL {A : Nat → Nat → Int} {h w l i j : Nat} (hl : 1 ≤ l) :
    sat32 (levelLL A h w l i j) = levelLL A h w l i j := by
  cases l with
  | zero => omega
  | succ l => exact sat32_sat32 _

/-- The levels of LL_1 are the later levels of the matrix. -/
theorem levelLL_levelLL (A : Nat → Nat → Int) (h w l : Nat) :
    levelLL (levelLL A h w 1) (halfUp h) (halfUp w) l = levelLL A h w (l + 1) := by
  induction l with
  | zero => rfl
  | succ l ih => rw [levelLL, ih, levelSize_halfUp, levelSize_halfUp]; rfl

theorem levelOut_levelLL (A : Nat → Nat → Int) (h w t l i j : Nat) :
    levelOut (levelLL A h w 1) (halfUp h) (halfUp w) t l i j = levelOut A h w t (l + 1) i j := by
  rw [levelOut, levelLL_levelLL, levelSize_halfUp, levelSize_halfUp]; rfl

/-- The four kernels in one: the model's signs are the rule's (40 R119). -/
theorem matAt_haarBand_eq {A : Mat} {h w i j : Nat} (t : Nat) (hi : i < halfUp h)
    (hj : j < halfUp w) :
    matAt (haarBand (bandSigns t).1 (bandSigns t).2.1 (bandSigns t).2.2 A h w).val i j =
      sat32 (haarOut (matAt A) h w t i j) := matAt_haarBand hi hj

theorem clipped_haarBand_iff {A : Mat} {h w : Nat} (t : Nat) :
    (haarBand (bandSigns t).1 (bandSigns t).2.1 (bandSigns t).2.2 A h w).clipped = true ↔
      ∃ i j, i < halfUp h ∧ j < halfUp w ∧
        sat32 (haarOut (matAt A) h w t i j) ≠ haarOut (matAt A) h w t i j := clipped_haarBand

theorem matAt_haarLL_eq {A : Mat} {h w i j : Nat} (hi : i < halfUp h) (hj : j < halfUp w) :
    matAt (haarLL A h w).val i j = levelLL (matAt A) h w 1 i j := matAt_haarBand_eq 3 hi hj

section
variable {A : Mat} {h w : Nat} (hh : 1 ≤ h) (hw : 1 ≤ w)
include hh hw

/-- The deeper levels of the model's recursion are those of the matrix. -/
theorem levelOut_haarLL (t l i j : Nat) :
    levelOut (matAt (haarLL A h w).val) (halfUp h) (halfUp w) t l i j =
      levelOut (matAt A) h w t (l + 1) i j := by
  rw [levelOut_congr (halfUp_pos hh) (halfUp_pos hw) fun _ _ => matAt_haarLL_eq,
    levelOut_levelLL]

/-- Each detail coefficient of dwt (40 R121). -/
theorem bandAt_dwt {lv t l i j : Nat} (ht : t < 3) (hl : l < lv) (hi : i < levelSize h (l + 1))
    (hj : j < levelSize w (l + 1)) :
    bandAt (dwt A h w lv).val.details t l i j = sat32 (levelOut (matAt A) h w t l i j) := by
  induction lv generalizing A h w l with
  | zero => omega
  | succ lv ih =>
    cases l with
    | zero =>
      match t, ht with
      | 0, _ => exact matAt_haarBand_eq 0 hi hj
      | 1, _ => exact matAt_haarBand_eq 1 hi hj
      | 2, _ => exact matAt_haarBand_eq 2 hi hj
    | succ l =>
      rw [← levelSize_halfUp] at hi hj
      rw [← levelOut_haarLL hh hw]
      exact ih (halfUp_pos hh) (halfUp_pos hw) (by omega) hi hj

/-- Each element of LL_Lv (40 R121). -/
theorem matAt_dwt_ll {lv i j : Nat} (hi : i < levelSize h lv) (hj : j < levelSize w lv) :
    matAt (dwt A h w lv).val.ll i j = levelLL (matAt A) h w lv i j := by
  induction lv generalizing A h w with
  | zero => rfl
  | succ lv ih =>
    rw [← levelSize_halfUp] at hi hj
    rw [← levelLL_levelLL, ← levelLL_congr (halfUp_pos hh) (halfUp_pos hw)
      (fun _ _ => matAt_haarLL_eq) hi hj]
    exact ih (halfUp_pos hh) (halfUp_pos hw) hi hj

/-- A clip of dwt is one of level 1 or of the deeper levels. -/
theorem forwardDwtClips_succ (lv : Nat) : ForwardDwtClips (matAt A) h w (lv + 1) ↔
    (∃ t < 4, ∃ i j, i < halfUp h ∧ j < halfUp w ∧
      sat32 (haarOut (matAt A) h w t i j) ≠ haarOut (matAt A) h w t i j) ∨
    ForwardDwtClips (matAt (haarLL A h w).val) (halfUp h) (halfUp w) lv := by
  simp only [ForwardDwtClips, levelOut_haarLL hh hw, levelSize_halfUp]
  constructor
  · rintro ⟨l, t, i, j, hl, ht, hi, hj, hc⟩
    cases l with
    | zero => exact .inl ⟨t, ht, i, j, hi, hj, hc⟩
    | succ l => exact .inr ⟨l, t, i, j, by omega, ht, hi, hj, hc⟩
  · rintro (⟨t, ht, i, j, hi, hj, hc⟩ | ⟨l, t, i, j, hl, ht, hi, hj, hc⟩)
    · exact ⟨0, t, i, j, by omega, ht, hi, hj, hc⟩
    · exact ⟨l + 1, t, i, j, by omega, ht, hi, hj, hc⟩

theorem clipped_dwt_iff (lv : Nat) :
    (dwt A h w lv).clipped = true ↔ ForwardDwtClips (matAt A) h w lv := by
  induction lv generalizing A h w with
  | zero => simp [dwt, ForwardDwtClips]
  | succ lv ih =>
    have hfour (P : Nat → Prop) : (∃ t < 4, P t) ↔ ((P 3 ∨ P 0) ∨ P 1) ∨ P 2 := by
      constructor
      · rintro ⟨t, ht, hP⟩; interval_cases t <;> simp [hP]
      · rintro (((hP | hP) | hP) | hP) <;> exact ⟨_, by omega, hP⟩
    rw [forwardDwtClips_succ hh hw, ← ih (halfUp_pos hh) (halfUp_pos hw), hfour]
    simp only [dwt, Bool.or_eq_true, ← clipped_haarBand_iff]
    rfl

end

/-- A transform reads the matrix inside its h × w elements only. -/
theorem forwardDwtClips_congr {A A' : Nat → Nat → Int} {h w : Nat} (hh : 1 ≤ h) (hw : 1 ≤ w)
    (hA : ∀ i j, i < h → j < w → A i j = A' i j) (lv : Nat) :
    ForwardDwtClips A h w lv ↔ ForwardDwtClips A' h w lv := by
  simp only [ForwardDwtClips, levelOut_congr hh hw hA]

/-! ### The words of the layout lie inside it -/

theorem bandOffset_mono (h w : Nat) {l l' : Nat} (hl : l ≤ l') :
    bandOffset h w l ≤ bandOffset h w l' :=
  Finset.sum_le_sum_of_subset (Finset.range_mono hl)

theorem bandWord_lt {h w lv t l i j : Nat} (ht : t < 3) (hl : l < lv)
    (hi : i < levelSize h (l + 1)) (hj : j < levelSize w (l + 1)) :
    bandWord h w t l i j < layoutWords h w lv := by
  have hlt := index_lt_mul hi hj
  have hoff : bandOffset h w (l + 1) ≤ bandOffset h w lv := bandOffset_mono h w hl
  have hstep : bandOffset h w (l + 1) =
      bandOffset h w l + 3 * (levelSize h (l + 1) * levelSize w (l + 1)) :=
    Finset.sum_range_succ _ _
  have hband : t * (levelSize h (l + 1) * levelSize w (l + 1)) ≤
      2 * (levelSize h (l + 1) * levelSize w (l + 1)) := Nat.mul_le_mul_right _ (by omega)
  rw [layoutWords_eq_bandOffset, bandWord]
  omega

theorem topWord_lt {h w lv i j : Nat} (hi : i < levelSize h lv) (hj : j < levelSize w lv) :
    topWord h w lv i j < layoutWords h w lv := by
  have hlt := index_lt_mul hi hj
  rw [layoutWords_eq_bandOffset, topWord]
  omega

/-! ### DWT2D -/

/-- Settles O21: the decomposition of the matrix at SRC, laid out at DST. -/
theorem dwt2dTransforms : Obligations.Dwt2dTransforms := by
  intro s hruns w h lv A
  obtain ⟨hw, hh⟩ : 1 ≤ w ∧ 1 ≤ h := runs_dims hruns rfl
  have hlv : 1 ≤ lv := (runs_levels hruns rfl).1
  set M := loadMatrix s.mem s.snap.src.toNat h w
  have hM : Shaped h w M := shaped_loadMatrix _ _ _ _
  have hMA : ∀ i j, i < h → j < w → matAt M i j = A i j := fun _ _ => matAt_loadMatrix
  set d := (dwt M h w lv).val
  have hexec : exec .dwt2d s = .next { s with
      mem := writeBytes s.mem s.snap.dst.toNat (sampleBytes (layoutSamples d))
      status := doneStatus s.status (dwt M h w lv).clipped } :=
    exec_of_noteSat_putBytes hruns rfl
  obtain ⟨hbands, hll⟩ : BandsShaped h w d.details ∧
    Shaped (deepSize h lv) (deepSize w lv) d.ll := shaped_dwt hM lv
  have hlen : (layoutSamples d).length = layoutWords h w lv := length_layoutSamples_dwt hM lv
  have hdetails : d.details.length = lv := length_dwt_details M h w lv
  refine ⟨_, _, hexec, fun t l i j ht hl hi hj => ?_, fun i j hi hj => ?_,
    sameOutside_putSamples (by rw [hlen, layoutWords_eq_bandOffset]),
    (clipped_dwt_iff hh hw lv).trans (forwardDwtClips_congr hh hw hMA lv)⟩
  · rw [sampleAt_putSamples (by rw [hlen]; exact bandWord_lt ht hl hi hj),
      getD_layoutSamples_band hbands ht (by omega) hi hj, bandAt_dwt hh hw ht hl hi hj,
      sat32_sat32, levelOut_congr hh hw hMA]
  · have htop : (layoutSamples d).getD (topWord h w lv i j) 0 = matAt d.ll i j := by
      have := getD_layoutSamples_top (ll := d.ll) (i := i) (j := j) hbands
      rw [hdetails] at this
      exact this hll hi hj
    rw [sampleAt_putSamples (by rw [hlen]; exact topWord_lt hi hj), htop,
      matAt_dwt_ll hh hw hi hj, levelLL_congr hh hw hMA hi hj, sat32_levelLL hlv]

end Sys2Proof.Proofs
end

section
/-! PROOFS. The inverse Haar transform in index form, IDWT2D (40 R120, R122, R125), and the round
trip of the Haar transform (40 R134). -/

namespace Sys2Proof.Proofs

open Sys2Proof.Machine Sys2Proof.Claims Sys2Proof.Laws

/-! ### One inverse step -/

theorem matAt_ihaar_eq {ll : Mat} {b : Bands} {h w i j : Nat} (hi : i < h) (hj : j < w) :
    matAt (ihaar ll b h w).val i j =
      sat32 (ihaarOut (matAt ll (i / 2) (j / 2)) (matAt b.lh (i / 2) (j / 2))
        (matAt b.hl (i / 2) (j / 2)) (matAt b.hh (i / 2) (j / 2)) i j) := matAt_ihaar hi hj

theorem clipped_ihaar_iff {ll : Mat} {b : Bands} {h w : Nat} :
    (ihaar ll b h w).clipped = true ↔ ∃ i j, i < 2 * halfUp h ∧ j < 2 * halfUp w ∧
      sat32 (ihaarOut (matAt ll (i / 2) (j / 2)) (matAt b.lh (i / 2) (j / 2))
        (matAt b.hl (i / 2) (j / 2)) (matAt b.hh (i / 2) (j / 2)) i j) ≠
      ihaarOut (matAt ll (i / 2) (j / 2)) (matAt b.lh (i / 2) (j / 2))
        (matAt b.hl (i / 2) (j / 2)) (matAt b.hh (i / 2) (j / 2)) i j := clipped_ihaar

/-! ### The steps of the inverse transform (40 R122) -/

section
variable (top : Nat → Nat → Int) (band : Nat → Nat → Nat → Nat → Int)

theorem inverseLL_succ (lv d i j : Nat) :
    inverseLL top band lv (d + 1) i j = sat32 (inverseOut top band lv d i j) := rfl

/-- A transform of one more level starts with the steps of its deeper levels. -/
theorem inverseLL_succ_levels {lv d : Nat} (hd : d ≤ lv) :
    inverseLL top band (lv + 1) d = inverseLL top (fun t l => band t (l + 1)) lv d := by
  induction d with
  | zero => rfl
  | succ d ih =>
    have hlevel : lv + 1 - 1 - d = lv - 1 - d + 1 := by omega
    funext i j
    rw [inverseLL, inverseLL, ih (by omega), hlevel]

theorem inverseOut_succ_levels {lv d : Nat} (hd : d < lv) (i j : Nat) :
    inverseOut top band (lv + 1) d i j = inverseOut top (fun t l => band t (l + 1)) lv d i j := by
  have hlevel : lv + 1 - 1 - d = lv - 1 - d + 1 := by omega
  rw [inverseOut, inverseOut, inverseLL_succ_levels top band hd.le, hlevel]

/-- The last step works on level 1. -/
theorem inverseOut_last (lv i j : Nat) : inverseOut top band (lv + 1) lv i j =
    ihaarOut (inverseLL top (fun t l => band t (l + 1)) lv lv (i / 2) (j / 2))
      (band 0 0 (i / 2) (j / 2)) (band 1 0 (i / 2) (j / 2)) (band 2 0 (i / 2) (j / 2)) i j := by
  have hlevel : lv + 1 - 1 - lv = 0 := by omega
  rw [inverseOut, inverseLL_succ_levels top band le_rfl, hlevel]

end

theorem sat32_inverseLL {top : Nat → Nat → Int} {band : Nat → Nat → Nat → Nat → Int}
    {lv d i j : Nat} (hd : 1 ≤ d) :
    sat32 (inverseLL top band lv d i j) = inverseLL top band lv d i j := by
  cases d with
  | zero => omega
  | succ d => exact sat32_sat32 _

/-- Each element of idwt (40 R122). -/
theorem matAt_idwt {ll : Mat} {bs : List Bands} {h w i j : Nat} (hi : i < h) (hj : j < w) :
    matAt (idwt ll bs h w).val i j = inverseLL (matAt ll) (bandAt bs) bs.length bs.length i j := by
  induction bs generalizing h w i j with
  | nil => rfl
  | cons b bs ih =>
    rw [List.length_cons, inverseLL_succ, inverseOut_last]
    refine (matAt_ihaar_eq hi hj).trans ?_
    rw [ih (half_lt_halfUp hi) (half_lt_halfUp hj)]
    rfl

/-- A clip of idwt is one of a step, at any position the step computes (40 R120). -/
theorem clipped_idwt_iff {ll : Mat} {bs : List Bands} {h w : Nat} :
    (idwt ll bs h w).clipped = true ↔
      InverseDwtClipsComputed (matAt ll) (bandAt bs) h w bs.length := by
  induction bs generalizing h w with
  | nil => simp [idwt, InverseDwtClipsComputed]
  | cons b bs ih =>
    have hlast : ∀ i j, i < 2 * halfUp h → j < 2 * halfUp w →
        inverseOut (matAt ll) (bandAt (b :: bs)) (bs.length + 1) bs.length i j =
          ihaarOut (matAt (idwt ll bs (halfUp h) (halfUp w)).val (i / 2) (j / 2))
            (matAt b.lh (i / 2) (j / 2)) (matAt b.hl (i / 2) (j / 2))
            (matAt b.hh (i / 2) (j / 2)) i j := fun i j hi hj => by
      rw [inverseOut_last, matAt_idwt (by omega) (by omega)]; rfl
    have hstep : ∀ d < bs.length, ∀ i j,
        inverseOut (matAt ll) (bandAt (b :: bs)) (bs.length + 1) d i j =
          inverseOut (matAt ll) (bandAt bs) bs.length d i j := fun d hd =>
      inverseOut_succ_levels _ _ hd
    have hsize : ∀ x, ∀ d < bs.length,
        levelSize x (bs.length + 1 - d) = levelSize (halfUp x) (bs.length - d) := fun x d hd => by
      rw [levelSize_halfUp]; congr 1; omega
    have hone : ∀ x, levelSize x (bs.length + 1 - bs.length) = halfUp x := fun x => by
      rw [Nat.add_sub_cancel_left]; rfl
    simp only [idwt, Bool.or_eq_true, ih, clipped_ihaar_iff]
    constructor
    · rintro (⟨d, i, j, hd, hi, hj, hc⟩ | ⟨i, j, hi, hj, hc⟩)
      · rw [← hsize _ d hd] at hi hj
        rw [← hstep d hd] at hc
        exact ⟨d, i, j, Nat.lt_succ_of_lt hd, hi, hj, hc⟩
      · rw [← hlast i j hi hj] at hc
        rw [← hone] at hi hj
        exact ⟨bs.length, i, j, Nat.lt_succ_self _, hi, hj, hc⟩
    · rintro ⟨d, i, j, hd, hi, hj, hc⟩
      rw [List.length_cons] at hd hi hj hc
      rcases Nat.lt_succ_iff_lt_or_eq.1 hd with hd | rfl
      · rw [hsize _ d hd] at hi hj
        rw [hstep d hd] at hc
        exact .inl ⟨d, i, j, hd, hi, hj, hc⟩
      · rw [hone] at hi hj
        rw [hlast i j hi hj] at hc
        exact .inr ⟨i, j, hi, hj, hc⟩

/-! ### The inverse transform reads each subband inside its elements only -/

section
variable {top top' : Nat → Nat → Int} {band band' : Nat → Nat → Nat → Nat → Int} {h w lv : Nat}
  (htop : ∀ i j, i < levelSize h lv → j < levelSize w lv → top i j = top' i j)
  (hband : ∀ t l i j, t < 3 → l < lv → i < levelSize h (l + 1) → j < levelSize w (l + 1) →
    band t l i j = band' t l i j)
include hband

theorem inverseOut_congr_of_inverseLL {d i j : Nat} (hd : d < lv)
    (hi : i / 2 < levelSize h (lv - d)) (hj : j / 2 < levelSize w (lv - d))
    (hLL : inverseLL top band lv d (i / 2) (j / 2) = inverseLL top' band' lv d (i / 2) (j / 2)) :
    inverseOut top band lv d i j = inverseOut top' band' lv d i j := by
  have hlevel : lv - 1 - d + 1 = lv - d := by omega
  have hdetail : ∀ t < 3, band t (lv - 1 - d) (i / 2) (j / 2) =
      band' t (lv - 1 - d) (i / 2) (j / 2) := fun t ht =>
    hband t _ _ _ ht (by omega) (by rwa [hlevel]) (by rwa [hlevel])
  rw [inverseOut, inverseOut, hLL, hdetail 0 (by omega), hdetail 1 (by omega),
    hdetail 2 (by omega)]

include htop

theorem inverseLL_congr {d i j : Nat} (hd : d ≤ lv) (hi : i < levelSize h (lv - d))
    (hj : j < levelSize w (lv - d)) :
    inverseLL top band lv d i j = inverseLL top' band' lv d i j := by
  induction d generalizing i j with
  | zero => exact htop i j hi hj
  | succ d ih =>
    have hlevel : lv - (d + 1) + 1 = lv - d := by omega
    have hi2 := div_two_lt_levelSize hi
    have hj2 := div_two_lt_levelSize hj
    rw [hlevel] at hi2 hj2
    exact congrArg sat32
      (inverseOut_congr_of_inverseLL hband hd hi2 hj2 (ih (Nat.le_of_succ_le hd) hi2 hj2))

theorem inverseOut_congr {d i j : Nat} (hd : d < lv) (hi : i < 2 * levelSize h (lv - d))
    (hj : j < 2 * levelSize w (lv - d)) :
    inverseOut top band lv d i j = inverseOut top' band' lv d i j := by
  have hi2 : i / 2 < levelSize h (lv - d) := by omega
  have hj2 : j / 2 < levelSize w (lv - d) := by omega
  exact inverseOut_congr_of_inverseLL hband hd hi2 hj2 (inverseLL_congr htop hband hd.le hi2 hj2)

theorem inverseDwtClipsComputed_congr :
    InverseDwtClipsComputed top band h w lv ↔ InverseDwtClipsComputed top' band' h w lv := by
  refine exists_congr fun d => exists₂_congr fun i j => and_congr_right fun hd =>
    and_congr_right fun hi => and_congr_right fun hj => ?_
  rw [inverseOut_congr htop hband hd hi hj]

end

/-- A kept position is a computed one (40 R120). -/
theorem inverseDwtClipsComputed_of_kept {top : Nat → Nat → Int}
    {band : Nat → Nat → Nat → Nat → Int} {h w lv : Nat}
    (hk : InverseDwtClipsKept top band h w lv) : InverseDwtClipsComputed top band h w lv := by
  obtain ⟨d, i, j, hd, hi, hj, hc⟩ := hk
  have hsize : ∀ x, levelSize x (lv - 1 - d) ≤ 2 * levelSize x (lv - d) := fun x => by
    rw [show lv - d = lv - 1 - d + 1 by omega]; exact levelSize_le_two_mul x _
  exact ⟨d, i, j, hd, hi.trans_le (hsize h), hj.trans_le (hsize w), hc⟩

/-! ### IDWT2D -/

/-- Settles O22: the inverse transform of the layout at SRC. The model's SAT counts every computed
position, one of the two readings. -/
theorem idwt2dTransforms : Obligations.Idwt2dTransforms := by
  intro s hruns w h lv band top
  have hlv : 1 ≤ lv := (runs_levels hruns rfl).1
  set d := loadLayout s.mem s.snap.src.toNat h w lv
  have hlen : d.details.length = lv := length_loadLayout _ _ _ _ _
  set A := idwt d.ll d.details h w
  have hA : Shaped h w A.val := shaped_idwt_loadLayout _ _ _ _ _
  have htop : ∀ i j, i < levelSize h lv → j < levelSize w lv → matAt d.ll i j = top i j :=
    fun _ _ => matAt_loadLayout_ll
  have hband : ∀ t l i j, t < 3 → l < lv → i < levelSize h (l + 1) → j < levelSize w (l + 1) →
      bandAt d.details t l i j = band t l i j := fun _ _ _ _ => bandAt_loadLayout
  have hclip : A.clipped = true ↔ InverseDwtClipsComputed top band h w lv := by
    rw [← inverseDwtClipsComputed_congr htop hband]
    refine clipped_idwt_iff.trans ?_
    rw [hlen]
  have hexec : exec .idwt2d s = .next { s with
      mem := writeBytes s.mem s.snap.dst.toNat (sampleBytes A.val.flatten)
      status := doneStatus s.status A.clipped } := exec_of_noteSat_putBytes hruns rfl
  refine ⟨_, _, hexec, fun i j hi hj => ?_,
    sameOutside_putMatrix hA (by rw [Nat.mul_comm h]),
    fun hk => hclip.2 (inverseDwtClipsComputed_of_kept hk), hclip.1⟩
  have hlast : lv - lv = 0 := Nat.sub_self lv
  rw [sampleAt_putMatrix hA hi hj, matAt_idwt hi hj, hlen,
    inverseLL_congr htop hband le_rfl (by rwa [hlast]) (by rwa [hlast]), sat32_inverseLL hlv]

end Sys2Proof.Proofs
end

section
/-! PROOFS. The round trip of the Haar transform (40 R134): each level adds at most one and a half
units and halves the error of the level below, and even sums add none. -/

namespace Sys2Proof.Proofs

open Sys2Proof.Machine Sys2Proof.Claims Sys2Proof.Laws

/-! ### One level, before saturation -/

section
variable {A : Nat → Nat → Int} {h w : Nat}

/-- The square of an element holds the element at its parities (40 R119). -/
theorem edge_square {i j : Nat} (hi : i < h) (hj : j < w) :
    edge A h w (2 * (i / 2) + i % 2) (2 * (j / 2) + j % 2) = A i j := by
  rw [Nat.div_add_mod, Nat.div_add_mod, edge, min_eq_left (by omega), min_eq_left (by omega)]

/-- The inverse formula on the four forward outputs of a square, with an error of up to 3 in LL. -/
theorem abs_ihaarOut_haarOut_sub_le {i j : Nat} {s : Int} (hi : i < h) (hj : j < w)
    (hs : |s - haarOut A h w 3 (i / 2) (j / 2)| ≤ 3) :
    |ihaarOut s (haarOut A h w 0 (i / 2) (j / 2)) (haarOut A h w 1 (i / 2) (j / 2))
      (haarOut A h w 2 (i / 2) (j / 2)) i j - A i j| ≤ 3 := by
  have hcell := edge_square (A := A) hi hj
  rw [abs_le] at *
  simp only [ihaarOut, haarOut, bandSigns, rnd_one] at *
  rcases Nat.mod_two_eq_zero_or_one i with hi2 | hi2 <;>
    rcases Nat.mod_two_eq_zero_or_one j with hj2 | hj2 <;>
    simp only [sign, hi2, hj2, add_zero, one_ne_zero, if_true, if_false] at * <;> omega

/-- The inverse formula is exact on squares of even samples (40 R134). -/
theorem ihaarOut_haarOut_of_even {i j : Nat} (hi : i < h) (hj : j < w)
    (heven : ∀ i j, 2 ∣ edge A h w i j) :
    ihaarOut (haarOut A h w 3 (i / 2) (j / 2)) (haarOut A h w 0 (i / 2) (j / 2))
      (haarOut A h w 1 (i / 2) (j / 2)) (haarOut A h w 2 (i / 2) (j / 2)) i j = A i j := by
  have hcell := edge_square (A := A) hi hj
  have ha := heven (2 * (i / 2)) (2 * (j / 2))
  have hb := heven (2 * (i / 2)) (2 * (j / 2) + 1)
  have hc := heven (2 * (i / 2) + 1) (2 * (j / 2))
  have hd := heven (2 * (i / 2) + 1) (2 * (j / 2) + 1)
  simp only [ihaarOut, haarOut, bandSigns, rnd_one] at *
  rcases Nat.mod_two_eq_zero_or_one i with hi2 | hi2 <;>
    rcases Nat.mod_two_eq_zero_or_one j with hj2 | hj2 <;>
    simp only [sign, hi2, hj2, add_zero, one_ne_zero, if_true, if_false] at * <;> omega

/-- A property of every element is one of every edge sample. -/
theorem forall_edge {P : Int → Prop} (hh : 1 ≤ h) (hw : 1 ≤ w)
    (hP : ∀ i j, i < h → j < w → P (A i j)) (i j : Nat) : P (edge A h w i j) :=
  hP _ _ (by omega) (by omega)

/-- A forward output has at most twice the magnitude of the samples. -/
theorem abs_haarOut_le {M : Int} (hM : ∀ i j, |edge A h w i j| ≤ M) (t i j : Nat) :
    |haarOut A h w t i j| ≤ 2 * M := by
  have ha := hM (2 * i) (2 * j)
  have hb := hM (2 * i) (2 * j + 1)
  have hc := hM (2 * i + 1) (2 * j)
  have hd := hM (2 * i + 1) (2 * j + 1)
  rw [abs_le] at *
  match t with
  | 0 | 1 | 2 | _ + 3 => simp only [haarOut, bandSigns, rnd_one]; omega

/-- LL of multiples of 2^(l+1) is a multiple of 2^l, for its sums are even. -/
theorem pow_dvd_haarOut {l : Nat} (hA : ∀ i j, 2 ^ (l + 1) ∣ edge A h w i j) (i j : Nat) :
    2 ^ l ∣ haarOut A h w 3 i j := by
  obtain ⟨a, ha⟩ := hA (2 * i) (2 * j)
  obtain ⟨b, hb⟩ := hA (2 * i) (2 * j + 1)
  obtain ⟨c, hc⟩ := hA (2 * i + 1) (2 * j)
  obtain ⟨d, hd⟩ := hA (2 * i + 1) (2 * j + 1)
  refine ⟨a + b + c + d, ?_⟩
  have hsum : haarOut A h w 3 i j = (2 * (2 ^ l * (a + b + c + d)) + 1) / 2 := by
    simp only [haarOut, bandSigns, rnd_one, ha, hb, hc, hd, pow_succ]
    congr 1
    ring
  omega

end

/-! ### All levels -/

/-- A magnitude of a matrix that lv levels do not push past 2^27. -/
def LevelBound (A : Mat) (h w lv : Nat) (M : Int) : Prop :=
  (∀ i j, i < h → j < w → |matAt A i j| ≤ M) ∧ M * 2 ^ lv ≤ 2 ^ 27

section
variable {A : Mat} {h w : Nat} (hh : 1 ≤ h) (hw : 1 ≤ w)
include hh hw

theorem LevelBound.nonneg {lv : Nat} {M : Int} (hM : LevelBound A h w lv M) : 0 ≤ M :=
  (abs_nonneg _).trans (hM.1 0 0 hh hw)

theorem LevelBound.le {lv : Nat} {M : Int} (hM : LevelBound A h w lv M) : M ≤ 2 ^ 27 := by
  have hpow : (1 : Int) ≤ 2 ^ lv := one_le_pow₀ (by norm_num)
  calc M ≤ M * 2 ^ lv := le_mul_of_one_le_right (hM.nonneg hh hw) hpow
    _ ≤ 2 ^ 27 := hM.2

theorem LevelBound.edge {lv : Nat} {M : Int} (hM : LevelBound A h w lv M) (i j : Nat) :
    |edge (matAt A) h w i j| ≤ M := forall_edge (P := fun v => |v| ≤ M) hh hw hM.1 i j

variable {lv : Nat} {M : Int} (hM : LevelBound A h w (lv + 1) M)
include hM

/-- No forward output clips. -/
theorem LevelBound.sat32_haarOut (t i j : Nat) :
    sat32 (haarOut (matAt A) h w t i j) = haarOut (matAt A) h w t i j := by
  have hout := abs_haarOut_le (hM.edge hh hw) t i j
  have hle := hM.le hh hw
  exact sat32_of_abs_le (by omega)

theorem LevelBound.matAt_haarLL {i j : Nat} (hi : i < halfUp h) (hj : j < halfUp w) :
    matAt (haarLL A h w).val i j = haarOut (matAt A) h w 3 i j := by
  rw [← hM.sat32_haarOut hh hw]
  exact matAt_haarBand_eq 3 hi hj

/-- LL_1 keeps the bound for the levels still to do. -/
theorem LevelBound.haarLL : LevelBound (haarLL A h w).val (halfUp h) (halfUp w) lv (2 * M) := by
  refine ⟨fun i j hi hj => ?_, ?_⟩
  · rw [hM.matAt_haarLL hh hw hi hj]
    exact abs_haarOut_le (hM.edge hh hw) 3 i j
  · calc 2 * M * 2 ^ lv = M * 2 ^ (lv + 1) := by ring
      _ ≤ 2 ^ 27 := hM.2

/-- The last inverse step, on the first forward step's details: no detail clips. -/
theorem LevelBound.matAt_idwt_dwt {i j : Nat} (hi : i < h) (hj : j < w) :
    let d := dwt A h w (lv + 1)
    let deep := dwt (Machine.haarLL A h w).val (halfUp h) (halfUp w) lv
    matAt (idwt d.val.ll d.val.details h w).val i j =
      sat32 (ihaarOut
        (matAt (idwt deep.val.ll deep.val.details (halfUp h) (halfUp w)).val (i / 2) (j / 2))
        (haarOut (matAt A) h w 0 (i / 2) (j / 2)) (haarOut (matAt A) h w 1 (i / 2) (j / 2))
        (haarOut (matAt A) h w 2 (i / 2) (j / 2)) i j) := by
  intro d deep
  have hi2 := half_lt_halfUp hi
  have hj2 := half_lt_halfUp hj
  have hdetail := hM.sat32_haarOut hh hw
  rw [← hdetail 0, ← hdetail 1, ← hdetail 2, ← matAt_haarBand_eq 0 hi2 hj2,
    ← matAt_haarBand_eq 1 hi2 hj2, ← matAt_haarBand_eq 2 hi2 hj2]
  exact matAt_ihaar_eq hi hj

end

/-- The error of the round trip stays within 3 units at every level (40 R134). -/
theorem abs_idwt_dwt_sub_le {A : Mat} {h w lv : Nat} {M : Int} (hh : 1 ≤ h) (hw : 1 ≤ w)
    (hM : LevelBound A h w lv M) {i j : Nat} (hi : i < h) (hj : j < w) :
    |matAt (idwt (dwt A h w lv).val.ll (dwt A h w lv).val.details h w).val i j -
      matAt A i j| ≤ 3 := by
  induction lv generalizing A h w M i j with
  | zero => simp [dwt, idwt]
  | succ lv ih =>
    have hi2 := half_lt_halfUp hi
    have hj2 := half_lt_halfUp hj
    have hdeep := ih (halfUp_pos hh) (halfUp_pos hw) (hM.haarLL hh hw) hi2 hj2
    rw [hM.matAt_haarLL hh hw hi2 hj2] at hdeep
    have hclose := abs_ihaarOut_haarOut_sub_le hi hj hdeep
    have hcell := hM.1 i j hi hj
    have hle := hM.le hh hw
    rw [hM.matAt_idwt_dwt hh hw hi hj, sat32_of_abs_le (by rw [abs_le] at *; omega)]
    exact hclose

/-- The round trip of multiples of 2^lv is exact: every forward sum is even (40 R134). -/
theorem idwt_dwt_of_dvd {A : Mat} {h w lv : Nat} {M : Int} (hh : 1 ≤ h) (hw : 1 ≤ w)
    (hM : LevelBound A h w lv M) (hdvd : ∀ i j, i < h → j < w → 2 ^ lv ∣ matAt A i j)
    {i j : Nat} (hi : i < h) (hj : j < w) :
    matAt (idwt (dwt A h w lv).val.ll (dwt A h w lv).val.details h w).val i j = matAt A i j := by
  induction lv generalizing A h w M i j with
  | zero => rfl
  | succ lv ih =>
    have hi2 := half_lt_halfUp hi
    have hj2 := half_lt_halfUp hj
    have hedge := forall_edge (P := fun v => 2 ^ (lv + 1) ∣ v) hh hw hdvd
    have hdeep := ih (halfUp_pos hh) (halfUp_pos hw) (hM.haarLL hh hw)
      (fun i j hi hj => by rw [hM.matAt_haarLL hh hw hi hj]; exact pow_dvd_haarOut hedge i j)
      hi2 hj2
    have heven : ∀ i j, 2 ∣ edge (matAt A) h w i j := fun i j =>
      (dvd_pow_self 2 (Nat.succ_ne_zero lv)).trans (hedge i j)
    have hcell := hM.1 i j hi hj
    have hle := hM.le hh hw
    rw [hM.matAt_idwt_dwt hh hw hi hj, hdeep, hM.matAt_haarLL hh hw hi2 hj2,
      ihaarOut_haarOut_of_even hi hj heven, sat32_of_abs_le (by omega)]

/-- Settles O38: the bound 2^27/2^Lv, then the error and the exact case. -/
theorem dwtRoundTripIsClose : Obligations.DwtRoundTripIsClose := by
  intro A h w lv hh hw _ _ hlen hA d A'
  have hpow : (0 : Int) < 2 ^ lv := by positivity
  have hshape : Shaped h w A := ⟨hlen, fun row hrow => (hA row hrow).1⟩
  have hM : LevelBound A h w lv (2 ^ 27 / 2 ^ lv) := by
    refine ⟨fun i j hi hj => ?_, Int.ediv_mul_le _ hpow.ne'⟩
    obtain ⟨row, hrow, hmem⟩ := matAt_mem hshape hi hj
    exact (Int.le_ediv_iff_mul_le hpow).2 ((hA row hrow).2 _ hmem)
  refine ⟨fun i j hi hj => (abs_idwt_dwt_sub_le hh hw hM hi hj).trans (by norm_num),
    fun hmul => ?_⟩
  have hdvd : ∀ i j, i < h → j < w → 2 ^ lv ∣ matAt A i j := fun i j hi hj => by
    obtain ⟨row, hrow, hmem⟩ := matAt_mem hshape hi hj
    obtain ⟨q, hq⟩ := hmul row hrow _ hmem
    exact Dvd.intro_left q hq.symm
  have hshape' : Shaped h w A' := shaped_idwt (by
    rw [length_dwt_details]; exact (shaped_dwt hshape lv).2)
  exact shaped_ext hshape' hshape fun i j hi hj => idwt_dwt_of_dvd hh hw hM hdvd hi hj

end Sys2Proof.Proofs
end

section
/-! PROOFS. The decoder of a received sequence as one equation, its confidence and the capacity of a
carrier (41 R154 to R157). -/

namespace Sys2Proof.Proofs

open Sys2Proof.Machine Sys2Proof.Laws

/-- decode as one equation: the header fits, is plausible, and the floor is reached (41 R154). -/
theorem decodeStream_eq_ite (s : List Bool) (r fl : Nat) : decodeStream s r fl =
    if 32 * r ≤ s.length ∧ plausible (decodedLength s r) s.length r = true ∧
        fl * r * frameBits (decodedLength s r) ≤ totalAgreement s r (decodedLength s r) * 2 ^ 16 then
      some { payload := (List.range (decodedLength s r)).map fun m => decodedByte s r m
             conf := totalAgreement s r (decodedLength s r) * 2 ^ 16 /
               (r * frameBits (decodedLength s r)) }
    else none := by
  unfold decodeStream
  by_cases hheader : 32 * r ≤ s.length
  case neg => simp [hheader, Nat.lt_of_not_le hheader]
  cases hplausible : plausible (decodedLength s r) s.length r
  case false => simp [hplausible]
  by_cases hfloor : fl * r * frameBits (decodedLength s r) ≤
      totalAgreement s r (decodedLength s r) * 65536
  case neg => simp [hplausible, hfloor, Nat.lt_of_not_le hfloor]
  case pos => simp [hplausible, hheader, hfloor, Nat.not_lt.2 hheader, Nat.not_lt.2 hfloor]

/-- When a payload is detected (41 R154). -/
theorem decodeStream_ne_none_iff (s : List Bool) (r fl : Nat) : decodeStream s r fl ≠ none ↔
    32 * r ≤ s.length ∧ plausible (decodedLength s r) s.length r = true ∧
      fl * r * frameBits (decodedLength s r) ≤
        totalAgreement s r (decodedLength s r) * 2 ^ 16 := by
  rw [decodeStream_eq_ite]
  simp

theorem plausible_iff (len n r : Nat) :
    plausible len n r = true ↔ 1 ≤ len ∧ streamBits len r ≤ n := by simp [plausible]

/-- Settles O43: the subtraction of `capBits` stops at 0, and dividing by r keeps the order. -/
theorem payloadFitsIffWithinCapacity : Obligations.PayloadFitsIffWithinCapacity := by
  intro n r len hr hlen
  have hfits : streamBits len r ≤ n ↔ len ≤ capBytes n r := fits_iff hr hlen
  refine ⟨?_, rfl, hfits, ?_⟩
  · unfold capBits
    omega
  · simp [plausible_iff, hlen, hfits]

/-- Settles O45: A lies between half of and all of the r·F copies, so that no floor of at most 1/2
is missed and none above 1 is reached. -/
theorem confidenceLiesInRange : Obligations.ConfidenceLiesInRange := by
  intro s r fl hr A n
  have hA : n ≤ 2 * A ∧ A ≤ n := totalAgreement_bounds s r (decodedLength s r)
  have hn : 0 < n := Nat.mul_pos hr (by omega)
  have hdetect : decodeStream s r fl ≠ none ↔ 32 * r ≤ s.length ∧
      plausible (decodedLength s r) s.length r = true ∧ fl * n ≤ A * 2 ^ 16 := by
    rw [decodeStream_ne_none_iff, Nat.mul_assoc]; rfl
  refine ⟨hA, hdetect, fun d hd => ?_, fun hfl => ?_, fun hfl hfits hplausible => ?_⟩
  · have hconf : d.conf = A * 2 ^ 16 / n := (decodeStream_eq_some hd).2.2.2.2
    refine ⟨hconf, ?_, conf_le_of_decodeStream hd⟩
    rw [hconf, Nat.le_div_iff_mul_le hn]
    omega
  · by_contra hfound
    obtain ⟨-, -, hfloor⟩ := hdetect.1 hfound
    have : 0x10000 * n < fl * n := Nat.mul_lt_mul_of_pos_right hfl hn
    omega
  · have : fl * n ≤ 0x8000 * n := Nat.mul_le_mul_right n hfl
    exact hdetect.2 ⟨hfits, hplausible, by omega⟩

end Sys2Proof.Proofs
end

section
/-! PROOFS. The repetition code: what a received sequence decodes to when few copies of each bit are
flipped (41 R160). -/

namespace Sys2Proof.Proofs

open Sys2Proof.Machine Sys2Proof.Laws

/-! ### One chunk -/

/-- How many of the r copies in chunk i differ from the bit b that was sent. -/
def flippedCopies (s : List Bool) (r i : Nat) (b : Bool) : Nat :=
  ((Finset.range r).filter fun j => s.getD (i * r + j) false ≠ b).card

/-- Few enough copies of the bit b are flipped in chunk i for the majority to be b; a tie gives 0
(41 R160). -/
def FewFlips (s : List Bool) (r i : Nat) (b : Bool) : Prop :=
  2 * flippedCopies s r i b < r ∨ (b = false ∧ 2 * flippedCopies s r i b ≤ r)

theorem flippedCopies_le (s : List Bool) (r i : Nat) (b : Bool) : flippedCopies s r i b ≤ r :=
  (Finset.card_filter_le _ _).trans_eq (Finset.card_range r)

theorem chunkOnes_eq_flippedCopies (s : List Bool) (r i : Nat) :
    chunkOnes s r i = flippedCopies s r i false := by
  simp [chunkOnes_eq_card, flippedCopies]

theorem chunkOnes_add_flippedCopies (s : List Bool) (r i : Nat) :
    chunkOnes s r i + flippedCopies s r i true = r := by
  rw [chunkOnes_eq_card, flippedCopies, Finset.card_filter_add_card_filter_not, Finset.card_range]

/-- The majority of a chunk with few flips is the bit sent (41 R152). -/
theorem majority_of_fewFlips {s : List Bool} {r i : Nat} {b : Bool} (h : FewFlips s r i b) :
    majority s r i = b := by
  unfold FewFlips at h
  cases b
  · have := chunkOnes_eq_flippedCopies s r i
    simp only [majority, decide_eq_false_iff_not]
    omega
  · have := chunkOnes_add_flippedCopies s r i
    have hlt : 2 * flippedCopies s r i true < r := by simpa using h
    simp only [majority, decide_eq_true_eq]
    omega

/-- The copies that agree with the majority are those not flipped (41 R153). -/
theorem agreement_of_fewFlips {s : List Bool} {r i : Nat} {b : Bool} (h : FewFlips s r i b) :
    agreement s r i = r - flippedCopies s r i b := by
  unfold FewFlips at h
  unfold agreement
  cases b
  · have := chunkOnes_eq_flippedCopies s r i
    omega
  · have := chunkOnes_add_flippedCopies s r i
    omega

/-! ### A payload -/

section
variable {s : List Bool} {r : Nat} {p : List Byte}
  (hflips : ∀ i, i < frameBits p.length → FewFlips s r i ((frame p).getD i false))
include hflips

/-- The header chunks give back the length (41 R154). -/
theorem decodedLength_of_fewFlips (hlen : p.length < 2 ^ 32) : decodedLength s r = p.length := by
  have hbits : (List.range 32).map (fun i => majority s r i) =
      (List.range 32).map fun i => p.length.testBit (32 - 1 - i) := by
    apply List.map_congr_left
    intro i hi
    have hi := List.mem_range.1 hi
    rw [majority_of_fewFlips (hflips i (by unfold frameBits; omega)), getD_frame_header hi]
  rw [decodedLength, hbits, bitsToNat_testBit _ _ hlen]

/-- The payload chunks give back each byte (41 R154). -/
theorem decodedByte_of_fewFlips {m : Nat} (hm : m < p.length) : decodedByte s r m = p[m] := by
  have hbits : (List.range 8).map (fun j => majority s r (32 + 8 * m + j)) =
      (List.range 8).map fun j => p[m].toNat.testBit (8 - 1 - j) := by
    apply List.map_congr_left
    intro j hj
    have hj := List.mem_range.1 hj
    rw [majority_of_fewFlips (hflips _ (by unfold frameBits; omega)), Nat.add_assoc,
      getD_frame_payload (by omega), show (8 * m + j) / 8 = m by omega,
      show (8 * m + j) % 8 = j by omega]
    simp [bitOfByte, hm, BitVec.getLsbD]
  rw [decodedByte, hbits, bitsToNat_testBit _ _ p[m].isLt, BitVec.ofNat_toNat, BitVec.setWidth_eq]

/-- A is r·F less the flipped copies (41 R160). -/
theorem totalAgreement_of_fewFlips : totalAgreement s r p.length = r * frameBits p.length -
    ∑ i ∈ Finset.range (frameBits p.length), flippedCopies s r i ((frame p).getD i false) := by
  calc totalAgreement s r p.length
      = ∑ i ∈ Finset.range (frameBits p.length),
          (r - flippedCopies s r i ((frame p).getD i false)) := by
        rw [totalAgreement_eq_sum]
        exact Finset.sum_congr rfl fun i hi =>
          agreement_of_fewFlips (hflips i (Finset.mem_range.1 hi))
    _ = _ := by
        rw [Finset.sum_tsub_distrib _ fun i _ => flippedCopies_le s r i _]
        simp [mul_comm]

/-- A frame with few flips in each chunk decodes to its payload, unless the flips take the
confidence below the floor (41 R160). -/
theorem decodeStream_of_fewFlips (fl : Nat) (hpos : 1 ≤ p.length) (hlen : p.length < 2 ^ 32)
    (hfits : streamBits p.length r ≤ s.length) : decodeStream s r fl =
      if fl * r * frameBits p.length ≤ totalAgreement s r p.length * 2 ^ 16 then
        some { payload := p
               conf := totalAgreement s r p.length * 2 ^ 16 / (r * frameBits p.length) }
      else none := by
  have hheader : 32 * r ≤ s.length :=
    (Nat.mul_le_mul_right r (by unfold frameBits; omega)).trans hfits
  have hpayload : (List.range p.length).map (fun m => decodedByte s r m) = p :=
    List.ext_getElem (by simp) fun m _ hm => by
      simp [decodedByte_of_fewFlips hflips hm]
  rw [decodeStream_eq_ite, decodedLength_of_fewFlips hflips hlen, hpayload]
  simp [plausible_iff, hheader, hpos, hfits]

end

/-- Settles O41: chunk by chunk the majority is the frame bit, so the decoder sees the frame. -/
theorem repetitionCodeCorrects : Obligations.RepetitionCodeCorrects := by
  intro p r fl s hpos hlen _ hfits f flips hfew agree
  have hflips : ∀ i, i < frameBits p.length → FewFlips s r i ((frame p).getD i false) := hfew
  refine ⟨fun i hi => majority_of_fewFlips (hflips i hi), ?_⟩
  rw [decodeStream_of_fewFlips hflips fl hpos hlen hfits, totalAgreement_of_fewFlips hflips]
  rfl

end Sys2Proof.Proofs
end

section
/-! PROOFS. PACK: the frame of a payload in memory and the stream written to DST (41 R158). -/

namespace Sys2Proof.Proofs

open Sys2Proof.Machine Sys2Proof.Claims Sys2Proof.Laws

/-- Bit i of the frame of a payload in memory (41 R150). -/
theorem getD_frame_loadBytes {m : Memory} {a len i : Nat} (hi : i < frameBits len) :
    (frame (loadBytes m a len)).getD i false = frameBit m a len i := by
  unfold frameBits at hi
  unfold frameBit
  split
  case isTrue hheader => rw [getD_frame_header hheader, length_loadBytes]
  case isFalse hpayload =>
    obtain ⟨k, rfl⟩ := Nat.exists_eq_add_of_le (Nat.le_of_not_lt hpayload)
    rw [getD_frame_payload (by rw [length_loadBytes]; omega), getD_loadBytes (by omega),
      Nat.add_sub_cancel_left]
    rfl

/-- The index of the frame bit that stream bit k repeats (41 R151). -/
theorem div_lt_frameBits {len r k : Nat} (hk : k < streamBits len r) : k / r < frameBits len :=
  Nat.div_lt_of_lt_mul (by rwa [Nat.mul_comm])

/-- Bit k of the stream of a payload in memory (41 R151). -/
theorem getD_stream_frame_loadBytes {m : Memory} {a len r k : Nat} (hk : k < streamBits len r) :
    (stream (frame (loadBytes m a len)) r).getD k false = frameBit m a len (k / r) := by
  rw [getD_stream (by simpa [streamBits] using hk), getD_frame_loadBytes (div_lt_frameBits hk)]

/-- A stream fills its bytes: T is a multiple of 8 (41 R151). -/
theorem ceilDiv_streamBits (len r : Nat) : ceilDiv (streamBits len r) 8 = streamBits len r / 8 := by
  have hmul : streamBits len r = 8 * ((4 + len) * r) := by unfold streamBits frameBits; ring
  unfold ceilDiv
  omega

/-- Settles O28: the bit array at DST is the stream, which has no pad bits. -/
theorem packWritesStream : Obligations.PackWritesStream := by
  intro s hruns len r n
  have hlength : (stream (frame (loadBytes s.mem s.snap.src.toNat len)) r).length =
      streamBits len r := by simp [streamBits]
  refine ⟨(packOperation s).mem, ?_, fun k hk => ?_, sameOutside_writeBytes ?_⟩
  · rw [exec_of_runs hruns, doneStatus_false]
    rfl
  · have hbyte := (hk.trans_eq hlength.symm).trans_le (ceilDiv_eight _).1
    exact (bitAt_packBits hbyte).trans (getD_stream_frame_loadBytes hk)
  · rw [length_packBits]
    exact (congrArg (ceilDiv · 8) hlength).trans (ceilDiv_streamBits len r)

end Sys2Proof.Proofs
end

section
/-! PROOFS. UNPACK: a decoded bit list against the statements' formulas in index form (41 R152 to
R156), and the state an extraction leaves (41 R159, 42 R182, 43 R206). -/

namespace Sys2Proof.Proofs

open Sys2Proof.Machine Sys2Proof.Claims Sys2Proof.Laws

/-! ### The end of an extraction -/

/-- A detected payload is written to DST (41 R159). -/
theorem reportDecode_some_mem (dst : Nat) (d : Decoded) (s : State) :
    (reportDecode dst (some d) s).mem = writeBytes s.mem dst d.payload := rfl

theorem reportDecode_draws (dst : Nat) (d : Option Decoded) (s : State) :
    (reportDecode dst d s).draws = s.draws := by
  cases d <;> rfl

/-! ### The decoder in index form -/

theorem headerLength_eq_bitsToNat (bits : Nat → Bool) (r : Nat) :
    headerLength bits r = bitsToNat ((List.range 32).map fun i => chunkBit bits r i) :=
  (bitsToNat_map_range _ _).symm

theorem payloadByte_eq_bitsToNat (bits : Nat → Bool) (r m : Nat) : payloadByte bits r m =
    bitsToNat ((List.range 8).map fun j => chunkBit bits r (32 + 8 * m + j)) :=
  (bitsToNat_map_range (fun j => chunkBit bits r (32 + 8 * m + j)) 8).symm

theorem payloadByte_lt (bits : Nat → Bool) (r m : Nat) : payloadByte bits r m < 2 ^ 8 := by
  rw [payloadByte_eq_bitsToNat]
  simpa using bitsToNat_lt ((List.range 8).map fun j => chunkBit bits r (32 + 8 * m + j))

/-- The payload of a received sequence in index form (41 R154). -/
def payloadBytes (bits : Nat → Bool) (r : Nat) : List Byte :=
  (List.range (headerLength bits r)).map fun m => BitVec.ofNat 8 (payloadByte bits r m)

@[simp] theorem length_payloadBytes (bits : Nat → Bool) (r : Nat) :
    (payloadBytes bits r).length = headerLength bits r := by simp [payloadBytes]

theorem toNat_getElem_payloadBytes {bits : Nat → Bool} {r m : Nat}
    (hm : m < (payloadBytes bits r).length) :
    (payloadBytes bits r)[m].toNat = payloadByte bits r m := by
  simpa [payloadBytes] using Nat.mod_eq_of_lt (payloadByte_lt bits r m)

section
variable {s : List Bool} {bits : Nat → Bool} (hbits : ∀ k, k < s.length → s.getD k false = bits k)
include hbits

/-- The 1s of a received chunk (41 R152). -/
theorem chunkOnes_eq_chunkCount {r i : Nat} (hi : (i + 1) * r ≤ s.length) :
    chunkOnes s r i = chunkCount bits r i := by
  rw [chunkOnes_eq_card, chunkCount]
  congr 1
  apply Finset.filter_congr
  intro j hj
  have hj := Finset.mem_range.1 hj
  rw [hbits _ (by rw [Nat.add_mul] at hi; omega)]

/-- The chunks of a stream that fits were all received (41 R152). -/
theorem chunkOnes_of_fits {r i n : Nat} (hi : i < n) (hn : n * r ≤ s.length) :
    chunkOnes s r i = chunkCount bits r i :=
  chunkOnes_eq_chunkCount hbits ((Nat.mul_le_mul_right r hi).trans hn)

theorem majority_of_fits {r i n : Nat} (hi : i < n) (hn : n * r ≤ s.length) :
    majority s r i = chunkBit bits r i := by
  rw [majority, chunkBit, chunkOnes_of_fits hbits hi hn]

theorem decodedLength_eq_headerLength {r : Nat} (hn : 32 * r ≤ s.length) :
    decodedLength s r = headerLength bits r := by
  rw [headerLength_eq_bitsToNat, decodedLength]
  exact congrArg bitsToNat (List.map_congr_left fun i hi =>
    majority_of_fits hbits (List.mem_range.1 hi) hn)

theorem totalAgreement_eq_agreeing {r len : Nat} (hn : streamBits len r ≤ s.length) :
    totalAgreement s r len = agreeing bits r len := by
  rw [totalAgreement_eq_sum, agreeing]
  refine Finset.sum_congr rfl fun i hi => ?_
  rw [agreement, chunkOnes_of_fits hbits (Finset.mem_range.1 hi) hn]

theorem decodedByte_eq_payloadByte {r len m : Nat} (hm : m < len)
    (hn : streamBits len r ≤ s.length) :
    decodedByte s r m = BitVec.ofNat 8 (payloadByte bits r m) := by
  rw [payloadByte_eq_bitsToNat, decodedByte]
  refine congrArg (fun bs => BitVec.ofNat 8 (bitsToNat bs)) (List.map_congr_left fun j hj => ?_)
  have hj := List.mem_range.1 hj
  exact majority_of_fits hbits (by unfold frameBits; omega) hn

/-- decode of a received sequence, in index form (41 R154). -/
theorem decodeStream_eq_found (r fl : Nat) : decodeStream s r fl =
    if found bits s.length r fl then
      some { payload := payloadBytes bits r, conf := confidence bits r }
    else none := by
  rw [decodeStream_eq_ite]
  by_cases hheader : 32 * r ≤ s.length
  case neg => simp [found, hheader]
  rw [decodedLength_eq_headerLength hbits hheader]
  by_cases hfits : streamBits (headerLength bits r) r ≤ s.length
  case neg =>
    have hfits' : ¬(32 + 8 * headerLength bits r) * r ≤ s.length := hfits
    simp [plausible_iff, found, hfits, hfits']
  have hpayload : (List.range (headerLength bits r)).map (fun m => decodedByte s r m) =
      payloadBytes bits r :=
    List.map_congr_left fun m hm =>
      decodedByte_eq_payloadByte hbits (List.mem_range.1 hm) hfits
  rw [totalAgreement_eq_agreeing hbits hfits, hpayload]
  simp [plausible_iff, found, streamBits, frameBits, confidence, and_assoc]

/-- The end of an extraction, whose carrier's bits are `s`, begun at `st`: SAT is noted, and the
memory and the draws before the payload are `m` and `d`, which differ from those of `st` in a
scratch region only. -/
theorem extracted_reportDecode {st : State} {m : Memory} {d scr scrSize : Nat} (c : Bool)
    (hm : ∀ a, ¬(scr ≤ a ∧ a < scr + scrSize) → readByte m a = readByte st.mem a) :
    Extracted st
      (finish (reportDecode st.snap.dst.toNat
        (decodeStream s st.snap.r.toNat st.snap.fl.toNat)
        (reportCapacity s.length st.snap.r.toNat
          (reportUnits s.length { noteSat c st with mem := m, draws := d }))))
      bits s.length c scr scrSize := by
  rw [decodeStream_eq_found hbits]
  dsimp only [Extracted]
  cases found bits s.length st.snap.r.toNat st.snap.fl.toNat
  case false => exact ⟨rfl, nofun, fun a _ hscr => hm a hscr⟩
  case true =>
    refine ⟨by simp only [reportDecode, length_payloadBytes, if_true]; rfl, fun _ k hk => ?_,
      fun a ha hscr => ?_⟩
    · have hk : k < (payloadBytes bits st.snap.r.toNat).length := by simpa using hk
      simp only [if_true, finish_mem, reportDecode_some_mem]
      rw [readByte_writeBytes_inside hk, toNat_getElem_payloadBytes hk]
    · simp only [if_true, finish_mem, reportDecode_some_mem, reportCapacity_mem, reportUnits_mem]
      rw [readByte_writeBytes_outside (by simpa using ha), hm a hscr]

end

/-- Settles O29: the carrier is the bit array at SRC, and there is no scratch region. -/
theorem unpackDecodes : Obligations.UnpackDecodes := by
  intro s hruns
  have hbits : ∀ k, k < (loadBits s.mem s.snap.src.toNat s.snap.n.toNat).length →
      (loadBits s.mem s.snap.src.toNat s.snap.n.toNat).getD k false =
        bitAt s.mem s.snap.src.toNat k :=
    fun k hk => getD_loadBits (by simpa using hk)
  have hext := extracted_reportDecode (st := s) (m := s.mem) (d := s.draws) (scr := 0)
    (scrSize := 0) hbits false fun _ _ => rfl
  have hsat : { noteSat false s with mem := s.mem, draws := s.draws } = s := by simp [noteSat]
  rw [hsat, length_loadBits] at hext
  exact ⟨_, exec_of_runs hruns, reportDecode_draws _ _ _, hext⟩

end Sys2Proof.Proofs
end

section
/-! PROOFS. PACK followed by UNPACK of the same bit array (41 R161). -/

namespace Sys2Proof.Proofs

open Sys2Proof.Machine Sys2Proof.Claims Sys2Proof.Laws

/-- A chunk of a received sequence that begins with the stream of f has no flipped copy. -/
theorem flippedCopies_of_stream {s f : List Bool} {r i n : Nat}
    (hs : ∀ k, k < n * r → s.getD k false = f.getD (k / r) false) (hi : i < n) :
    flippedCopies s r i (f.getD i false) = 0 := by
  rw [flippedCopies, Finset.card_eq_zero, Finset.filter_eq_empty_iff]
  intro j hj
  have hj := Finset.mem_range.1 hj
  have hk : i * r + j < n * r := by
    have := Nat.mul_le_mul_right r (Nat.succ_le_of_lt hi)
    rw [Nat.succ_mul] at this
    omega
  have hdiv : (i * r + j) / r = i := by
    rw [Nat.mul_comm, Nat.mul_add_div (by omega), Nat.div_eq_of_lt hj, Nat.add_zero]
  rw [hs _ hk, hdiv]
  exact not_not_intro rfl

/-- A stream that arrives whole decodes to its payload with confidence 1.0, whatever follows it
(41 R160, R161). -/
theorem decodeStream_of_stream {s : List Bool} {p : List Byte} {r fl : Nat} (hr : 1 ≤ r)
    (hpos : 1 ≤ p.length) (hlen : p.length < 2 ^ 32) (hfits : streamBits p.length r ≤ s.length)
    (hs : ∀ k, k < streamBits p.length r → s.getD k false = (frame p).getD (k / r) false)
    (hfl : fl ≤ 0x10000) : decodeStream s r fl = some { payload := p, conf := 0x10000 } := by
  have hnone : ∀ i, i < frameBits p.length →
      flippedCopies s r i ((frame p).getD i false) = 0 := fun i hi =>
    flippedCopies_of_stream hs hi
  have hflips : ∀ i, i < frameBits p.length → FewFlips s r i ((frame p).getD i false) :=
    fun i hi => Or.inl (by rw [hnone i hi]; exact hr)
  have hagree : totalAgreement s r p.length = r * frameBits p.length := by
    rw [totalAgreement_of_fewFlips hflips,
      Finset.sum_eq_zero fun i hi => hnone i (Finset.mem_range.1 hi), Nat.sub_zero]
  have hcopies : 0 < r * frameBits p.length := Nat.mul_pos hr (by unfold frameBits; omega)
  have hfloor : fl * r * frameBits p.length ≤ r * frameBits p.length * 2 ^ 16 := by
    rw [Nat.mul_assoc, Nat.mul_comm (r * _)]
    exact Nat.mul_le_mul_right _ hfl
  rw [decodeStream_of_fewFlips hflips fl hpos hlen hfits, hagree, if_pos hfloor,
    Nat.mul_div_cancel_left _ hcopies]
  rfl

/-- UNPACK of a bit array that decodes to p with confidence 1.0 (41 R159). -/
theorem exec_unpack_of_decoded {s : State} {p : List Byte} {conf : Nat} (hruns : Runs .unpack s)
    (hdecode : decodeStream (loadBits s.mem s.snap.src.toNat s.snap.n.toNat) s.snap.r.toNat
      s.snap.fl.toNat = some { payload := p, conf := conf }) :
    ∃ t, exec .unpack s = .next t ∧ t.status.detect = true ∧
      t.results.conf = BitVec.ofNat 32 conf ∧ t.results.length = BitVec.ofNat 32 p.length ∧
      t.mem = writeBytes s.mem s.snap.dst.toNat p := by
  refine ⟨finish (unpackOperation s), exec_of_runs hruns, ?_⟩
  have hop : unpackOperation s = reportDecode s.snap.dst.toNat
      (some { payload := p, conf := conf })
      (reportCapacity s.snap.n.toNat s.snap.r.toNat (reportUnits s.snap.n.toNat s)) :=
    congrArg (reportDecode s.snap.dst.toNat · _) hdecode
  rw [hop]
  exact ⟨rfl, rfl, rfl, rfl⟩

/-- Settles O42: the bits UNPACK reads begin with the stream PACK wrote. -/
theorem packThenUnpackRoundTrip : Obligations.PackThenUnpackRoundTrip := by
  intro s t u hpack hexec hunpack hkept hsrc hr hn hfl
  obtain ⟨m, hexec', hstream, -⟩ := packWritesStream s hpack
  obtain rfl := Host.Outcome.next.inj (hexec.symm.trans hexec')
  have hfits : streamBits s.snap.len.toNat s.snap.r.toNat ≤ s.snap.n.toNat :=
    runs_capacity hpack rfl
  have hreceived : ∀ k, k < streamBits s.snap.len.toNat s.snap.r.toNat →
      (loadBits u.mem s.snap.dst.toNat s.snap.n.toNat).getD k false =
        (frame (loadBytes s.mem s.snap.src.toNat s.snap.len.toNat)).getD
          (k / s.snap.r.toNat) false := by
    intro k hk
    have hbyte : k / 8 < streamBits s.snap.len.toNat s.snap.r.toNat / 8 := by
      have := ceilDiv_streamBits s.snap.len.toNat s.snap.r.toNat
      have := (ceilDiv_eight (streamBits s.snap.len.toNat s.snap.r.toNat)).1
      omega
    rw [getD_loadBits (by omega), getD_frame_loadBytes (div_lt_frameBits hk), ← hstream k hk]
    unfold bitAt
    rw [hkept _ (Nat.le_add_right _ _) (Nat.add_lt_add_left hbyte _)]
  have hdecode : decodeStream (loadBits u.mem u.snap.src.toNat u.snap.n.toNat) u.snap.r.toNat
      u.snap.fl.toNat =
        some { payload := loadBytes s.mem s.snap.src.toNat s.snap.len.toNat, conf := 0x10000 } := by
    rw [hsrc, hr, hn]
    exact decodeStream_of_stream (runs_redundancy hpack rfl)
      (by simpa using runs_length hpack rfl) (by simpa using s.snap.len.isLt)
      (by simpa using hfits) (by simpa using hreceived) hfl
  obtain ⟨v, hv, hdetect, hconf, hlength, hmem⟩ := exec_unpack_of_decoded hunpack hdecode
  refine ⟨v, hv, hdetect, hconf, by simpa using hlength, fun k hk => ?_⟩
  have hk' : k < (loadBytes s.mem s.snap.src.toNat s.snap.len.toNat).length := by simpa using hk
  rw [hmem, readByte_writeBytes_inside hk', ← List.getD_eq_getElem _ 0, getD_loadBytes hk]

end Sys2Proof.Proofs
end

section
/-! PROOFS. The quantizer: the bit it carries and how far it moves a coefficient (42 R170 to R172,
R175), and QEMBED and QEXTRACT (42 R173, R174). -/

namespace Sys2Proof.Proofs

open Sys2Proof.Machine Sys2Proof.Claims Sys2Proof.Laws

/-! ### The nearest multiple -/

/-- The multiple qround names lies within half a step (42 R170). -/
theorem qround_bounds {C S : Int} (hS : 1 ≤ S) :
    -S ≤ 2 * (C - qround C S * S) ∧ 2 * (C - qround C S * S) < S := by
  have hle := Int.ediv_mul_le (2 * C + S) (show 2 * S ≠ 0 by omega)
  have hlt := Int.lt_ediv_add_one_mul_self (2 * C + S) (show 0 < 2 * S by omega)
  unfold qround
  constructor <;> linarith

/-- A disturbed multiple is read as that multiple, up to half a step (42 R175). -/
theorem qround_mul_add {S d : Int} (k : Int) (hlo : -S ≤ 2 * d) (hhi : 2 * d < S) :
    qround (k * S + d) S = k := by
  have hS : 0 < S := by omega
  have hrest : (2 * d + S) / (2 * S) = 0 := Int.ediv_eq_zero_of_lt (by omega) (by omega)
  rw [qround, show 2 * (k * S + d) + S = 2 * d + S + k * (2 * S) by ring,
    Int.add_mul_ediv_right _ _ (by omega), hrest, zero_add]

/-- The three ways an index is chosen: kept, or moved by one toward the coefficient (42 R171). -/
theorem qindex_cases (C : Int) (t : Bool) (S : Int) :
    (parity (qround C S) = bitInt t ∧ qindex C t S = qround C S) ∨
      (parity (qround C S) ≠ bitInt t ∧ qround C S * S ≤ C ∧ qindex C t S = qround C S + 1) ∨
      (parity (qround C S) ≠ bitInt t ∧ C < qround C S * S ∧ qindex C t S = qround C S - 1) := by
  unfold qindex
  by_cases hparity : parity (qround C S) = bitInt t
  · simp [hparity]
  · rcases le_or_gt (qround C S * S) C with hle | hlt
    · simp [hparity, hle]
    · simp [hparity, hlt, not_le.2 hlt]

/-- The multiple embedded has the parity of the bit (42 R171). -/
theorem parity_qindex (C : Int) (t : Bool) (S : Int) : parity (qindex C t S) = bitInt t := by
  have hbit : bitInt t = 0 ∨ bitInt t = 1 := by cases t <;> simp [bitInt]
  obtain ⟨hparity, hq⟩ | ⟨hparity, -, hq⟩ | ⟨hparity, -, hq⟩ := qindex_cases C t S <;>
    rw [hq] <;> unfold parity at * <;> omega

/-- Embedding moves a coefficient by at most one step (42 R175). -/
theorem abs_qembedRaw_sub_le {C S : Int} (t : Bool) (hS : 1 ≤ S) :
    |qembedRaw C t S - C| ≤ S := by
  obtain ⟨hlo, hhi⟩ := qround_bounds (C := C) hS
  rw [qembedRaw, abs_le]
  obtain ⟨-, hq⟩ | ⟨-, hside, hq⟩ | ⟨-, hside, hq⟩ := qindex_cases C t S <;> rw [hq] <;>
    constructor <;> linarith

/-- The parity read back from the multiple of a bit is that bit, also after a disturbance below
half a step (42 R175). -/
theorem qextract_qembedRaw_add {C S d : Int} (t : Bool) (hlo : -S ≤ 2 * d) (hhi : 2 * d < S) :
    qextract (qembedRaw C t S + d) S = t := by
  rw [qextract, qembedRaw, qround_mul_add _ hlo hhi, parity_qindex]
  cases t <;> rfl

/-- Settles O40: without a clip, all three facts are those of the multiple itself. -/
theorem quantizerStandsHalfStep : Obligations.QuantizerStandsHalfStep := by
  intro C S t hS _ hclip
  have hraw : qembed C t S = qembedRaw C t S := (clips_eq_false_iff _).1 hclip
  rw [hraw]
  refine ⟨?_, abs_qembedRaw_sub_le t hS, fun _ hlo hhi => qextract_qembedRaw_add t hlo hhi⟩
  simpa using qextract_qembedRaw_add (C := C) (d := 0) t (by omega) (by omega)

/-! ### The two commands -/

theorem qembedRaw_eq_nudged (C : Int) (t : Bool) (S : Int) : qembedRaw C t S = nudged C t S := by
  simp only [qembedRaw, qindex, ite_mul]
  rfl

theorem qembed_eq_sat32_nudged (C : Int) (t : Bool) (S : Int) :
    qembed C t S = sat32 (nudged C t S) := congrArg sat32 (qembedRaw_eq_nudged C t S)

theorem qextract_eq_parityBit (C S : Int) : qextract C S = parityBit C S := rfl

/-- Settles O26: coefficient by coefficient, with the samples at SRC and the bits at AUX. -/
theorem qembedPerturbs : Obligations.QembedPerturbs := by
  intro s hruns out
  set n := s.snap.len.toNat
  set cs := loadSamples s.mem s.snap.src.toNat n
  set ts := loadBits s.mem s.snap.aux.toNat n
  set S : Int := (s.snap.s.toNat : Int)
  have hcs : cs.length = n := length_loadSamples _ _ _
  have hts : ts.length = n := length_loadBits _ _ _
  have hlength : (qembedList S cs ts).val.length = n := (length_qembedList _ _ _).trans hcs
  have hraw : ∀ k < n, qembedRaw (cs.getD k 0) (ts.getD k false) S = out k := fun k hk => by
    rw [getD_loadSamples hk, getD_loadBits hk, qembedRaw_eq_nudged]
  have hexec : exec .qembed s = .next { s with
      mem := writeBytes s.mem s.snap.dst.toNat (sampleBytes (qembedList S cs ts).val)
      status := doneStatus s.status (qembedList S cs ts).clipped } :=
    exec_of_noteSat_putBytes hruns rfl
  refine ⟨_, _, hexec, fun k hk => ?_, sameOutside_putSamples (by rw [hlength]), ?_⟩
  · rw [sampleAt_putSamples (by rwa [hlength]), getD_qembedList (by rwa [hcs]),
      if_pos (by rwa [hts]), qembed, sat32_sat32, hraw k hk]
  · rw [clipped_qembedList, hcs, hts]
    refine exists_congr fun k => ⟨?_, ?_⟩
    · rintro ⟨hk, -, hclip⟩
      exact ⟨hk, by rwa [← hraw k hk]⟩
    · rintro ⟨hk, hclip⟩
      exact ⟨hk, hk, by rwa [hraw k hk]⟩

/-- Settles O27: the bit array at DST is the parities, and its pad bits are 0. -/
theorem qextractReads : Obligations.QextractReads := by
  intro s hruns bytes
  set n := s.snap.len.toNat
  set bits := (loadSamples s.mem s.snap.src.toNat n).map fun c => qextract c s.snap.s.toNat
  have hlength : bits.length = n := by simp [bits]
  refine ⟨_, exec_of_putBytes hruns rfl, fun k hk => ?_,
    sameOutside_writeBytes ((length_packBits bits).trans (congrArg (ceilDiv · 8) hlength))⟩
  have hbyte : k < 8 * ceilDiv bits.length 8 := by rwa [hlength]
  refine (bitAt_packBits hbyte).trans ?_
  split
  case isTrue hk =>
    have hk' : k < (loadSamples s.mem s.snap.src.toNat n).length := by simpa using hk
    rw [List.getD_eq_getElem _ _ (by rwa [hlength]), List.getElem_map, qextract_eq_parityBit,
      ← getD_loadSamples hk, List.getD_eq_getElem _ _ hk']
  case isFalse hk => exact List.getD_eq_default _ _ (by omega)

end Sys2Proof.Proofs
end

section
/-! PROOFS. A block of the DCT codec: no sat32 clips on pixel data (42 R180), and what embedding
does to a block (42 R179). -/

namespace Sys2Proof.Proofs

open Sys2Proof.Machine Sys2Proof.Claims Sys2Proof.Laws

/-! ### The quantizer stays in range -/

/-- An embedded multiple is at most a step away from 0, or twice the coefficient. -/
theorem abs_qembedRaw_le {C S : Int} (t : Bool) (hS : 1 ≤ S) :
    |qembedRaw C t S| ≤ max S (2 * |C|) := by
  have hclose := abs_qembedRaw_sub_le (C := C) t hS
  have habs : |qembedRaw C t S| = |qindex C t S| * S := by
    rw [qembedRaw, abs_mul, abs_of_pos (by omega : 0 < S)]
  have htriangle := abs_sub_abs_le_abs_sub (qembedRaw C t S) C
  rw [le_max_iff]
  rcases le_or_gt |qindex C t S| 1 with hq | hq
  · exact .inl (by rw [habs]; nlinarith)
  · have hsteps : 2 * S ≤ |qembedRaw C t S| := by rw [habs]; nlinarith
    exact .inr (by omega)

theorem clips_qembedRaw {C S : Int} (t : Bool) (hS : 1 ≤ S) (hS' : S ≤ 0x7FFFFFFF)
    (hC : |C| ≤ 2 ^ 28) : clips (qembedRaw C t S) = false := by
  have hle := abs_qembedRaw_le (C := C) t hS
  exact (clips_eq_false_iff _).2 (sat32_of_abs_le (by omega))

/-! ### The transforms stay in range -/

theorem abs_cosRom_le : ∀ k < 8, ∀ n < 8, |matAt cosRom k n| ≤ 526555088 := by decide

/-- The inverse kernel on eight coefficients of which number p may be larger than the others. -/
theorem abs_inverseSum_le {X : Nat → Int} {M D : Int} {p : Nat} (hM : 0 ≤ M) (hD : 0 ≤ D)
    (hp : p < 8) (hX : ∀ k < 8, |X k| ≤ M + if k = p then D else 0) {n : Nat} (hn : n < 8) :
    |inverseSum X n| * 2 ^ 30 ≤ 2836660528 * M + 526555088 * D + 2 ^ 29 := by
  have hsum : |∑ k ∈ Finset.range 8, matAt cosRom k n * X k| ≤
      2836660528 * M + 526555088 * D :=
    calc |∑ k ∈ Finset.range 8, matAt cosRom k n * X k|
        ≤ ∑ k ∈ Finset.range 8, |matAt cosRom k n * X k| := Finset.abs_sum_le_sum_abs _ _
      _ ≤ ∑ k ∈ Finset.range 8, |matAt cosRom k n| * (M + if k = p then D else 0) :=
          Finset.sum_le_sum fun k hk => by
            rw [abs_mul]
            exact mul_le_mul_of_nonneg_left (hX k (Finset.mem_range.1 hk)) (abs_nonneg _)
      _ = (∑ k ∈ Finset.range 8, |matAt cosRom k n|) * M + |matAt cosRom p n| * D := by
          simp [mul_add, Finset.sum_add_distrib, Finset.sum_mul, hp]
      _ ≤ _ := add_le_add (mul_le_mul_of_nonneg_right (sum_abs_cosRom_column n hn) hM)
          (mul_le_mul_of_nonneg_right (abs_cosRom_le p hp n hn) hD)
  have hrnd := abs_rnd_thirty_sub_le (∑ k ∈ Finset.range 8, matAt cosRom k n * X k)
  unfold inverseSum
  rw [abs_le] at hsum hrnd
  generalize rnd _ 30 = y at *
  rcases abs_cases y with ⟨hy, _⟩ | ⟨hy, _⟩ <;> rw [hy] <;> linarith

/-- The forward transform of samples of magnitude at most 2^27 does not saturate. -/
theorem not_forwardBlockClips {B : Nat → Nat → Int}
    (hB : ∀ i j, i < 8 → j < 8 → |B i j| ≤ 2 ^ 27) : ¬ ForwardBlockClips B := by
  rintro (⟨i, k, hi, hk, hclip⟩ | ⟨u, v, hu, hv, hclip⟩)
  · exact hclip (forwardRows_eq_forwardSum hB hi hk).1
  · exact hclip (sat32_forwardBlock hB hu hv)

section
variable {B : Nat → Nat → Int} (hB : ∀ i j, i < 8 → j < 8 → |B i j| ≤ 2 ^ 24)
include hB

/-- A coefficient of a block of pixel data is at most 8 times a sample. -/
theorem abs_forwardBlock_le {u v : Nat} (hu : u < 8) (hv : v < 8) :
    |forwardBlock B u v| ≤ 2 ^ 27 + 4 := by
  have hrows : ∀ i < 8, |forwardRows B i v| ≤ 47453133 := fun i hi => by
    have hrow := forwardRows_eq_forwardSum
      (fun i j hi hj => (hB i j hi hj).trans (by norm_num)) hi hv
    have hbound := abs_forwardSum_le (by norm_num) (fun j hj => hB i j hi hj) hv
    rw [hrow.1]
    omega
  have hbound := abs_forwardSum_le (by norm_num) hrows hu
  unfold forwardBlock
  omega

theorem sat32_forwardBlock_of_pixels {u v : Nat} (hu : u < 8) (hv : v < 8) :
    sat32 (forwardBlock B u v) = forwardBlock B u v :=
  sat32_forwardBlock (fun i j hi hj => (hB i j hi hj).trans (by norm_num)) hu hv

/-- Marking replaces X[3][4] only, by a value of a word. -/
theorem abs_markedCoeff_le (t : Bool) (S : Int) {u v : Nat} (hu : u < 8) (hv : v < 8) :
    |markedCoeff B t S u v| ≤ 2 ^ 27 + 4 + if u = 3 ∧ v = 4 then 2 ^ 31 else 0 := by
  unfold markedCoeff
  split
  case isTrue =>
    have hword := sat32_bounds (nudged (sat32 (forwardBlock B 3 4)) t S)
    rw [abs_le]
    omega
  case isFalse =>
    rw [sat32_forwardBlock_of_pixels hB hu hv, add_zero]
    exact abs_forwardBlock_le hB hu hv

/-- The column pass over marked coefficients: column 4 is the larger one. -/
theorem abs_inverseSum_markedCoeff_le (t : Bool) (S : Int) {i v : Nat} (hi : i < 8) (hv : v < 8) :
    |inverseSum (fun u => markedCoeff B t S u v) i| ≤
      354582580 + if v = 4 then 1053110177 else 0 := by
  have hcoeff : ∀ u < 8, |markedCoeff B t S u v| ≤
      2 ^ 27 + 4 + if u = 3 then (if v = 4 then 2 ^ 31 else 0) else 0 := fun u hu => by
    simpa only [ite_and] using abs_markedCoeff_le hB t S hu hv
  have hbound := abs_inverseSum_le (by norm_num) (by split <;> norm_num) (by omega) hcoeff hi
  split at hbound <;> omega

/-- The inverse transform of a marked block of pixel data does not saturate, whatever the
strength (42 R180). -/
theorem not_inverseBlockClips_markedCoeff (t : Bool) (S : Int) :
    ¬ InverseBlockClips (markedCoeff B t S) := by
  have hcolumn : ∀ i v, i < 8 → v < 8 → |inverseColumns (markedCoeff B t S) i v| ≤
      354582580 + if v = 4 then 1053110177 else 0 := fun i v hi hv => by
    have hle := abs_inverseSum_markedCoeff_le hB t S hi hv
    rwa [inverseColumns, sat32_of_abs_le (by split at hle <;> omega)]
  rintro (⟨i, v, hi, hv, hclip⟩ | ⟨i, j, hi, hj, hclip⟩)
  · have hle := abs_inverseSum_markedCoeff_le hB t S hi hv
    exact hclip (sat32_of_abs_le (by split at hle <;> omega))
  · have hle : |inverseBlock (markedCoeff B t S) i j| * 2 ^ 30 ≤ _ :=
      abs_inverseSum_le (by norm_num) (by norm_num) (by omega) (fun v hv => hcolumn i v hi hv) hj
    exact hclip (sat32_of_abs_le (by omega))

end

/-! ### One block -/

section
variable {M : Mat} {B : Nat → Nat → Int} (hM : Shaped 8 8 M)
  (hMB : ∀ i j, i < 8 → j < 8 → matAt M i j = B i j)
include hM hMB

/-- The coefficient that carries a bit (42 R177). -/
theorem matAt_dct2d_carrier :
    matAt (dct2d M).val dctU dctV = sat32 (forwardBlock B 3 4) := by
  rw [matAt_dct2d_eq hM (by decide) (by decide), forwardBlock_congr hMB]
  rfl

/-- The coefficients of a block after the bit is set (42 R179). -/
theorem matAt_marked (t : Bool) (S : Int) {u v : Nat} (hu : u < 8) (hv : v < 8) :
    matAt (matSet (dct2d M).val dctU dctV (qembed (matAt (dct2d M).val dctU dctV) t S)) u v =
      markedCoeff B t S u v := by
  rw [matAt_matSet (shaped_dct2d M) hu hv, matAt_dct2d_carrier hM hMB, qembed_eq_sat32_nudged,
    matAt_dct2d_eq hM hu hv, forwardBlock_congr hMB]
  rfl

/-- A block after embedding (42 R179). -/
theorem matAt_embedBlock (t : Bool) (S : Int) {i j : Nat} (hi : i < 8) (hj : j < 8) :
    matAt (embedBlock S t M).val i j = sat32 (inverseBlock (markedCoeff B t S) i j) :=
  calc matAt (embedBlock S t M).val i j = sat32 (inverseBlock (matAt (matSet _ dctU dctV _)) i j) :=
        matAt_idct2d_eq (shaped_matSet (shaped_dct2d M) _ _ _).1 hi hj
    _ = _ := by rw [inverseBlock_congr fun u v hu hv => matAt_marked hM hMB t S hu hv]

variable (hB : ∀ i j, i < 8 → j < 8 → |B i j| ≤ 2 ^ 24)
include hB

theorem clipped_dct2d_of_pixels : (dct2d M).clipped = false := by
  rw [Bool.eq_false_iff, Ne, clipped_dct2d_iff hM, forwardBlockClips_congr hMB]
  exact not_forwardBlockClips fun i j hi hj => (hB i j hi hj).trans (by norm_num)

/-- Embedding in a block of pixel data does not saturate (42 R180). -/
theorem clipped_embedBlock {t : Bool} {S : Int} (hS : 1 ≤ S) (hS' : S ≤ 0x7FFFFFFF) :
    (embedBlock S t M).clipped = false := by
  have hcarrier : |matAt (dct2d M).val dctU dctV| ≤ 2 ^ 28 := by
    have hle := abs_forwardBlock_le hB (u := 3) (v := 4) (by omega) (by omega)
    rw [matAt_dct2d_carrier hM hMB, sat32_forwardBlock_of_pixels hB (by omega) (by omega)]
    omega
  have hinverse : (idct2d (matSet (dct2d M).val dctU dctV
      (qembed (matAt (dct2d M).val dctU dctV) t S))).clipped = false := by
    rw [Bool.eq_false_iff, Ne, clipped_idct2d_iff (shaped_matSet (shaped_dct2d M) _ _ _).1,
      inverseBlockClips_congr fun u v hu hv => matAt_marked hM hMB t S hu hv]
    exact not_inverseBlockClips_markedCoeff hB t S
  simp [embedBlock, clipped_dct2d_of_pixels hM hMB hB, clips_qembedRaw t hS hS' hcarrier, hinverse]

end

end Sys2Proof.Proofs
end

section
/-! PROOFS. The commands of the DCT codec: DCTCAP, DCTEMB and DCTEXT (42 R176 to R182). -/

namespace Sys2Proof.Proofs

open Sys2Proof.Machine Sys2Proof.Claims Sys2Proof.Laws

/-! ### DCTCAP -/

/-- DCTCAP has no region: with its operands nonzero it runs on every platform (60 R245). -/
theorem runs_dctcap {s : State} (hr : s.snap.r.toNat ≠ 0) (hw : s.snap.w.toNat ≠ 0)
    (hh : s.snap.h.toNat ≠ 0) : Runs .dctcap s := by
  have hoption : badOption .dctcap s.snap = false := by
    simp [badOption, readsStrength, readsLevels, Snapshot.redundancy, hr]
  have hdim : badDim .dctcap s.snap = false := by
    simp [badDim, Snapshot.width, Snapshot.height, hw, hh]
  exact ⟨(firstError_eq_none_iff _ _).2 ⟨hoption, hdim, rfl, rfl, rfl, rfl, rfl⟩, rfl, rfl⟩

/-- Settles O30: the operation reports the block count and its capacity. -/
theorem dctcapReports : Obligations.DctcapReports := by
  intro s hr hw hh blocks
  rw [exec_of_runs (runs_dctcap hr hw hh), doneStatus_false]
  rfl

/-! ### The blocks of a pixel buffer in memory -/

/-- A channel sample is at most 255·2^16 (40 R126). -/
theorem abs_blue_le (m : Memory) (base w i j : Nat) : |blue m base w i j| ≤ 2 ^ 24 := by
  have hbyte := (readByte m (base + 4 * (i * w + j) + 2)).isLt
  unfold blue
  rw [abs_le]
  omega

theorem abs_blockCell_le (m : Memory) (base w b i j : Nat) :
    |blockCell m base w b i j| ≤ 2 ^ 24 := abs_blue_le _ _ _ _ _

section
variable {m : Memory} {src w h b : Nat} (hb : b < (w / 8) * (h / 8))
include hb

/-- A block of the tiling lies inside the image (42 R176). -/
theorem block_bounds : b / (w / 8) < h / 8 ∧ b % (w / 8) < w / 8 :=
  ⟨Nat.div_lt_of_lt_mul hb, Nat.mod_lt _ (Nat.pos_of_mul_pos_right (Nat.zero_lt_of_lt hb))⟩

theorem shaped_blockOf_chext :
    Shaped 8 8 (blockOf (chext (loadBytes m src (4 * (w * h))) w h) (w / 8) b) :=
  shaped_blockOf (shaped_chext (length_loadBytes _ _ _)) hb

/-- Cell (i, j) of block b of channel 2 (42 R176). -/
theorem matAt_blockOf_chext (i j : Nat) (hi : i < 8) (hj : j < 8) :
    matAt (blockOf (chext (loadBytes m src (4 * (w * h))) w h) (w / 8) b) i j =
      blockCell m src w b i j := by
  obtain ⟨hrow, hcolumn⟩ := block_bounds hb
  rw [matAt_blockOf hi hj, matAt_chext_loadBytes (by omega) (by omega), blockCell]

end

/-! ### DCTEMB -/

/-- The blocks that carry the stream of the payload at aux, after embedding (42 R179). -/
def markedBlocks (m : Memory) (src aux w h len r : Nat) (S : Int) : List (Sat Mat) :=
  embedBlocks S (chext (loadBytes m src (4 * (w * h))) w h) (w / 8)
    (stream (frame (loadBytes m aux len)) r)

section
variable {m : Memory} {src aux w h len r : Nat} {S : Int}

theorem length_markedBlocks :
    (markedBlocks m src aux w h len r S).length = streamBits len r := by
  simp [markedBlocks, streamBits]

/-- Block b carries stream bit b (42 R179). -/
theorem getElem_markedBlocks {b : Nat} (hb : b < (markedBlocks m src aux w h len r S).length) :
    (markedBlocks m src aux w h len r S)[b] =
      embedBlock S (frameBit m aux len (b / r))
        (blockOf (chext (loadBytes m src (4 * (w * h))) w h) (w / 8) b) := by
  have hstream : b < streamBits len r := length_markedBlocks ▸ hb
  exact (getElem_embedBlocks hb).trans (by rw [getD_stream_frame_loadBytes hstream])

variable (hfits : streamBits len r ≤ (w / 8) * (h / 8))
include hfits

/-- No block saturates (42 R180). -/
theorem clipped_markedBlocks (hS : 1 ≤ S) (hS' : S ≤ 0x7FFFFFFF) :
    (markedBlocks m src aux w h len r S).any Sat.clipped = false := by
  rw [List.any_eq_false]
  intro block hblock
  obtain ⟨b, hb, rfl⟩ := List.getElem_of_mem hblock
  have htile : b < (w / 8) * (h / 8) := (length_markedBlocks ▸ hb).trans_le hfits
  rw [getElem_markedBlocks hb, clipped_embedBlock (shaped_blockOf_chext htile)
    (matAt_blockOf_chext htile) (fun i j _ _ => abs_blockCell_le m src w b i j) hS hS']
  exact Bool.false_ne_true

/-- The channel matrix with the marked blocks put back (42 R179). -/
theorem matAt_withBlocks_markedBlocks {i j : Nat} (hi : i < h) (hj : j < w) :
    matAt (withBlocks (chext (loadBytes m src (4 * (w * h))) w h) h w
      ((markedBlocks m src aux w h len r S).map Sat.val)) i j =
        dctMarked m src aux w h len r S i j := by
  rw [matAt_withBlocks hi hj, matAt_chext_loadBytes hi hj, List.length_map, length_markedBlocks]
  refine ite_congr rfl (fun hmarked => ?_) fun _ => rfl
  obtain ⟨-, -, hb⟩ := hmarked
  have htile := hb.trans_le hfits
  have hb' : i / 8 * (w / 8) + j / 8 < (markedBlocks m src aux w h len r S).length := by
    rwa [length_markedBlocks]
  rw [List.getD_eq_getElem _ _ (by rwa [List.length_map]), List.getElem_map,
    getElem_markedBlocks hb', matAt_embedBlock (shaped_blockOf_chext htile)
      (matAt_blockOf_chext htile) _ _ (Nat.mod_lt _ (by omega)) (Nat.mod_lt _ (by omega))]

end

/-- Settles O31: the blocks that carry a bit are put back, and channel 2 is restored from the
matrix. -/
theorem dctembMarks : Obligations.DctembMarks := by
  intro s hruns w h len r src aux blocks
  set out := dctEmbed (loadBytes s.mem src (4 * (w * h))) w h (loadBytes s.mem aux len)
    s.snap.s.toNat r
  have hfits : streamBits len r ≤ blocks := runs_capacity hruns rfl
  obtain ⟨hS, hS'⟩ := runs_strength hruns rfl
  have hsat : out.clipped = false := clipped_markedBlocks hfits (by omega) (by omega)
  refine ⟨writeBytes s.mem s.snap.dst.toNat out.val, ?_, ?_, ?_⟩
  · rw [exec_of_runs hruns, ← congrArg (doneStatus s.status) hsat]
    rfl
  · exact restored_congr (restored_chrst (shaped_withBlocks _ _ _ _))
      fun i j hi hj => matAt_withBlocks_markedBlocks hfits hi hj
  · exact sameOutside_writeBytes ((length_dctEmbed _ _ _ _ _ _).trans (length_loadBytes _ _ _))

/-! ### DCTEXT -/

/-- The bit read from block b (42 R181). -/
theorem getD_dctBits {m : Memory} {src w h b : Nat} (S : Int) (hb : b < (w / 8) * (h / 8)) :
    (dctBits (loadBytes m src (4 * (w * h))) w h S).val.getD b false = dctBit m src w S b := by
  have hlt : b < dctBlocks w h := hb
  rw [dctBit, ← qextract_eq_parityBit,
    ← matAt_dct2d_carrier (shaped_blockOf_chext hb) (matAt_blockOf_chext hb)]
  simp [dctBits, hlt]

/-- No block of pixel data saturates (42 R180). -/
theorem clipped_dctBits {m : Memory} {src w h : Nat} (S : Int) :
    (dctBits (loadBytes m src (4 * (w * h))) w h S).clipped = false := by
  simp only [dctBits, List.any_map, List.any_eq_false, List.mem_range, Function.comp]
  intro b hb
  rw [clipped_dct2d_of_pixels (shaped_blockOf_chext hb) (matAt_blockOf_chext hb)
    fun i j _ _ => abs_blockCell_le m src w b i j]
  exact Bool.false_ne_true

/-- Settles O32: the carrier is the bits of all blocks, and there is no scratch region. -/
theorem dctextDecodes : Obligations.DctextDecodes := by
  intro s hruns w h
  set bits := dctBits (loadBytes s.mem s.snap.src.toNat (4 * (w * h))) w h s.snap.s.toNat
  have hlength : bits.val.length = (w / 8) * (h / 8) := length_dctBits _ _ _ _
  have hbits : ∀ k, k < bits.val.length →
      bits.val.getD k false = dctBit s.mem s.snap.src.toNat w s.snap.s.toNat k :=
    fun k hk => getD_dctBits _ (hlength ▸ hk)
  have hext := extracted_reportDecode (st := s) (m := s.mem) (d := s.draws) (scr := 0)
    (scrSize := 0) hbits bits.clipped fun _ _ => rfl
  have hsat : bits.clipped = false := clipped_dctBits _
  refine ⟨_, exec_of_runs hruns, reportDecode_draws _ _ _, ?_⟩
  rw [hlength] at hext
  rw [← hsat]
  exact hext

end Sys2Proof.Proofs
end

section
/-! PROOFS. The carrier of the DWT codec: the aligned region of channel 2, the sizes of its levels,
HH of the deepest level coefficient by coefficient, and that pixel data never clips there (43 R200,
R201, R204). -/

namespace Sys2Proof.Proofs

open Sys2Proof.Machine Sys2Proof.Claims Sys2Proof.Laws

/-! ### The levels of an aligned side (43 R200) -/

theorem aligned_pos {x lv : Nat} (hx : 1 ≤ x / 2 ^ lv) : 1 ≤ aligned x lv :=
  Nat.mul_pos hx (by positivity)

theorem levelSize_aligned (x : Nat) {lv l : Nat} (hl : l ≤ lv) :
    levelSize (aligned x lv) l = x / 2 ^ lv * 2 ^ (lv - l) := by
  induction l with
  | zero => rfl
  | succ l ih =>
    rw [levelSize, ih (by omega), show lv - l = lv - (l + 1) + 1 by omega, pow_succ, ← mul_assoc]
    omega

theorem levelSize_aligned_self (x lv : Nat) : levelSize (aligned x lv) lv = x / 2 ^ lv := by
  rw [levelSize_aligned x le_rfl, Nat.sub_self, pow_zero, mul_one]

/-- No step of the inverse transform drops a position of an aligned side (40 R120). -/
theorem levelSize_aligned_step (x : Nat) {lv d : Nat} (hd : d < lv) :
    levelSize (aligned x lv) (lv - 1 - d) = 2 * levelSize (aligned x lv) (lv - d) := by
  rw [levelSize_aligned x (by omega), levelSize_aligned x (by omega),
    show lv - (lv - 1 - d) = lv - (lv - d) + 1 by omega, pow_succ]
  ring

/-- On aligned sides the two readings of a clip of idwt agree. -/
theorem inverseDwtClipsComputed_aligned_iff {top : Nat → Nat → Int}
    {band : Nat → Nat → Nat → Nat → Int} {h w lv : Nat} :
    InverseDwtClipsComputed top band (aligned h lv) (aligned w lv) lv ↔
      InverseDwtClipsKept top band (aligned h lv) (aligned w lv) lv := by
  refine exists_congr fun d => exists₂_congr fun i j => and_congr_right fun hd => ?_
  rw [levelSize_aligned_step h hd, levelSize_aligned_step w hd]

/-! ### HH of the deepest level (43 R201) -/

theorem matAt_deepestHH (bs : List Bands) (i j : Nat) :
    matAt (deepestHH bs) i j = bandAt bs 2 (bs.length - 1) i j := by
  rw [deepestHH, bandAt, List.getLast?_eq_getElem?]
  cases bs[bs.length - 1]? <;> rfl

/-- The decomposition with HH of the deepest level replaced (43 R203). -/
theorem bandAt_replaceDeepestHH {hh : Mat} {bs : List Bands} {t l : Nat} (ht : t < 3)
    (hl : l < bs.length) (i j : Nat) :
    bandAt (replaceDeepestHH hh bs) t l i j =
      if t = 2 ∧ l + 1 = bs.length then matAt hh i j else bandAt bs t l i j := by
  simp only [bandAt, getElem?_replaceDeepestHH, List.getElem?_eq_getElem hl]
  by_cases hdeep : l + 1 = bs.length
  · match t, ht with
    | 0, _ | 1, _ | 2, _ => simp [hdeep, bandOf]
  · simp [hdeep]

/-! ### A transform of small samples does not clip -/

section
variable {A : Mat} {h w : Nat} {M : Int} (hA : ∀ i j, i < h → j < w → |matAt A i j| ≤ M)
include hA

/-- A level at most doubles the magnitude. -/
theorem abs_haarOut_le_two_mul (t : Nat) {i j : Nat} (hi : i < halfUp h) (hj : j < halfUp w) :
    |haarOut (matAt A) h w t i j| ≤ 2 * M := by
  rw [halfUp_eq] at hi hj
  exact abs_haarOut_le (forall_edge (P := fun v => |v| ≤ M) (by omega) (by omega) hA) t i j

variable (hword : 2 * M ≤ 2147483647)
include hword

theorem sat32_haarOut_of_abs_le (t : Nat) {i j : Nat} (hi : i < halfUp h) (hj : j < halfUp w) :
    sat32 (haarOut (matAt A) h w t i j) = haarOut (matAt A) h w t i j :=
  sat32_of_abs_le ((abs_haarOut_le_two_mul hA t hi hj).trans hword)

theorem clipped_haarBand_of_abs_le (t : Nat) :
    (haarBand (bandSigns t).1 (bandSigns t).2.1 (bandSigns t).2.2 A h w).clipped = false := by
  rw [Bool.eq_false_iff, Ne, clipped_haarBand_iff]
  rintro ⟨i, j, hi, hj, hclip⟩
  exact hclip (sat32_haarOut_of_abs_le hA hword t hi hj)

theorem abs_haarLL_le (i j : Nat) (hi : i < halfUp h) (hj : j < halfUp w) :
    |matAt (haarLL A h w).val i j| ≤ 2 * M := by
  have hLL : matAt (haarLL A h w).val i j = sat32 (haarOut (matAt A) h w 3 i j) :=
    matAt_haarBand_eq 3 hi hj
  rw [hLL, sat32_haarOut_of_abs_le hA hword 3 hi hj]
  exact abs_haarOut_le_two_mul hA 3 hi hj

end

/-- Samples that lv doublings keep inside a word never clip, whatever the sides: the matrix may be
empty. -/
theorem clipped_dwt_of_abs_le {A : Mat} {h w lv : Nat} {M : Int} (hM : 0 ≤ M)
    (hword : M * 2 ^ lv ≤ 2147483647) (hA : ∀ i j, i < h → j < w → |matAt A i j| ≤ M) :
    (dwt A h w lv).clipped = false := by
  induction lv generalizing A h w M with
  | zero => rfl
  | succ lv ih =>
    have hdouble : 2 * M * 2 ^ lv ≤ 2147483647 := by rw [pow_succ] at hword; linarith
    have hle : 2 * M ≤ 2147483647 :=
      (le_mul_of_one_le_right (by omega) (one_le_pow₀ (by norm_num))).trans hdouble
    have hdeep := ih (by omega) hdouble (abs_haarLL_le hA hle)
    have hband := clipped_haarBand_of_abs_le hA hle
    have hbands : ((haarLL A h w).clipped || (haarLH A h w).clipped || (haarHL A h w).clipped ||
        (haarHH A h w).clipped) = false := by
      simpa only [Bool.or_eq_false_iff] using ⟨⟨⟨hband 3, hband 0⟩, hband 1⟩, hband 2⟩
    simp only [dwt, hbands, hdeep, Bool.or_false]

/-- The greatest channel sample is 255·2^16 (40 R126). -/
theorem abs_blue_le_max (m : Memory) (base w i j : Nat) :
    |blue m base w i j| ≤ 255 * 2 ^ 16 := by
  have hbyte := (readByte m (base + 4 * (i * w + j) + 2)).isLt
  unfold blue
  rw [abs_le]
  omega

/-! ### The carrier in channel 2 of a pixel buffer -/

/-- The aligned region of channel 2 of the w × h buffer at src (43 R200). -/
def alignedChannel (m : Memory) (src w h lv : Nat) : Mat :=
  topLeft (chext (loadBytes m src (4 * (w * h))) w h) (alignedSize h lv) (alignedSize w lv)

/-- Its decomposition (43 R201). -/
def channelDwt (m : Memory) (src w h lv : Nat) : Sat Decomp :=
  dwt (alignedChannel m src w h lv) (alignedSize h lv) (alignedSize w lv) lv

/-- HH_Lv, whose coefficients carry the bits (43 R201). -/
def carrierHH (m : Memory) (src w h lv : Nat) : Mat :=
  deepestHH (channelDwt m src w h lv).val.details

/-- Coefficient (i, j) of the carrier in index form (43 R201). -/
def carrierCoeff (m : Memory) (src w h lv i j : Nat) : Int :=
  sat32 (levelOut (blue m src w) (aligned h lv) (aligned w lv) 2 (lv - 1) i j)

section
variable {m : Memory} {src w h lv : Nat}

theorem shaped_alignedChannel :
    Shaped (alignedSize h lv) (alignedSize w lv) (alignedChannel m src w h lv) :=
  shaped_topLeft (shaped_chext (length_loadBytes _ _ _)) (alignedSize_le h lv) (alignedSize_le w lv)

theorem matAt_alignedChannel (i j : Nat) (hi : i < alignedSize h lv) (hj : j < alignedSize w lv) :
    matAt (alignedChannel m src w h lv) i j = blue m src w i j := by
  rw [alignedChannel, matAt_topLeft hi hj, matAt_chext_loadBytes
    (hi.trans_le (alignedSize_le h lv)) (hj.trans_le (alignedSize_le w lv))]

theorem length_channelDwt : (channelDwt m src w h lv).val.details.length = lv :=
  length_dwt_details _ _ _ _

/-- Pixel data never clips: LL is at most 255·2^16·2^Lv (43 R204). -/
theorem clipped_channelDwt (hlv : lv ≤ 7) : (channelDwt m src w h lv).clipped = false := by
  refine clipped_dwt_of_abs_le (M := 255 * 2 ^ 16) (by norm_num) ?_ fun i j hi hj => ?_
  · have hpow : (2 : Int) ^ lv ≤ 2 ^ 7 := pow_le_pow_right₀ (by norm_num) hlv
    omega
  · rw [matAt_alignedChannel i j hi hj]
    exact abs_blue_le_max m src w i j

theorem shaped_carrierHH (hlv : 1 ≤ lv) :
    Shaped (h / 2 ^ lv) (w / 2 ^ lv) (carrierHH m src w h lv) := by
  have hbands : BandsShaped (alignedSize h lv) (alignedSize w lv)
      (channelDwt m src w h lv).val.details := (shaped_dwt shaped_alignedChannel lv).1
  have hHH := shaped_deepestHH hbands (List.length_pos_iff.1 (by rwa [length_channelDwt]))
  rwa [length_channelDwt, deepSize_alignedSize, deepSize_alignedSize] at hHH

section
variable (hh : 1 ≤ h / 2 ^ lv) (hw : 1 ≤ w / 2 ^ lv)
include hh hw

/-- Each detail coefficient, from the channel itself (40 R121). -/
theorem bandAt_channelDwt {t l i j : Nat} (ht : t < 3) (hl : l < lv)
    (hi : i < levelSize (aligned h lv) (l + 1)) (hj : j < levelSize (aligned w lv) (l + 1)) :
    bandAt (channelDwt m src w h lv).val.details t l i j =
      sat32 (levelOut (blue m src w) (aligned h lv) (aligned w lv) t l i j) :=
  (bandAt_dwt (aligned_pos hh) (aligned_pos hw) ht hl hi hj).trans <| congrArg sat32 <|
    levelOut_congr (aligned_pos hh) (aligned_pos hw) matAt_alignedChannel t l i j

theorem matAt_channelDwt_ll {i j : Nat} (hi : i < levelSize (aligned h lv) lv)
    (hj : j < levelSize (aligned w lv) lv) :
    matAt (channelDwt m src w h lv).val.ll i j =
      levelLL (blue m src w) (aligned h lv) (aligned w lv) lv i j :=
  (matAt_dwt_ll (aligned_pos hh) (aligned_pos hw) hi hj).trans <|
    levelLL_congr (aligned_pos hh) (aligned_pos hw) matAt_alignedChannel hi hj

theorem clipped_channelDwt_iff : (channelDwt m src w h lv).clipped = true ↔
    ForwardDwtClips (blue m src w) (aligned h lv) (aligned w lv) lv :=
  (clipped_dwt_iff (aligned_pos hh) (aligned_pos hw) lv).trans <|
    forwardDwtClips_congr (aligned_pos hh) (aligned_pos hw) matAt_alignedChannel lv

end

section
variable (hlv : 1 ≤ lv)
include hlv

theorem length_flatten_carrierHH :
    (carrierHH m src w h lv).flatten.length = (h / 2 ^ lv) * (w / 2 ^ lv) :=
  length_flatten (shaped_carrierHH hlv)

theorem matAt_carrierHH {i j : Nat} (hi : i < h / 2 ^ lv) (hj : j < w / 2 ^ lv) :
    matAt (carrierHH m src w h lv) i j = carrierCoeff m src w h lv i j := by
  have hsize : ∀ x, levelSize (aligned x lv) (lv - 1 + 1) = x / 2 ^ lv := fun x => by
    rw [Nat.sub_add_cancel hlv, levelSize_aligned_self]
  rw [carrierHH, matAt_deepestHH, length_channelDwt]
  exact bandAt_channelDwt (by omega) (by omega) (by omega) (by omega) (by rwa [hsize])
    (by rwa [hsize])

theorem getD_flatten_carrierHH {i j : Nat} (hi : i < h / 2 ^ lv) (hj : j < w / 2 ^ lv) :
    (carrierHH m src w h lv).flatten.getD (i * (w / 2 ^ lv) + j) 0 =
      carrierCoeff m src w h lv i j := by
  rw [getD_flatten (shaped_carrierHH hlv) hi hj, matAt_carrierHH hlv hi hj]

end

end

end Sys2Proof.Proofs
end

section
/-! PROOFS. DWTCAP and DWTEXT (43 R202, R205, R206). -/

namespace Sys2Proof.Proofs

open Sys2Proof.Machine Sys2Proof.Claims Sys2Proof.Laws

/-! ### DWTCAP -/

/-- DWTCAP has no region: with legal options and a nonempty image it runs on every platform (60
R245). -/
theorem runs_dwtcap {s : State} (hr : s.snap.r.toNat ≠ 0) (hlv : 1 ≤ s.snap.lv.toNat)
    (hlv' : s.snap.lv.toNat ≤ 7) (hw : s.snap.w.toNat ≠ 0) (hh : s.snap.h.toNat ≠ 0) :
    Runs .dwtcap s := by
  have hoption : badOption .dwtcap s.snap = false := by
    simp [badOption, readsStrength, levelsOk, Snapshot.redundancy, Snapshot.levels, hr, hlv, hlv']
  have hdim : badDim .dwtcap s.snap = false := by
    simp [badDim, Snapshot.width, Snapshot.height, hw, hh]
  exact ⟨(firstError_eq_none_iff _ _).2 ⟨hoption, hdim, rfl, rfl, rfl, rfl, rfl⟩, rfl, rfl⟩

theorem coeffs_eq (p : Snapshot) :
    p.coeffs = (p.w.toNat / 2 ^ p.lv.toNat) * (p.h.toNat / 2 ^ p.lv.toNat) := dwtCoeffs_eq _ _ _

/-- Settles O33: the operation reports the coefficient count and its capacity. -/
theorem dwtcapReports : Obligations.DwtcapReports := by
  intro s hr hlv hlv' hw hh coeffs
  rw [exec_of_runs (runs_dwtcap hr hlv hlv' hw hh), doneStatus_false]
  simp only [operationOf, dwtcapOperation, coeffs_eq]
  rfl

/-! ### DWTEXT -/

/-- The bit read from coefficient k (43 R205). -/
theorem getD_dwtBits {m : Memory} {src w h lv k : Nat} (S : Int) (hlv : 1 ≤ lv)
    (hk : k < (w / 2 ^ lv) * (h / 2 ^ lv)) :
    (dwtBits (loadBytes m src (4 * (w * h))) w h S lv).val.getD k false =
      dwtBit m src w h lv S k := by
  have hrow : k / (w / 2 ^ lv) < h / 2 ^ lv := Nat.div_lt_of_lt_mul hk
  have hcolumn : k % (w / 2 ^ lv) < w / 2 ^ lv :=
    Nat.mod_lt _ (Nat.pos_of_mul_pos_right (Nat.zero_lt_of_lt hk))
  have hflat : k < (carrierHH m src w h lv).flatten.length := by
    rwa [length_flatten_carrierHH hlv, Nat.mul_comm]
  have hcoeff := getD_flatten_carrierHH (m := m) (src := src) hlv hrow hcolumn
  rw [Nat.div_add_mod', List.getD_eq_getElem _ _ hflat] at hcoeff
  have hbits : (dwtBits (loadBytes m src (4 * (w * h))) w h S lv).val =
      (carrierHH m src w h lv).flatten.map fun c => qextract c S := rfl
  rw [hbits, List.getD_eq_getElem _ _ (by rwa [List.length_map]), List.getElem_map, hcoeff]
  rfl

/-- Settles O35: the carrier is the bits of HH_Lv, and the draws before the payload stay inside
SCR. -/
theorem dwtextDecodes : Obligations.DwtextDecodes := by
  intro s hruns w h lv
  obtain ⟨hlv, hlv'⟩ : 1 ≤ lv ∧ lv ≤ 7 := runs_levels hruns rfl
  set bits := dwtBits (loadBytes s.mem s.snap.src.toNat (4 * (w * h))) w h s.snap.s.toNat lv
  have hlength : bits.val.length = (w / 2 ^ lv) * (h / 2 ^ lv) :=
    (length_dwtBits (length_loadBytes _ _ _) hlv _).trans (dwtCoeffs_eq _ _ _)
  have hbits : ∀ k, k < bits.val.length →
      bits.val.getD k false = dwtBit s.mem s.snap.src.toNat w h lv s.snap.s.toNat k :=
    fun k hk => getD_dwtBits _ hlv (hlength ▸ hk)
  have hsat : bits.clipped = false := clipped_channelDwt hlv'
  set u := drawScratch (noteSat bits.clipped s)
  have hscratch : ∀ a, ¬(s.snap.scr.toNat ≤ a ∧
      a < s.snap.scr.toNat + 4 * (aligned w lv * aligned h lv)) →
      readByte u.mem a = readByte s.mem a :=
    fun _ ha => readByte_drawRegion (decide_eq_false ha)
  have hext := extracted_reportDecode (st := s) (m := u.mem) (d := u.draws) hbits bits.clipped
    hscratch
  refine ⟨_, exec_of_runs hruns, ?_⟩
  have hcoeffs : s.snap.coeffs = bits.val.length := (coeffs_eq _).trans hlength.symm
  rw [← hlength, ← hsat]
  simp only [operationOf, dwtextOperation, hcoeffs]
  exact hext

end Sys2Proof.Proofs
end

section
/-! PROOFS. DWTEMB: the carrier after embedding, its inverse transform, and the buffer at DST (43
R203, R204). -/

namespace Sys2Proof.Proofs

open Sys2Proof.Machine Sys2Proof.Claims Sys2Proof.Laws

/-! ### The carrier after embedding (43 R203) -/

/-- The coefficients of the carrier, row-major, after the stream of the payload at aux is embedded
in the first of them. -/
def markedCarrier (m : Memory) (src aux w h len r lv : Nat) (S : Int) : Sat (List Int) :=
  qembedList S (carrierHH m src w h lv).flatten (stream (frame (loadBytes m aux len)) r)

/-- Coefficient (i, j) of the carrier with its bit, in index form and before saturation. -/
def carrierNudged (m : Memory) (src aux w h len r lv : Nat) (S : Int) (i j : Nat) : Int :=
  nudged (carrierCoeff m src w h lv i j) (frameBit m aux len ((i * (w / 2 ^ lv) + j) / r)) S

/-- The detail subbands with the embedded carrier put back. -/
def markedDetails (m : Memory) (src aux w h len r lv : Nat) (S : Int) : List Bands :=
  replaceDeepestHH
    (matOfFlat (bandSize h lv) (bandSize w lv) (markedCarrier m src aux w h len r lv S).val)
    (channelDwt m src w h lv).val.details

/-- The aligned region of channel 2 after embedding. -/
def markedChannel (m : Memory) (src aux w h len r lv : Nat) (S : Int) : Sat Mat :=
  idwt (channelDwt m src w h lv).val.ll (markedDetails m src aux w h len r lv S)
    (alignedSize h lv) (alignedSize w lv)

section
variable {m : Memory} {src aux w h len r lv : Nat} {S : Int}

theorem length_markedDetails : (markedDetails m src aux w h len r lv S).length = lv :=
  (length_replaceDeepestHH _ _).trans length_channelDwt

variable (hlv : 1 ≤ lv)
include hlv

theorem getD_markedCarrier {i j : Nat} (hi : i < h / 2 ^ lv) (hj : j < w / 2 ^ lv) :
    (markedCarrier m src aux w h len r lv S).val.getD (i * (w / 2 ^ lv) + j) 0 =
      dwtMarkedBand m src aux w h len r lv S 2 (lv - 1) i j := by
  have hk : i * (w / 2 ^ lv) + j < (carrierHH m src w h lv).flatten.length := by
    rw [length_flatten_carrierHH hlv]; exact index_lt_mul hi hj
  have hdeep : lv - 1 + 1 = lv := Nat.sub_add_cancel hlv
  rw [markedCarrier, getD_qembedList hk, getD_flatten_carrierHH hlv hi hj, qembed_eq_sat32_nudged,
    dwtMarkedBand]
  simp only [hdeep, true_and, length_stream, length_frame, length_loadBytes]
  refine ite_congr rfl (fun hmarked => ?_) fun _ => rfl
  rw [getD_stream_frame_loadBytes hmarked, carrierCoeff]

/-- A bit is embedded in the coefficient of its position (43 R203). -/
theorem qembedRaw_carrier {i j : Nat} (hk : i * (w / 2 ^ lv) + j < streamBits len r)
    (hi : i < h / 2 ^ lv) (hj : j < w / 2 ^ lv) :
    qembedRaw ((carrierHH m src w h lv).flatten.getD (i * (w / 2 ^ lv) + j) 0)
      ((stream (frame (loadBytes m aux len)) r).getD (i * (w / 2 ^ lv) + j) false) S =
        carrierNudged m src aux w h len r lv S i j := by
  rw [getD_flatten_carrierHH hlv hi hj, getD_stream_frame_loadBytes hk, qembedRaw_eq_nudged,
    carrierNudged]

/-- A clip of the quantizer is one at a coefficient that carries a bit (43 R203). -/
theorem clipped_markedCarrier_iff (hfits : streamBits len r ≤ (w / 2 ^ lv) * (h / 2 ^ lv)) :
    (markedCarrier m src aux w h len r lv S).clipped = true ↔
      ∃ i j, i * (w / 2 ^ lv) + j < streamBits len r ∧ j < w / 2 ^ lv ∧
        sat32 (carrierNudged m src aux w h len r lv S i j) ≠
          carrierNudged m src aux w h len r lv S i j := by
  have hrow : ∀ k < streamBits len r, k / (w / 2 ^ lv) < h / 2 ^ lv := fun k hk =>
    Nat.div_lt_of_lt_mul (hk.trans_le hfits)
  have hlength : (stream (frame (loadBytes m aux len)) r).length = streamBits len r := by
    simp [streamBits]
  rw [markedCarrier, clipped_qembedList, length_flatten_carrierHH hlv, hlength]
  constructor
  · rintro ⟨k, hk, hstream, hclip⟩
    have hi := hrow k hstream
    have hj : k % (w / 2 ^ lv) < w / 2 ^ lv :=
      Nat.mod_lt _ (Nat.pos_of_mul_pos_left (Nat.zero_lt_of_lt hk))
    rw [← Nat.div_add_mod' k (w / 2 ^ lv)] at hstream hclip
    rw [qembedRaw_carrier hlv hstream hi hj] at hclip
    exact ⟨_, _, hstream, hj, hclip⟩
  · rintro ⟨i, j, hstream, hj, hclip⟩
    have hi : i < h / 2 ^ lv := by
      have hlt := hrow _ hstream
      rwa [Nat.add_comm, Nat.add_mul_div_right _ _ (by omega), Nat.div_eq_of_lt hj,
        Nat.zero_add] at hlt
    rw [← qembedRaw_carrier hlv hstream hi hj] at hclip
    exact ⟨_, index_lt_mul hi hj, hstream, hclip⟩

section
variable (hh : 1 ≤ h / 2 ^ lv) (hw : 1 ≤ w / 2 ^ lv)
include hh hw

/-- The detail coefficients after embedding, in index form (43 R203). -/
theorem bandAt_markedDetails (t l i j : Nat) (ht : t < 3) (hl : l < lv)
    (hi : i < levelSize (aligned h lv) (l + 1)) (hj : j < levelSize (aligned w lv) (l + 1)) :
    bandAt (markedDetails m src aux w h len r lv S) t l i j =
      dwtMarkedBand m src aux w h len r lv S t l i j := by
  rw [markedDetails, bandAt_replaceDeepestHH ht (by rwa [length_channelDwt]), length_channelDwt]
  split
  case isTrue hcarrier =>
    obtain ⟨rfl, rfl⟩ := hcarrier
    rw [levelSize_aligned_self] at hi hj
    rw [matAt_matOfFlat (by rwa [bandSize_eq]) (by rwa [bandSize_eq]), bandSize_eq]
    exact getD_markedCarrier hlv hi hj
  case isFalse hother =>
    rw [bandAt_channelDwt hh hw ht hl hi hj, dwtMarkedBand,
      if_neg fun ⟨ht, hl, _⟩ => hother ⟨ht, hl⟩]

theorem matAt_markedChannel {i j : Nat} (hi : i < aligned h lv) (hj : j < aligned w lv) :
    matAt (markedChannel m src aux w h len r lv S).val i j =
      inverseLL (levelLL (blue m src w) (aligned h lv) (aligned w lv) lv)
        (dwtMarkedBand m src aux w h len r lv S) lv lv i j := by
  have hlast : lv - lv = 0 := Nat.sub_self lv
  refine (matAt_idwt hi hj).trans ?_
  rw [length_markedDetails]
  exact inverseLL_congr (fun _ _ => matAt_channelDwt_ll hh hw)
    (bandAt_markedDetails hlv hh hw) le_rfl (by rwa [hlast]) (by rwa [hlast])

theorem clipped_markedChannel_iff :
    (markedChannel m src aux w h len r lv S).clipped = true ↔
      InverseDwtClipsKept (levelLL (blue m src w) (aligned h lv) (aligned w lv) lv)
        (dwtMarkedBand m src aux w h len r lv S) (aligned h lv) (aligned w lv) lv := by
  rw [← inverseDwtClipsComputed_aligned_iff,
    ← inverseDwtClipsComputed_congr (fun _ _ => matAt_channelDwt_ll hh hw)
      (bandAt_markedDetails hlv hh hw), markedChannel, clipped_idwt_iff, length_markedDetails]
  rfl

/-- The channel matrix with the marked region put back (43 R203). -/
theorem matAt_withTopLeft_markedChannel {i j : Nat} (hi : i < h) (hj : j < w) :
    matAt (withTopLeft (chext (loadBytes m src (4 * (w * h))) w h) h w
      (markedChannel m src aux w h len r lv S).val (alignedSize h lv) (alignedSize w lv)) i j =
        dwtMarked m src aux w h len r lv S i j := by
  rw [matAt_withTopLeft hi hj, matAt_chext_loadBytes hi hj]
  exact ite_congr rfl (fun ⟨hi, hj⟩ => matAt_markedChannel hlv hh hw hi hj) fun _ => rfl

/-- A clip of dwtEmbed is one of the transform, of the quantizer or of the inverse transform. -/
theorem clipped_dwtEmbed_iff (hfits : streamBits len r ≤ (w / 2 ^ lv) * (h / 2 ^ lv)) :
    (dwtEmbed (loadBytes m src (4 * (w * h))) w h (loadBytes m aux len) S r lv).clipped = true ↔
      DwtEmbedClips m src aux w h len r lv S := by
  have hclipped : (dwtEmbed (loadBytes m src (4 * (w * h))) w h (loadBytes m aux len) S r
      lv).clipped = ((channelDwt m src w h lv).clipped ||
        (markedCarrier m src aux w h len r lv S).clipped ||
        (markedChannel m src aux w h len r lv S).clipped) := rfl
  rw [hclipped, Bool.or_eq_true, Bool.or_eq_true, or_assoc, clipped_channelDwt_iff hh hw,
    clipped_markedCarrier_iff hlv hfits, clipped_markedChannel_iff hlv hh hw]
  rfl

end

end

/-! ### The command -/

theorem streamBits_pos (len : Nat) {r : Nat} (hr : 1 ≤ r) : 1 ≤ streamBits len r :=
  Nat.mul_pos (by unfold frameBits; omega) hr

/-- DST and SCR of DWTEMB share no byte (20 R70). -/
theorem scratch_contains_eq_false_of_dst {s : State} (hruns : Runs .dwtemb s) {a : Nat}
    (ha : s.snap.dst.toNat ≤ a ∧ a < s.snap.dst.toNat + s.snap.imageBytes) :
    (writeSamplesAt s.snap.scrAddr s.snap.scratchBytes).contains a = false := by
  have hdisjoint := runs_disjoint hruns
  simp only [regions, List.pairwise_cons, List.mem_cons] at hdisjoint
  obtain ⟨-, -, hdst, -⟩ := hdisjoint
  exact hdst _ (.inl rfl) (.inl rfl) a ((contains_iff _ _).2 ha)

/-- A restored buffer stays one when its bytes stay. -/
theorem restored_of_readByte_eq {m m' m'' : Memory} {src dst w h : Nat} {M : Nat → Nat → Int}
    (hr : Restored m m' src dst w h M)
    (heq : ∀ a, dst ≤ a → a < dst + 4 * (w * h) → readByte m'' a = readByte m' a) :
    Restored m m'' src dst w h M := by
  intro i j hi hj
  have hlt := index_lt hi hj
  obtain ⟨hblue, hother⟩ := hr i j hi hj
  refine ⟨?_, fun c hc => ?_⟩
  · rw [heq _ (by omega) (by omega), hblue]
  · rw [heq _ (by omega) (by omega), hother c hc]

/-- Settles O34: channel 2 is restored from the marked matrix, and the draws after it stay inside
SCR, which holds no byte of DST. -/
theorem dwtembMarks : Obligations.DwtembMarks := by
  intro s hruns w h lv len r src aux coeffs
  have hlv : 1 ≤ lv := (runs_levels hruns rfl).1
  have hcoeffs : s.snap.coeffs = coeffs := coeffs_eq _
  have hfits : streamBits len r ≤ coeffs := hcoeffs ▸ runs_capacity hruns rfl
  have hpos : 1 ≤ coeffs := (streamBits_pos len (runs_redundancy hruns rfl)).trans hfits
  have hw : 1 ≤ w / 2 ^ lv := Nat.pos_of_mul_pos_right hpos
  have hh : 1 ≤ h / 2 ^ lv := Nat.pos_of_mul_pos_left hpos
  set out := dwtEmbed (loadBytes s.mem src (4 * (w * h))) w h (loadBytes s.mem aux len)
    s.snap.s.toNat r lv
  have hlength : out.val.length = 4 * (w * h) :=
    (length_dwtEmbed _ _ _ _ _ _ _).trans (length_loadBytes _ _ _)
  set u := noteSat out.clipped (putBytes s.snap.dst.toNat out.val s)
  have hbuffer : Restored s.mem u.mem src s.snap.dst.toNat w h
      (dwtMarked s.mem src aux w h len r lv s.snap.s.toNat) :=
    restored_congr (restored_chrst (shaped_withTopLeft _ _ _ _ _ _))
      fun i j hi hj => matAt_withTopLeft_markedChannel hlv hh hw hi hj
  refine ⟨(drawScratch u).mem, (drawScratch u).draws, out.clipped, ?_, ?_, fun a hdst hscr => ?_,
    clipped_dwtEmbed_iff hlv hh hw hfits⟩
  · rw [exec_of_runs hruns]
    simp only [operationOf, dwtembOperation, hcoeffs]
    rfl
  · exact restored_of_readByte_eq hbuffer fun a hlo hhi =>
      readByte_drawRegion (scratch_contains_eq_false_of_dst hruns ⟨hlo, hhi⟩)
  · exact (readByte_drawRegion (decide_eq_false hscr)).trans
      (readByte_writeBytes_outside (by rwa [hlength]))

end Sys2Proof.Proofs
end

section
/-! PROOFS. NOP, and the capacity of a carrier as the embeddings enforce it (44 R220, R228). -/

namespace Sys2Proof.Proofs

open Sys2Proof.Machine Sys2Proof.Claims Sys2Proof.Laws

/-! ### NOP (44 R220) -/

/-- NOP reads no operand and no region: it runs at every state (60 R245). -/
theorem runs_nop (s : State) : Runs .nop s := ⟨rfl, rfl, rfl⟩

/-- Settles O16. -/
theorem nopCompletes : Obligations.NopCompletes := by
  intro s
  rw [exec_of_runs (runs_nop s), doneStatus_false]
  rfl

/-! ### Capacity (44 R228) -/

/-- With no earlier error, a stream above the carrier is a capacity error (60 R245). -/
theorem firstError_eq_capacity {i : Instr} {p : Snapshot} (hoption : badOption i p = false)
    (hdim : badDim i p = false) (hlen : badLength i p = false) (hover : overCapacity i p = true) :
    firstError i p = some .capacity := by
  simp [firstError, hoption, hdim, hlen, hover]

/-- A capacity error comes after the options and the length passed, for a stream above the carrier
(60 R245). -/
theorem of_firstError_eq_capacity {i : Instr} {p : Snapshot}
    (h : firstError i p = some .capacity) :
    badOption i p = false ∧ badLength i p = false ∧ overCapacity i p = true := by
  unfold firstError at h
  repeat' split at h
  all_goals simp_all

theorem overCapacity_iff {i : Instr} {p : Snapshot} {n : Nat} (hc : carrier i p = some n) :
    overCapacity i p = true ↔ n < streamBits p.length p.redundancy := by
  simp [overCapacity, hc]

/-- A payload within the capacity in bytes never fails with CAPACITY: R and LEN are nonzero once
the earlier checks have passed, and then the stream fits (41 R157). -/
theorem firstError_ne_capacity {i : Instr} {p : Snapshot} {n : Nat} (hc : carrier i p = some n)
    (hred : readsRedundancy i = true) (hlen : readsLength i = true)
    (hfits : p.length ≤ capBytes n p.redundancy) : firstError i p ≠ some .capacity := by
  intro h
  obtain ⟨hoption, hlength, hover⟩ := of_firstError_eq_capacity h
  have hr : p.redundancy ≠ 0 := by
    simp only [badOption, hred, Bool.or_eq_false_iff, Bool.true_and, decide_eq_false_iff_not]
      at hoption
    exact hoption.1.2
  have hl : p.length ≠ 0 := by simpa [badLength, hlen] using hlength
  have hle :=
    (fits_iff (n := n) (Nat.one_le_iff_ne_zero.2 hr) (Nat.one_le_iff_ne_zero.2 hl)).2 hfits
  exact absurd ((overCapacity_iff hc).1 hover) (Nat.not_lt.2 hle)

/-- A carrier of 8 × 8 blocks or 2^Lv squares counts below 2^32. -/
theorem mul_div_lt_word (w h : BitVec 16) (d : Nat) :
    (w.toNat / d) * (h.toNat / d) < 2 ^ 32 :=
  calc (w.toNat / d) * (h.toNat / d)
      ≤ w.toNat * h.toNat := Nat.mul_le_mul (Nat.div_le_self _ _) (Nat.div_le_self _ _)
    _ < 2 ^ 16 * 2 ^ 16 := Nat.mul_lt_mul'' w.isLt h.isLt
    _ = 2 ^ 32 := by norm_num

/-- DCTCAP, having no region, sets DONE only by its success, which reports the block count. -/
theorem dctcap_units {s t : State} (hexec : exec .dctcap s = .next t)
    (hdone : t.status.done = true) :
    t.results.units.toNat = (s.snap.w.toNat / 8) * (s.snap.h.toNat / 8) := by
  rcases exec_cases hexec with ⟨e, -, rfl⟩ | ⟨-, hbus, -⟩ | ⟨-, rfl⟩
  · contradiction
  · contradiction
  · exact Nat.mod_eq_of_lt (mul_div_lt_word s.snap.w s.snap.h 8)

/-- Settles O44: the report, then for each embedding the order of the checks and R157's
equivalence. -/
theorem capacityIsEnforced : Obligations.CapacityIsEnforced := by
  refine ⟨fun s t hexec _ hdone => dctcap_units hexec hdone, fun i s n hi => ?_⟩
  obtain ⟨hc, hred, hlen⟩ : carrier i s.snap = some n ∧ readsRedundancy i = true ∧
      readsLength i = true := by
    rcases hi with ⟨rfl, rfl⟩ | ⟨rfl, rfl⟩
    · exact ⟨rfl, rfl, rfl⟩
    · exact ⟨congrArg some (coeffs_eq s.snap), rfl, rfl⟩
  refine ⟨fun hover hoption hdim hlength => ?_, firstError_ne_capacity hc hred hlen⟩
  have hfirst := firstError_eq_capacity hoption hdim hlength ((overCapacity_iff hc).2 hover)
  rw [exec_eq_complete, complete_of_error hfirst]
  rfl

end Sys2Proof.Proofs
end

section
/-! PROOFS. No false positive: a header of zeros carries the length 0, and a constant image has a
carrier of zeros in both codecs (44 R223). -/

namespace Sys2Proof.Proofs

open Sys2Proof.Machine Sys2Proof.Claims Sys2Proof.Laws

/-! ### A header of zeros -/

theorem majority_of_zeros {s : List Bool} {r n i : Nat}
    (h : ∀ k, k < n * r → s.getD k false = false) (hi : i < n) : majority s r i = false := by
  have hnone : flippedCopies s r i false = 0 :=
    flippedCopies_of_stream (f := []) (by simpa using h) hi
  simp [majority, chunkOnes_eq_flippedCopies, hnone]

theorem decodedLength_of_zeros {s : List Bool} {r : Nat}
    (h : ∀ k, k < 32 * r → s.getD k false = false) : decodedLength s r = 0 := by
  rw [decodedLength, bitsToNat_map_range]
  refine Finset.sum_eq_zero fun i hi => ?_
  rw [majority_of_zeros h (Finset.mem_range.1 hi), Bool.toNat_false, Nat.zero_mul]

/-- The length 0 is not plausible (41 R155). -/
theorem decodeStream_of_zeros {s : List Bool} {r fl : Nat}
    (h : ∀ k, k < 32 * r → s.getD k false = false) : decodeStream s r fl = none := by
  by_contra hfound
  obtain ⟨-, hplausible, -⟩ := (decodeStream_ne_none_iff s r fl).1 hfound
  rw [decodedLength_of_zeros h, plausible_iff] at hplausible
  omega

/-- An extraction that decodes nothing (60 R247). -/
theorem exec_of_reportDecode_none {i : Instr} {s u : State} {dst : Nat} (hruns : Runs i s)
    (hop : operationOf i s = reportDecode dst none u) :
    ∃ t, exec i s = .next t ∧ t.status.done = true ∧ t.status.detect = false ∧
      t.results.length = 0 ∧ t.results.conf = 0 := by
  refine ⟨_, exec_of_runs hruns, ?_⟩
  rw [hop]
  exact ⟨rfl, rfl, rfl, rfl⟩

/-! ### A constant image -/

/-- The coefficient 0 reads as the bit 0 (42 R172). -/
theorem parityBit_zero (S : Nat) : parityBit 0 S = false := by
  have hq : (2 * 0 + (S : Int)) / (2 * S) = 0 := by
    rcases Nat.eq_zero_or_pos S with rfl | hS
    · rfl
    · exact Int.ediv_eq_zero_of_lt (by omega) (by omega)
  rw [parityBit, hq]
  rfl

/-- Channel 2 of a constant image (40 R126). -/
theorem blue_of_constant {m : Memory} {src w h : Nat} {b : Byte}
    (hb : ∀ k, k < w * h → readByte m (src + 4 * k + 2) = b) (i j : Nat) (hi : i < h)
    (hj : j < w) : blue m src w i j = (b.toNat : Int) * 2 ^ 16 := by
  rw [blue, hb _ (index_lt hi hj)]

/-- Every level of a constant matrix is constant. -/
theorem levelLL_const (c : Int) (h w l : Nat) :
    ∃ c', ∀ i j, levelLL (fun _ _ => c) h w l i j = c' := by
  induction l with
  | zero => exact ⟨c, fun _ _ => rfl⟩
  | succ l ih =>
    obtain ⟨c', hc'⟩ := ih
    exact ⟨_, fun i j => by simp only [levelLL, haarOut, edge, hc']; rfl⟩

/-- HH of a constant matrix is 0 at every level. -/
theorem levelOut_hh_of_constant {A : Nat → Nat → Int} {c : Int} {h w : Nat} (hh : 1 ≤ h)
    (hw : 1 ≤ w) (hA : ∀ i j, i < h → j < w → A i j = c) (l i j : Nat) :
    levelOut A h w 2 l i j = 0 := by
  obtain ⟨c', hc'⟩ := levelLL_const c h w l
  have hsum : c' + -1 * c' + -1 * c' + 1 * c' = 0 := by ring
  rw [levelOut_congr hh hw hA]
  simp only [levelOut, haarOut, edge, hc', bandSigns, hsum]
  exact rnd_zero 1 le_rfl

/-- A position past the carrier reads as 0, so that a carrier of zeros is 0 everywhere. -/
theorem getD_eq_false_of_forall_lt {bits : List Bool}
    (h : ∀ k, k < bits.length → bits.getD k false = false) (k : Nat) :
    bits.getD k false = false := by
  by_cases hk : k < bits.length
  · exact h k hk
  · exact List.getD_eq_default _ _ (Nat.le_of_not_lt hk)

section
variable {m : Memory} {src w h : Nat} {b : Byte}
  (hb : ∀ k, k < w * h → readByte m (src + 4 * k + 2) = b)
include hb

/-- Every block of a constant image carries the bit 0: its X[3][4] is 0 (40 R133). -/
theorem dctBits_of_constant (S k : Nat) :
    (dctBits (loadBytes m src (4 * (w * h))) w h S).val.getD k false = false := by
  refine getD_eq_false_of_forall_lt (fun k hk => ?_) k
  have htile : k < (w / 8) * (h / 8) := by rwa [length_dctBits] at hk
  obtain ⟨hrow, hcolumn⟩ := block_bounds htile
  have hcell : ∀ i j, i < 8 → j < 8 → blockCell m src w k i j = (b.toNat : Int) * 2 ^ 16 :=
    fun i j _ _ => blue_of_constant hb _ _ (by omega) (by omega)
  rw [getD_dctBits S htile, dctBit, forwardBlock_const hcell (by omega) (by omega) (by omega),
    sat32_zero, parityBit_zero]

/-- Every coefficient of HH_Lv of a constant image carries the bit 0. -/
theorem dwtBits_of_constant {lv : Nat} (hlv : 1 ≤ lv) (S k : Nat) :
    (dwtBits (loadBytes m src (4 * (w * h))) w h S lv).val.getD k false = false := by
  refine getD_eq_false_of_forall_lt (fun k hk => ?_) k
  have hband : k < (w / 2 ^ lv) * (h / 2 ^ lv) := by
    rwa [length_dwtBits (length_loadBytes _ _ _) hlv, dwtCoeffs_eq] at hk
  have hpos := Nat.zero_lt_of_lt hband
  have hpixels : ∀ i j, i < aligned h lv → j < aligned w lv →
      blue m src w i j = (b.toNat : Int) * 2 ^ 16 := fun i j hi hj =>
    blue_of_constant hb i j (hi.trans_le (alignedSize_le h lv)) (hj.trans_le (alignedSize_le w lv))
  rw [getD_dwtBits S hlv hband, dwtBit, levelOut_hh_of_constant
    (aligned_pos (Nat.pos_of_mul_pos_left hpos)) (aligned_pos (Nat.pos_of_mul_pos_right hpos))
    hpixels, sat32_zero, parityBit_zero]

end

/-- Settles O46: the header decodes to the length 0, which is not plausible. -/
theorem unmarkedImageNotDetected : Obligations.UnmarkedImageNotDetected := by
  refine ⟨fun s r fl h => decodeStream_of_zeros h, fun i s b hi hruns hb => ?_⟩
  rcases hi with rfl | rfl
  · exact exec_of_reportDecode_none hruns <| congrArg (reportDecode _ · _) <|
      decodeStream_of_zeros fun k _ => dctBits_of_constant hb _ k
  · exact exec_of_reportDecode_none hruns <| congrArg (reportDecode _ · _) <|
      decodeStream_of_zeros fun k _ => dwtBits_of_constant hb (runs_levels hruns rfl).1 _ k

end Sys2Proof.Proofs
end

section
/-! PROOFS. Determinism: a command's effect is a function of the snapshot and of the bytes of its
read regions, scratch bytes apart (44 R222). -/

namespace Sys2Proof.Proofs

open Sys2Proof.Machine Sys2Proof.Claims Sys2Proof.Laws

/-! ### Two runs side by side -/

/-- Two states of runs that began with the memories m and m': they agree in snapshot, flags and
results, and each byte outside the scratch bytes is either equal in both or as it was in each. -/
structure Alike (scratch : Nat → Prop) (m m' : Memory) (u u' : State) : Prop where
  snap : u.snap = u'.snap
  status : u.status = u'.status
  results : u.results = u'.results
  byte : ∀ a, ¬scratch a → readByte u.mem a = readByte u'.mem a ∨
    (readByte u.mem a = readByte m a ∧ readByte u'.mem a = readByte m' a)

section
variable {scratch : Nat → Prop} {m m' : Memory} {u u' : State} (h : Alike scratch m m' u u')
include h

/-! Each update with the same arguments on both sides keeps the two states alike. -/

theorem Alike.putBytes (a : Nat) (bs : List Byte) :
    Alike scratch m m' (putBytes a bs u) (putBytes a bs u') where
  snap := h.snap
  status := h.status
  results := h.results
  byte x hx := by
    rw [putBytes_mem, putBytes_mem, readByte_writeBytes, readByte_writeBytes]
    split
    · exact .inl rfl
    · exact h.byte x hx

theorem Alike.putSamples (a : Nat) (xs : List Int) :
    Alike scratch m m' (putSamples a xs u) (putSamples a xs u') := h.putBytes a _

theorem Alike.noteSat (c : Bool) : Alike scratch m m' (noteSat c u) (noteSat c u') where
  snap := h.snap
  status := by rw [noteSat_status, noteSat_status, h.status]
  results := h.results
  byte := h.byte

theorem Alike.drawScratch
    (hscratch : ∀ a, u.snap.scrAddr ≤ a ∧ a < u.snap.scrAddr + u.snap.scratchBytes → scratch a) :
    Alike scratch m m' (drawScratch u) (drawScratch u') where
  snap := h.snap
  status := h.status
  results := h.results
  byte a ha := by
    have houtside : (writeSamplesAt u.snap.scrAddr u.snap.scratchBytes).contains a = false :=
      decide_eq_false fun hin => ha (hscratch a hin)
    rw [drawScratch_mem, drawScratch_mem, ← h.snap, readByte_drawRegion houtside,
      readByte_drawRegion houtside]
    exact h.byte a ha

theorem Alike.reportCapacity (n r : Nat) :
    Alike scratch m m' (reportCapacity n r u) (reportCapacity n r u') where
  snap := h.snap
  status := h.status
  results := by rw [reportCapacity_results, reportCapacity_results, h.results]
  byte := h.byte

theorem Alike.reportUnits (n : Nat) :
    Alike scratch m m' (reportUnits n u) (reportUnits n u') where
  snap := h.snap
  status := h.status
  results := by rw [reportUnits_results, reportUnits_results, h.results]
  byte := h.byte

theorem Alike.reportEmbedded (n r : Nat) :
    Alike scratch m m' (reportEmbedded n r u) (reportEmbedded n r u') where
  snap := h.snap
  status := h.status
  results := by rw [reportEmbedded_results, reportEmbedded_results, h.results]
  byte := h.byte

theorem Alike.reportDecode (dst : Nat) (d : Option Decoded) :
    Alike scratch m m' (reportDecode dst d u) (reportDecode dst d u') := by
  cases d with
  | none =>
    exact ⟨h.snap, by simp only [Machine.reportDecode, h.status],
      by simp only [Machine.reportDecode, h.results], h.byte⟩
  | some d =>
    exact ⟨h.snap, by simp only [Machine.reportDecode, h.status],
      by simp only [Machine.reportDecode, h.results], (h.putBytes dst d.payload).byte⟩

theorem Alike.psnrReport (n D : Nat) :
    Alike scratch m m' (psnrReport n D u) (psnrReport n D u') := by
  unfold Machine.psnrReport
  split
  · exact ⟨h.snap, by simp only [h.status], by simp only [h.results], h.byte⟩
  · exact ⟨h.snap, by simp only [h.status, h.snap], by simp only [h.results], h.byte⟩

theorem Alike.finish : Alike scratch m m' (finish u) (finish u') where
  snap := h.snap
  status := by rw [finish_status, finish_status, h.status]
  results := h.results
  byte := h.byte

end

/-! ### The loads of a command -/

/-- Each byte of each read region of i reads the same in both states. -/
def SameReads (i : Instr) (s s' : State) : Prop :=
  ∀ r ∈ regions i s.snap, r.access = .read → ∀ a, r.base ≤ a → a < r.base + r.size →
    readByte s.mem a = readByte s'.mem a

section
variable {i : Instr} {s s' : State} (h : SameReads i s s')
include h

theorem SameReads.loadBytes {a n : Nat} (hr : readBytesAt a n ∈ regions i s.snap) :
    loadBytes s'.mem a n = loadBytes s.mem a n :=
  loadBytes_congr fun x hlo hhi => (h _ hr rfl x hlo hhi).symm

theorem SameReads.loadBits {a n : Nat} (hr : readBytesAt a (ceilDiv n 8) ∈ regions i s.snap) :
    loadBits s'.mem a n = loadBits s.mem a n :=
  loadBits_congr fun x hlo hhi => (h _ hr rfl x hlo hhi).symm

theorem SameReads.loadSamples {a n k : Nat} (hr : readSamplesAt a k ∈ regions i s.snap)
    (hk : k = 4 * n) : loadSamples s'.mem a n = loadSamples s.mem a n :=
  loadSamples_congr fun x hlo hhi => (h _ hr rfl x hlo (hhi.trans_eq (by rw [← hk]; rfl))).symm

theorem SameReads.loadMatrix {a rows cols k : Nat} (hr : readSamplesAt a k ∈ regions i s.snap)
    (hk : k = 4 * (rows * cols)) : loadMatrix s'.mem a rows cols = loadMatrix s.mem a rows cols :=
  loadMatrix_congr fun x hlo hhi => (h _ hr rfl x hlo (hhi.trans_eq (by rw [← hk]; rfl))).symm

theorem SameReads.loadLayout {a rows cols lv : Nat}
    (hr : readSamplesAt a (4 * layoutWords rows cols lv) ∈ regions i s.snap) :
    loadLayout s'.mem a rows cols lv = loadLayout s.mem a rows cols lv :=
  loadLayout_congr fun x hlo hhi => (h _ hr rfl x hlo hhi).symm

end

/-! ### The operations -/

theorem imageBytes_eq (p : Snapshot) : p.imageBytes = 4 * (p.height * p.width) :=
  congrArg (4 * ·) (Nat.mul_comm _ _)

/-- The bytes of the scratch region, of the two commands that have one (20 R72). -/
def ScratchByte (i : Instr) (p : Snapshot) (a : Nat) : Prop :=
  (i = .dwtemb ∨ i = .dwtext) ∧ p.scrAddr ≤ a ∧ a < p.scrAddr + p.scratchBytes

section
variable {scratch : Nat → Prop} {i : Instr} {s s' : State}
  (h : Alike scratch s.mem s'.mem s s')
include h

theorem Alike.vectorOperation (hreads : SameReads i s s')
    (hsrc : readSamplesAt s.snap.srcAddr 32 ∈ regions i s.snap)
    (kernel : List Int → Sat (List Int)) :
    Alike scratch s.mem s'.mem (vectorOperation kernel s) (vectorOperation kernel s') := by
  simp only [Machine.vectorOperation, ← h.snap, hreads.loadSamples (n := 8) hsrc rfl]
  exact (h.putSamples _ _).noteSat _

theorem Alike.blockOperation (hreads : SameReads i s s')
    (hsrc : readSamplesAt s.snap.srcAddr 256 ∈ regions i s.snap) (kernel : Mat → Sat Mat) :
    Alike scratch s.mem s'.mem (blockOperation kernel s) (blockOperation kernel s') := by
  simp only [Machine.blockOperation, ← h.snap, hreads.loadMatrix (rows := 8) (cols := 8) hsrc rfl]
  exact (h.putSamples _ _).noteSat _

end

/-- Every operation does the same to both states: it loads the same values and makes the same
updates. -/
theorem Alike.operationOf {i : Instr} {s s' : State}
    (h : Alike (ScratchByte i s.snap) s.mem s'.mem s s') (hreads : SameReads i s s') :
    Alike (ScratchByte i s.snap) s.mem s'.mem (operationOf i s) (operationOf i s') := by
  cases i with
  | nop => exact h
  | dct1d => exact h.vectorOperation hreads (by simp [regions]) _
  | idct1d => exact h.vectorOperation hreads (by simp [regions]) _
  | dct2d => exact h.blockOperation hreads (by simp [regions]) _
  | idct2d => exact h.blockOperation hreads (by simp [regions]) _
  | dwt2d =>
    have hsrc := hreads.loadMatrix (a := s.snap.srcAddr) (by simp [regions]) (imageBytes_eq s.snap)
    simp only [Laws.operationOf, dwtOperation, ← h.snap, hsrc]
    exact (h.putSamples _ _).noteSat _
  | idwt2d =>
    have hsrc : loadLayout s'.mem s.snap.srcAddr s.snap.height s.snap.width s.snap.levels = _ :=
      hreads.loadLayout (by simp [regions, Snapshot.layoutBytes])
    simp only [Laws.operationOf, idwtOperation, ← h.snap, hsrc]
    exact (h.putSamples _ _).noteSat _
  | chext =>
    have hsrc := hreads.loadBytes (a := s.snap.srcAddr) (n := s.snap.imageBytes) (by simp [regions])
    simp only [Laws.operationOf, chextOperation, ← h.snap, hsrc]
    exact h.putSamples _ _
  | chrst =>
    have hsrc := hreads.loadBytes (a := s.snap.srcAddr) (n := s.snap.imageBytes) (by simp [regions])
    have haux := hreads.loadMatrix (a := s.snap.auxAddr) (by simp [regions]) (imageBytes_eq s.snap)
    simp only [Laws.operationOf, chrstOperation, ← h.snap, hsrc, haux]
    exact h.putBytes _ _
  | psnr =>
    have hsrc := hreads.loadMatrix (a := s.snap.srcAddr) (by simp [regions]) (imageBytes_eq s.snap)
    have haux := hreads.loadMatrix (a := s.snap.auxAddr) (by simp [regions]) (imageBytes_eq s.snap)
    simp only [Laws.operationOf, psnrOperation, ← h.snap, hsrc, haux]
    exact h.psnrReport _ _
  | qembed =>
    have hsrc := hreads.loadSamples (a := s.snap.srcAddr) (n := s.snap.length)
      (by simp [regions]) rfl
    have haux := hreads.loadBits (a := s.snap.auxAddr) (n := s.snap.length) (by simp [regions])
    simp only [Laws.operationOf, qembedOperation, ← h.snap, hsrc, haux]
    exact (h.putSamples _ _).noteSat _
  | qextract =>
    have hsrc := hreads.loadSamples (a := s.snap.srcAddr) (n := s.snap.length)
      (by simp [regions]) rfl
    simp only [Laws.operationOf, qextractOperation, ← h.snap, hsrc]
    exact h.putBytes _ _
  | pack =>
    have hsrc := hreads.loadBytes (a := s.snap.srcAddr) (n := s.snap.length) (by simp [regions])
    simp only [Laws.operationOf, packOperation, ← h.snap, hsrc]
    exact ((h.putBytes _ _).reportCapacity _ _).reportEmbedded _ _
  | unpack =>
    have hsrc := hreads.loadBits (a := s.snap.srcAddr) (n := s.snap.bitcap) (by simp [regions])
    simp only [Laws.operationOf, unpackOperation, ← h.snap, hsrc]
    exact ((h.reportUnits _).reportCapacity _ _).reportDecode _ _
  | dctcap =>
    simp only [Laws.operationOf, dctcapOperation, ← h.snap]
    exact (h.reportCapacity _ _).reportUnits _
  | dctemb =>
    have hsrc := hreads.loadBytes (a := s.snap.srcAddr) (n := s.snap.imageBytes) (by simp [regions])
    have haux := hreads.loadBytes (a := s.snap.auxAddr) (n := s.snap.length) (by simp [regions])
    simp only [Laws.operationOf, dctembOperation, ← h.snap, hsrc, haux]
    exact ((((h.putBytes _ _).noteSat _).reportCapacity _ _).reportUnits _).reportEmbedded _ _
  | dctext =>
    have hsrc := hreads.loadBytes (a := s.snap.srcAddr) (n := s.snap.imageBytes) (by simp [regions])
    simp only [Laws.operationOf, dctextOperation, ← h.snap, hsrc]
    exact (((h.noteSat _).reportUnits _).reportCapacity _ _).reportDecode _ _
  | dwtcap =>
    simp only [Laws.operationOf, dwtcapOperation, ← h.snap]
    exact (h.reportCapacity _ _).reportUnits _
  | dwtemb =>
    have hsrc := hreads.loadBytes (a := s.snap.srcAddr) (n := s.snap.imageBytes) (by simp [regions])
    have haux := hreads.loadBytes (a := s.snap.auxAddr) (n := s.snap.length) (by simp [regions])
    simp only [Laws.operationOf, dwtembOperation, ← h.snap, hsrc, haux]
    exact (((((h.putBytes _ _).noteSat _).drawScratch fun _ ha => ⟨.inl rfl, ha⟩).reportCapacity
      _ _).reportUnits _).reportEmbedded _ _
  | dwtext =>
    have hsrc := hreads.loadBytes (a := s.snap.srcAddr) (n := s.snap.imageBytes) (by simp [regions])
    simp only [Laws.operationOf, dwtextOperation, ← h.snap, hsrc]
    exact ((((h.noteSat _).drawScratch fun _ ha => ⟨.inr rfl, ha⟩).reportUnits _).reportCapacity
      _ _).reportDecode _ _

/-! ### The three ways a command ends -/

theorem busErrorCompletion_status (i : Instr) (s : State) :
    (busErrorCompletion i s).status = s.status.failed .busError := by
  rw [busErrorCompletion, drawRegions_eq]; rfl

theorem busErrorCompletion_results (i : Instr) (s : State) :
    (busErrorCompletion i s).results = s.results := by
  rw [busErrorCompletion, drawRegions_eq]; rfl

/-- Whether a command runs depends on the snapshot and the platform. -/
theorem runs_congr {i : Instr} {s s' : State} (hsnap : s.snap = s'.snap)
    (hplatform : s.platform = s'.platform) (h : Runs i s) : Runs i s' := by
  rwa [Runs, ← hsnap, ← hplatform]

/-- Settles O51: both commands end in the same of the three ways, which the snapshot and the
platform decide. -/
theorem effectDependsOnReadRegions : Obligations.EffectDependsOnReadRegions := by
  intro i s s' t t' hsnap hplatform hstatus hresults hreads hexec hexec'
  rw [regionRows_eq_regions] at hreads
  have hstart : Alike (ScratchByte i s.snap) s.mem s'.mem s s' :=
    ⟨hsnap, hstatus, hresults, fun a _ => .inr ⟨rfl, rfl⟩⟩
  rcases exec_cases hexec with ⟨e, hfirst, rfl⟩ | ⟨hfirst, hbus, rfl⟩ | ⟨hruns, rfl⟩
  · rw [exec_eq_complete, complete_of_error (hsnap ▸ hfirst)] at hexec'
    cases hexec'
    exact ⟨congrArg (Status.failed · e) hstatus, hresults, fun _ a _ => .inr ⟨rfl, rfl⟩⟩
  · obtain ⟨_, hfirst', -⟩ | ⟨-, -, rfl⟩ | ⟨⟨-, -, hbus'⟩, -⟩ := exec_cases hexec'
    · rw [hsnap, hfirst'] at hfirst; contradiction
    · rw [busErrorCompletion_status, busErrorCompletion_status, busErrorCompletion_results,
        busErrorCompletion_results, hstatus]
      exact ⟨rfl, hresults, fun hcode => absurd rfl hcode⟩
    · rw [hsnap, hplatform, hbus'] at hbus; contradiction
  · rw [exec_of_runs (runs_congr hsnap hplatform hruns)] at hexec'
    cases hexec'
    have hend := (hstart.operationOf hreads).finish
    exact ⟨hend.status, hend.results, fun _ a ha => hend.byte a fun ⟨hi, hscr⟩ => ha hi hscr⟩

end Sys2Proof.Proofs
end

section
/-! PROOFS. The Haar transform of pixel data is exact, and what a change of one coefficient of HH_Lv
does to the pixels of its square (43 R203). -/

namespace Sys2Proof.Proofs

open Sys2Proof.Machine Sys2Proof.Claims Sys2Proof.Laws

/-! ### Pixel data -/

/-- Every element is the sample of a byte (40 R126). -/
def PixelData (A : Nat → Nat → Int) : Prop :=
  ∀ i j, ∃ b : Int, 0 ≤ b ∧ b ≤ 255 ∧ A i j = b * 2 ^ 16

theorem pixelData_blue (m : Memory) (src w : Nat) : PixelData (blue m src w) := fun i j => by
  have hbyte := (readByte m (src + 4 * (i * w + j) + 2)).isLt
  exact ⟨_, by omega, by omega, rfl⟩

/-- Twice a forward output of even samples is their signed sum: rnd drops nothing. -/
theorem two_mul_haarOut {A : Nat → Nat → Int} {h w : Nat} (heven : ∀ i j, 2 ∣ edge A h w i j)
    (t i j : Nat) : 2 * haarOut A h w t i j = edge A h w (2 * i) (2 * j)
      + (bandSigns t).1 * edge A h w (2 * i) (2 * j + 1)
      + (bandSigns t).2.1 * edge A h w (2 * i + 1) (2 * j)
      + (bandSigns t).2.2 * edge A h w (2 * i + 1) (2 * j + 1) := by
  have ha := heven (2 * i) (2 * j)
  have hb := heven (2 * i) (2 * j + 1)
  have hc := heven (2 * i + 1) (2 * j)
  have hd := heven (2 * i + 1) (2 * j + 1)
  match t with
  | 0 | 1 | 2 | _ + 3 => simp only [haarOut, bandSigns, rnd_one]; omega

/-- The inverse formula on outputs changed by e in LL and by f in HH. -/
theorem ihaarOut_add {A : Nat → Nat → Int} {h w i j : Nat} (hi : i < h) (hj : j < w)
    (heven : ∀ i j, 2 ∣ edge A h w i j) (e f : Int) :
    ihaarOut (haarOut A h w 3 (i / 2) (j / 2) + e) (haarOut A h w 0 (i / 2) (j / 2))
      (haarOut A h w 1 (i / 2) (j / 2)) (haarOut A h w 2 (i / 2) (j / 2) + f) i j =
        A i j + rnd (e + sign i * sign j * f) 1 := by
  have hcell := edge_square (A := A) hi hj
  have hLL := two_mul_haarOut heven 3 (i / 2) (j / 2)
  have hLH := two_mul_haarOut heven 0 (i / 2) (j / 2)
  have hHL := two_mul_haarOut heven 1 (i / 2) (j / 2)
  have hHH := two_mul_haarOut heven 2 (i / 2) (j / 2)
  simp only [ihaarOut, bandSigns, rnd_one] at *
  rcases Nat.mod_two_eq_zero_or_one i with hi2 | hi2 <;>
    rcases Nat.mod_two_eq_zero_or_one j with hj2 | hj2 <;>
    simp only [sign, hi2, hj2, add_zero, one_ne_zero, if_true, if_false] at * <;> omega

section
variable {A : Nat → Nat → Int} (hA : PixelData A) {h w : Nat}
include hA

/-- LL_l of pixel data is at most 255·2^l, and a multiple of 2^-l, in pixel units (43 R204). -/
theorem levelLL_of_pixels {l : Nat} (hl : l ≤ 7) (i j : Nat) :
    0 ≤ levelLL A h w l i j ∧ levelLL A h w l i j ≤ 255 * 2 ^ 16 * 2 ^ l ∧
      2 ^ (16 - l) ∣ levelLL A h w l i j := by
  induction l generalizing i j with
  | zero =>
    obtain ⟨b, hb, hb', hcell⟩ := hA i j
    simp only [levelLL, hcell]
    exact ⟨by omega, by omega, Dvd.intro_left b rfl⟩
  | succ l ih =>
    have hprev := fun i j => ih (by omega) i j
    have hdvd : 2 ^ (16 - (l + 1)) ∣
        haarOut (levelLL A h w l) (levelSize h l) (levelSize w l) 3 i j :=
      pow_dvd_haarOut (fun i j => by
        rw [show 16 - (l + 1) + 1 = 16 - l by omega]
        exact (hprev _ _).2.2) i j
    have hpow : (2 : Int) ^ (l + 1) ≤ 2 ^ 7 := pow_le_pow_right₀ (by norm_num) hl
    have hbound : 0 ≤ haarOut (levelLL A h w l) (levelSize h l) (levelSize w l) 3 i j ∧
        haarOut (levelLL A h w l) (levelSize h l) (levelSize w l) 3 i j ≤
          255 * 2 ^ 16 * 2 ^ (l + 1) := by
      obtain ⟨ha, ha', -⟩ := hprev (min (2 * i) (levelSize h l - 1))
        (min (2 * j) (levelSize w l - 1))
      obtain ⟨hb, hb', -⟩ := hprev (min (2 * i) (levelSize h l - 1))
        (min (2 * j + 1) (levelSize w l - 1))
      obtain ⟨hc, hc', -⟩ := hprev (min (2 * i + 1) (levelSize h l - 1))
        (min (2 * j) (levelSize w l - 1))
      obtain ⟨hd, hd', -⟩ := hprev (min (2 * i + 1) (levelSize h l - 1))
        (min (2 * j + 1) (levelSize w l - 1))
      rw [pow_succ]
      simp only [haarOut, bandSigns, edge, rnd_one]
      omega
    have hsat : levelLL A h w (l + 1) i j =
        haarOut (levelLL A h w l) (levelSize h l) (levelSize w l) 3 i j :=
      sat32_of_bounds (by omega)
    rw [hsat]
    exact ⟨hbound.1, hbound.2, hdvd⟩

theorem even_edge_levelLL {l : Nat} (hl : l ≤ 7) (i j : Nat) :
    2 ∣ edge (levelLL A h w l) (levelSize h l) (levelSize w l) i j :=
  (dvd_pow_self 2 (by omega : 16 - l ≠ 0)).trans (levelLL_of_pixels hA hl _ _).2.2

/-- Twice an output of a level is the signed sum of its square. -/
theorem two_mul_levelOut {l : Nat} (hl : l ≤ 7) (t i j : Nat) : 2 * levelOut A h w t l i j =
    edge (levelLL A h w l) (levelSize h l) (levelSize w l) (2 * i) (2 * j)
      + (bandSigns t).1 *
        edge (levelLL A h w l) (levelSize h l) (levelSize w l) (2 * i) (2 * j + 1)
      + (bandSigns t).2.1 *
        edge (levelLL A h w l) (levelSize h l) (levelSize w l) (2 * i + 1) (2 * j)
      + (bandSigns t).2.2 *
        edge (levelLL A h w l) (levelSize h l) (levelSize w l) (2 * i + 1) (2 * j + 1) :=
  two_mul_haarOut (even_edge_levelLL hA hl) t i j

/-- A detail coefficient is at most as large as the samples it comes from. -/
theorem abs_levelOut_le {l t : Nat} (hl : l < 7) (ht : t < 3) (i j : Nat) :
    |levelOut A h w t l i j| ≤ 255 * 2 ^ 22 := by
  have hpow : (2 : Int) ^ l ≤ 2 ^ 6 := pow_le_pow_right₀ (by norm_num) (by omega)
  have hedge : ∀ i j, 0 ≤ edge (levelLL A h w l) (levelSize h l) (levelSize w l) i j ∧
      edge (levelLL A h w l) (levelSize h l) (levelSize w l) i j ≤ 255 * 2 ^ 22 := fun i j => by
    obtain ⟨hlo, hhi, -⟩ := levelLL_of_pixels hA (h := h) (w := w) (by omega : l ≤ 7)
      (min i (levelSize h l - 1)) (min j (levelSize w l - 1))
    unfold edge
    omega
  have hsum := two_mul_levelOut hA (h := h) (w := w) hl.le t i j
  have ha := hedge (2 * i) (2 * j)
  have hb := hedge (2 * i) (2 * j + 1)
  have hc := hedge (2 * i + 1) (2 * j)
  have hd := hedge (2 * i + 1) (2 * j + 1)
  rw [abs_le]
  match t, ht with
  | 0, _ | 1, _ | 2, _ => simp only [bandSigns] at hsum; omega

theorem sat32_levelOut {l t : Nat} (hl : l < 7) (ht : t < 3) (i j : Nat) :
    sat32 (levelOut A h w t l i j) = levelOut A h w t l i j :=
  sat32_of_abs_le ((abs_levelOut_le hA hl ht i j).trans (by norm_num))

/-- No LL of pixel data clips. -/
theorem levelLL_succ_eq_levelOut {l : Nat} (hl : l < 7) (i j : Nat) :
    levelLL A h w (l + 1) i j = levelOut A h w 3 l i j := by
  have hpow : (2 : Int) ^ (l + 1) ≤ 2 ^ 7 := pow_le_pow_right₀ (by norm_num) hl
  have hbound := levelLL_of_pixels hA (h := h) (w := w) (by omega : l + 1 ≤ 7) i j
  have hsat : levelLL A h w (l + 1) i j = sat32 (levelOut A h w 3 l i j) := rfl
  have hword : levelOut A h w 3 l i j ≤ 2147483647 ∧ -2147483648 ≤ levelOut A h w 3 l i j := by
    rw [hsat] at hbound
    unfold sat32 at hbound
    split at hbound
    · omega
    · split at hbound <;> omega
  rw [hsat, sat32_of_bounds ⟨hword.2, hword.1⟩]

/-- A small change of an inverse step does not clip. -/
theorem sat32_levelLL_add {l : Nat} (hl : l < 7) {e : Int} (he : |e| ≤ 2 ^ 30) (i j : Nat) :
    sat32 (levelLL A h w l i j + e) = levelLL A h w l i j + e := by
  have hpow : (2 : Int) ^ l ≤ 2 ^ 6 := pow_le_pow_right₀ (by norm_num) (by omega)
  have hbound := levelLL_of_pixels hA (h := h) (w := w) (by omega : l ≤ 7) i j
  rw [abs_le] at he
  exact sat32_of_bounds (by omega)

end

/-! ### The inverse transform of changed details -/

/-- The details of A with HH of level lv changed by δ. -/
structure ChangedDetails (A : Nat → Nat → Int) (h w lv : Nat) (δ : Nat → Nat → Int)
    (band : Nat → Nat → Nat → Nat → Int) : Prop where
  deepest : ∀ i j, band 2 (lv - 1) i j = levelOut A h w 2 (lv - 1) i j + δ i j
  other : ∀ t l i j, t < 3 → l < lv → ¬(t = 2 ∧ l + 1 = lv) → band t l i j = levelOut A h w t l i j
  bound : ∀ i j, |δ i j| ≤ 2147483647

/-- The sign with which HH enters the pixel (i, j) of its square, for lv = n + 1 levels
(40 R120). -/
def squareSign (n i j : Nat) : Int := sign (i / 2 ^ n) * sign (j / 2 ^ n)

theorem sign_eq (k : Nat) : sign k = 1 ∨ sign k = -1 := by
  unfold sign; split <;> simp

theorem squareSign_eq (n i j : Nat) : squareSign n i j = 1 ∨ squareSign n i j = -1 := by
  unfold squareSign
  rcases sign_eq (i / 2 ^ n) with hi | hi <;> rcases sign_eq (j / 2 ^ n) with hj | hj <;>
    simp [hi, hj]

theorem squareSign_half (n i j : Nat) :
    squareSign n (i / 2) (j / 2) = squareSign (n + 1) i j := by
  simp only [squareSign, Nat.div_div_eq_div_mul, pow_succ']

/-- e is g over 2^n, rounded upward: what n inverse steps make of a change g. -/
def RoundsUp (n : Nat) (g e : Int) : Prop := 0 ≤ 2 ^ n * e - g ∧ 2 ^ n * e - g < 2 ^ n

/-- One more inverse step halves the change and rounds it upward. -/
theorem RoundsUp.rnd_one {n : Nat} {g e : Int} (h : RoundsUp n g e) :
    RoundsUp (n + 1) g (rnd e 1) := by
  obtain ⟨hlo, hhi⟩ := h
  have hhalf : 2 * rnd e 1 = e ∨ 2 * rnd e 1 = e + 1 := by rw [Laws.rnd_one]; omega
  have hstep : (2 : Int) ^ (n + 1) * rnd e 1 = 2 ^ n * (2 * rnd e 1) := by ring
  have hpow : (0 : Int) < 2 ^ n := by positivity
  rw [RoundsUp, hstep, pow_succ]
  rcases hhalf with he | he <;> rw [he] <;> constructor <;> linarith

theorem abs_rnd_one_le {x : Int} {n : Nat} (h : |x| ≤ 2 ^ (n + 1)) : |rnd x 1| ≤ 2 ^ n := by
  rw [rnd_one, abs_le] at *
  rw [pow_succ] at h
  omega

section
variable {A : Nat → Nat → Int} (hA : PixelData A) {h w lv : Nat} {δ : Nat → Nat → Int}
  {band : Nat → Nat → Nat → Nat → Int} (hlv : lv ≤ 7) (hband : ChangedDetails A h w lv δ band)
include hA hlv hband

/-- One inverse step from level l + 1 to level l, with the changes e of LL and f of HH. -/
theorem inverseOut_add {d l i j : Nat} (hd : d + 1 + l = lv) {e f : Int}
    (hi : i < levelSize h l) (hj : j < levelSize w l)
    (hLL : inverseLL (levelLL A h w lv) band lv d (i / 2) (j / 2) =
      levelLL A h w (l + 1) (i / 2) (j / 2) + e)
    (hHH : band 2 l (i / 2) (j / 2) = levelOut A h w 2 l (i / 2) (j / 2) + f) :
    inverseOut (levelLL A h w lv) band lv d i j =
      levelLL A h w l i j + rnd (e + sign i * sign j * f) 1 := by
  have hlevel : lv - 1 - d = l := by omega
  rw [inverseOut, hlevel, hLL, hHH, hband.other 0 l _ _ (by omega) (by omega) (by omega),
    hband.other 1 l _ _ (by omega) (by omega) (by omega),
    levelLL_succ_eq_levelOut hA (by omega)]
  exact ihaarOut_add hi hj (even_edge_levelLL hA (by omega)) e f

/-- After n + 1 inverse steps, LL differs from that of A by the change of HH over 2^(n+1), with its
sign and rounded upward at each step. -/
theorem inverseLL_add {n i j : Nat} (hn : n < lv) (hi : i < levelSize h (lv - (n + 1)))
    (hj : j < levelSize w (lv - (n + 1))) :
    ∃ e, inverseLL (levelLL A h w lv) band lv (n + 1) i j = levelLL A h w (lv - (n + 1)) i j + e ∧
      |e| ≤ 2 ^ 30 ∧
      RoundsUp (n + 1) (squareSign n i j * δ (i / 2 ^ (n + 1)) (j / 2 ^ (n + 1))) e := by
  induction n generalizing i j with
  | zero =>
    set g := sign i * sign j * δ (i / 2) (j / 2)
    have hδ := hband.bound (i / 2) (j / 2)
    have hg : |g| ≤ 2 ^ 31 := by
      have hsign : |sign i * sign j| = 1 := by
        rcases sign_eq i with hs | hs <;> rcases sign_eq j with hs' | hs' <;> rw [hs, hs'] <;> rfl
      rw [abs_mul, hsign]
      omega
    have hrounds : RoundsUp 1 g (rnd g 1) := by
      rw [RoundsUp, rnd_one]; omega
    have he := abs_rnd_one_le hg
    refine ⟨rnd g 1, ?_, he, by simpa [squareSign] using hrounds⟩
    have hout := inverseOut_add hA hlv hband (d := 0) (l := lv - (0 + 1)) (e := 0) (by omega) hi hj
      (by rw [add_zero, show lv - (0 + 1) + 1 = lv by omega]; rfl) (hband.deepest _ _)
    rw [inverseLL_succ, hout, zero_add (sign i * sign j * _)]
    exact sat32_levelLL_add hA (l := lv - 1) (by omega) he i j
  | succ n ih =>
    have hlevel : lv - (n + 1 + 1) + 1 = lv - (n + 1) := by omega
    have hi2 := div_two_lt_levelSize hi
    have hj2 := div_two_lt_levelSize hj
    rw [hlevel] at hi2 hj2
    obtain ⟨e, hLL, he, hrounds⟩ := ih (by omega) hi2 hj2
    have he' : |rnd e 1| ≤ 2 ^ 30 := by
      rw [rnd_one]; rw [abs_le] at *; omega
    have hhalf : ∀ x, x / 2 / 2 ^ (n + 1) = x / 2 ^ (n + 1 + 1) := fun x => by
      rw [Nat.div_div_eq_div_mul, ← pow_succ']
    rw [squareSign_half, hhalf, hhalf] at hrounds
    refine ⟨rnd e 1, ?_, he', hrounds.rnd_one⟩
    have hout := inverseOut_add hA hlv hband (d := n + 1) (l := lv - (n + 1 + 1)) (e := e) (f := 0)
      (by omega) hi hj (by rw [hlevel, hLL])
      (by rw [add_zero, hband.other 2 _ _ _ (by omega) (by omega) (by omega)])
    rw [inverseLL_succ, hout, mul_zero, add_zero, sat32_levelLL_add hA (by omega) he']

end

end Sys2Proof.Proofs
end

section
/-! PROOFS. What DWTEMB does to the pixels (43 R203), and the end of a successful extraction (44
R224). -/

namespace Sys2Proof.Proofs

open Sys2Proof.Machine Sys2Proof.Claims Sys2Proof.Laws

/-! ### The change of a coefficient -/

/-- Coefficient (i, j) of HH_Lv of channel 2, in index form and before saturation (43 R201). -/
def carrierOut (m : Memory) (src w h lv i j : Nat) : Int :=
  levelOut (blue m src w) (aligned h lv) (aligned w lv) 2 (lv - 1) i j

/-- What an embedding adds to coefficient (i, j) of HH_Lv (43 R203). -/
def markShift (m : Memory) (src aux w h len r lv : Nat) (S : Int) (i j : Nat) : Int :=
  dwtMarkedBand m src aux w h len r lv S 2 (lv - 1) i j - carrierOut m src w h lv i j

/-- Embedding in a coefficient of pixel data does not saturate. -/
theorem sat32_nudged_of_pixels {C S : Int} (t : Bool) (hS : 1 ≤ S) (hS' : S ≤ 0x7FFFFFFF)
    (hC : |C| ≤ 255 * 2 ^ 22) : sat32 (nudged C t S) = nudged C t S := by
  have hle := abs_qembedRaw_le (C := C) t hS
  rw [← qembedRaw_eq_nudged]
  exact sat32_of_abs_le (hle.trans (max_le (by omega) (by omega)))

section
variable {m : Memory} {src aux w h len r lv : Nat} {S : Int} (hlv : 1 ≤ lv) (hlv' : lv ≤ 7)
include hlv hlv'

theorem abs_carrierOut_le (i j : Nat) : |carrierOut m src w h lv i j| ≤ 255 * 2 ^ 22 :=
  abs_levelOut_le (pixelData_blue m src w) (by omega) (by omega) i j

theorem sat32_carrierOut (i j : Nat) :
    sat32 (carrierOut m src w h lv i j) = carrierOut m src w h lv i j :=
  sat32_levelOut (pixelData_blue m src w) (by omega) (by omega) i j

theorem markShift_of_le {i j : Nat} (hk : streamBits len r ≤ i * (w / 2 ^ lv) + j) :
    markShift m src aux w h len r lv S i j = 0 := by
  have hrest : ¬(i * (w / 2 ^ lv) + j < (32 + 8 * len) * r) := Nat.not_lt.2 hk
  rw [markShift, dwtMarkedBand, if_neg fun hmarked => hrest hmarked.2.2]
  exact sub_eq_zero.2 (sat32_carrierOut hlv hlv' i j)

variable (hS : 1 ≤ S) (hS' : S ≤ 0x7FFFFFFF)
include hS hS'

/-- A coefficient that carries a bit moves to the multiple of that bit (43 R203). -/
theorem carrierOut_add_markShift {i j : Nat} (hk : i * (w / 2 ^ lv) + j < streamBits len r) :
    carrierOut m src w h lv i j + markShift m src aux w h len r lv S i j =
      qembedRaw (carrierOut m src w h lv i j)
        (frameBit m aux len ((i * (w / 2 ^ lv) + j) / r)) S := by
  have hmarked : i * (w / 2 ^ lv) + j < (32 + 8 * len) * r := hk
  rw [markShift, add_sub_cancel, dwtMarkedBand, if_pos ⟨rfl, by omega, hmarked⟩,
    qembedRaw_eq_nudged]
  change sat32 (nudged (sat32 (carrierOut m src w h lv i j)) _ S) = _
  rw [sat32_carrierOut hlv hlv', sat32_nudged_of_pixels _ hS hS' (abs_carrierOut_le hlv hlv' i j)]

/-- An embedding moves a coefficient by at most S (42 R175). -/
theorem abs_markShift_le (i j : Nat) : |markShift m src aux w h len r lv S i j| ≤ S := by
  by_cases hk : i * (w / 2 ^ lv) + j < streamBits len r
  · have hmove := abs_qembedRaw_sub_le (C := carrierOut m src w h lv i j)
      (frameBit m aux len ((i * (w / 2 ^ lv) + j) / r)) hS
    rwa [← carrierOut_add_markShift hlv hlv' hS hS' hk, add_sub_cancel_left] at hmove
  · rw [markShift_of_le hlv hlv' (Nat.le_of_not_lt hk), abs_zero]
    omega

theorem changedDetails_dwtMarkedBand :
    ChangedDetails (blue m src w) (aligned h lv) (aligned w lv) lv
      (markShift m src aux w h len r lv S) (dwtMarkedBand m src aux w h len r lv S) where
  deepest i j := (add_sub_cancel (carrierOut m src w h lv i j) _).symm
  other t l i j ht hl hother := by
    rw [dwtMarkedBand, if_neg fun hmarked => hother ⟨hmarked.1, hmarked.2.1⟩]
    exact sat32_levelOut (pixelData_blue m src w) (by omega) ht i j
  bound i j := (abs_markShift_le hlv hlv' hS hS' i j).trans hS'

/-- The pixels of a square move by the change of its coefficient over 2^Lv, with the sign of HH and
rounded upward (43 R203). -/
theorem dwtMarked_eq_blue_add {i j : Nat} (hi : i < aligned h lv) (hj : j < aligned w lv) :
    ∃ e, dwtMarked m src aux w h len r lv S i j = blue m src w i j + e ∧
      RoundsUp lv (squareSign (lv - 1) i j *
        markShift m src aux w h len r lv S (i / 2 ^ lv) (j / 2 ^ lv)) e := by
  have hlast : lv - 1 + 1 = lv := Nat.sub_add_cancel hlv
  have hpixel := inverseLL_add (pixelData_blue m src w) hlv'
    (changedDetails_dwtMarkedBand (h := h) (aux := aux) (len := len) (r := r) hlv hlv' hS hS')
    (n := lv - 1) (i := i) (j := j) (by omega)
  rw [hlast, Nat.sub_self] at hpixel
  obtain ⟨e, he, -, hrounds⟩ := hpixel hi hj
  exact ⟨e, by rw [dwtMarked, if_pos ⟨hi, hj⟩, he]; rfl, hrounds⟩

end

/-! ### Restored bytes -/

/-- Rounding adds at most half a unit, and clamping moves a value toward the bytes (44 R225). -/
theorem abs_restoredByte_sub_le {M b n : Int} (hb : 0 ≤ b) (hb' : b ≤ 255)
    (hM : |M - b * 2 ^ 16| < n * 2 ^ 16 + 2 ^ 15) : |restoredByte M - b| ≤ n := by
  rw [abs_lt] at hM
  rw [abs_le, restoredByte, rnd_sixteen]
  omega

/-- Restoring a channel sample gives its byte back (40 R135). -/
theorem restoredByte_blue (m : Memory) (src w i j : Nat) :
    restoredByte (blue m src w i j) = ((readByte m (src + 4 * (i * w + j) + 2)).toNat : Int) := by
  have hbyte := (readByte m (src + 4 * (i * w + j) + 2)).isLt
  rw [restoredByte, blue, rnd_sixteen]
  omega

/-- The channel of an image after an embedding without a clamp and noise of amplitude a: half a unit
of rounding, and the noise, away from the marked matrix (44 R226). -/
theorem abs_blue_sub_marked_le {m : Memory} {t u : State} {src dst w h a : Nat}
    {M : Nat → Nat → Int} (hrestored : Restored m t.mem src dst w h M) (hclamp : Unclamped w h M)
    (hnoise : BlueWithin t u dst w h a) {i j : Nat} (hi : i < h) (hj : j < w) :
    |blue u.mem u.snap.src.toNat w i j - M i j| ≤ 2 ^ 15 * (2 * a + 1) := by
  obtain ⟨hbyte, -⟩ := hrestored i j hi hj
  have hrange := hclamp i j hi hj
  have hnear := hnoise i j hi hj
  rw [restoredByte, rnd_sixteen] at hbyte
  rw [hbyte] at hnear
  rw [abs_le] at *
  unfold blue
  omega

/-! ### The end of an extraction that reads every bit back -/

/-- An extraction whose carrier begins with the stream of the payload at AUX of s recovers it with
confidence 1.0 (41 R161, 44 R224). -/
theorem recovers_of_stream {i : Instr} {s u x : State} {bits : List Bool} (hruns : Runs i u)
    (hop : operationOf i u = reportDecode u.snap.dst.toNat
      (decodeStream bits s.snap.r.toNat u.snap.fl.toNat) x)
    (hr : 1 ≤ s.snap.r.toNat) (hlen : 1 ≤ s.snap.len.toNat) (hfl : u.snap.fl.toNat ≤ 0x10000)
    (hfits : streamBits s.snap.len.toNat s.snap.r.toNat ≤ bits.length)
    (hbits : ∀ k, k < streamBits s.snap.len.toNat s.snap.r.toNat → bits.getD k false =
      frameBit s.mem s.snap.aux.toNat s.snap.len.toNat (k / s.snap.r.toNat)) :
    ∃ v, exec i u = .next v ∧ Recovers s u v := by
  set p := loadBytes s.mem s.snap.aux.toNat s.snap.len.toNat
  have hp : p.length = s.snap.len.toNat := length_loadBytes _ _ _
  have hdecode : decodeStream bits s.snap.r.toNat u.snap.fl.toNat =
      some { payload := p, conf := 0x10000 } :=
    decodeStream_of_stream hr (by rwa [hp]) (by rw [hp]; exact s.snap.len.isLt) (by rwa [hp])
      (fun k hk => by
        rw [hp] at hk
        rw [hbits k hk, getD_frame_loadBytes (div_lt_frameBits hk)]) hfl
  refine ⟨_, exec_of_runs hruns, ?_⟩
  rw [hop, hdecode]
  refine ⟨rfl, rfl, rfl, ?_, fun k hk => ?_⟩
  · change BitVec.ofNat 32 p.length = _
    rw [hp, BitVec.ofNat_toNat, BitVec.setWidth_eq]
  · rw [finish_mem, reportDecode_some_mem, readByte_writeBytes_inside (by rwa [hp]),
      ← List.getD_eq_getElem _ 0, getD_loadBytes hk]

end Sys2Proof.Proofs
end

section
/-! PROOFS. DWTEXT of a marked image with noise (44 R224, R226): a coefficient of HH_Lv is half the
signed sum of the four parts of its square, whose signs undo those of the embedding. -/

namespace Sys2Proof.Proofs

open Sys2Proof.Machine Sys2Proof.Claims Sys2Proof.Laws

theorem levelSize_aligned_succ (x : Nat) {lv l : Nat} (hl : l < lv) :
    levelSize (aligned x lv) l = 2 * levelSize (aligned x lv) (l + 1) := by
  rw [levelSize_aligned x hl.le, levelSize_aligned x hl, show lv - l = lv - (l + 1) + 1 by omega,
    pow_succ]
  ring

/-- On aligned sides no output of a level replicates an edge (43 R200). -/
theorem two_mul_levelOut_aligned {A : Nat → Nat → Int} (hA : PixelData A) {h w lv l i j : Nat}
    (hlv : lv ≤ 7) (hl : l < lv) (hi : i < levelSize (aligned h lv) (l + 1))
    (hj : j < levelSize (aligned w lv) (l + 1)) (t : Nat) :
    2 * levelOut A (aligned h lv) (aligned w lv) t l i j =
      levelLL A (aligned h lv) (aligned w lv) l (2 * i) (2 * j)
        + (bandSigns t).1 * levelLL A (aligned h lv) (aligned w lv) l (2 * i) (2 * j + 1)
        + (bandSigns t).2.1 * levelLL A (aligned h lv) (aligned w lv) l (2 * i + 1) (2 * j)
        + (bandSigns t).2.2 *
          levelLL A (aligned h lv) (aligned w lv) l (2 * i + 1) (2 * j + 1) := by
  have hinside : ∀ i' j', i' ≤ 2 * i + 1 → j' ≤ 2 * j + 1 →
      edge (levelLL A (aligned h lv) (aligned w lv) l) (levelSize (aligned h lv) l)
        (levelSize (aligned w lv) l) i' j' = levelLL A (aligned h lv) (aligned w lv) l i' j' :=
    fun i' j' hi' hj' => by
      rw [edge, levelSize_aligned_succ h hl, levelSize_aligned_succ w hl, min_eq_left (by omega),
        min_eq_left (by omega)]
  rw [two_mul_levelOut hA (by omega), hinside _ _ (by omega) (by omega),
    hinside _ _ (by omega) (by omega), hinside _ _ (by omega) (by omega),
    hinside _ _ (by omega) (by omega)]

section
variable {A A' : Nat → Nat → Int} (hA : PixelData A) (hA' : PixelData A') {h w lv : Nat}
  (hlv : lv ≤ 7)
include hA hA' hlv

/-- Bounds on the change of the pixels of a square bound the change of its LL, times 2^l. -/
theorem levelLL_sub_bounds {l a b : Nat} {c lo hi : Int} (hl : l ≤ lv)
    (ha : a < levelSize (aligned h lv) l) (hb : b < levelSize (aligned w lv) l)
    (hpixels : ∀ i j, i / 2 ^ l = a → j / 2 ^ l = b →
      lo ≤ c * (A' i j - A i j) ∧ c * (A' i j - A i j) ≤ hi) :
    lo * 2 ^ l ≤ c * (levelLL A' (aligned h lv) (aligned w lv) l a b -
        levelLL A (aligned h lv) (aligned w lv) l a b) ∧
      c * (levelLL A' (aligned h lv) (aligned w lv) l a b -
        levelLL A (aligned h lv) (aligned w lv) l a b) ≤ hi * 2 ^ l := by
  induction l generalizing a b with
  | zero =>
    obtain ⟨hlo, hhi⟩ := hpixels a b (by simp) (by simp)
    simpa [levelLL] using And.intro hlo hhi
  | succ l ih =>
    have hpart : ∀ x y, x < 2 → y < 2 → _ := fun x y hx hy =>
      ih (a := 2 * a + x) (b := 2 * b + y) (by omega)
        (by rw [levelSize_aligned_succ h (by omega)]; omega)
        (by rw [levelSize_aligned_succ w (by omega)]; omega)
        fun i j hi hj => hpixels i j
          (by rw [pow_succ, ← Nat.div_div_eq_div_mul, hi]; omega)
          (by rw [pow_succ, ← Nat.div_div_eq_div_mul, hj]; omega)
    obtain ⟨h00, h00'⟩ := hpart 0 0 (by omega) (by omega)
    obtain ⟨h01, h01'⟩ := hpart 0 1 (by omega) (by omega)
    obtain ⟨h10, h10'⟩ := hpart 1 0 (by omega) (by omega)
    obtain ⟨h11, h11'⟩ := hpart 1 1 (by omega) (by omega)
    have hsum := two_mul_levelOut_aligned hA hlv (by omega) ha hb 3
    have hsum' := two_mul_levelOut_aligned hA' hlv (by omega) ha hb 3
    rw [← levelLL_succ_eq_levelOut hA (by omega)] at hsum
    rw [← levelLL_succ_eq_levelOut hA' (by omega)] at hsum'
    simp only [bandSigns, one_mul, add_zero] at *
    have hdouble := congrArg₂ (fun p q => c * (p - q)) hsum' hsum
    rw [pow_succ]
    constructor <;> linarith

/-- Pixels that move by the shift g of a coefficient over 2^Lv, with the sign of HH, up to the
rounding of the embedding and R over 2^Lv, move the coefficient by g up to R and half of 2^Lv. -/
theorem abs_carrier_sub_le {n a b : Nat} (hn : n + 1 = lv) {g R : Int} (ha : a < h / 2 ^ lv)
    (hb : b < w / 2 ^ lv)
    (hpixels : ∀ i j, i / 2 ^ lv = a → j / 2 ^ lv = b →
      -R ≤ 2 ^ lv * (A' i j - A i j) - squareSign n i j * g ∧
        2 ^ lv * (A' i j - A i j) - squareSign n i j * g ≤ 2 ^ lv + R) :
    |levelOut A' (aligned h lv) (aligned w lv) 2 n a b -
      (levelOut A (aligned h lv) (aligned w lv) 2 n a b + g)| ≤ R + 2 ^ n := by
  have hsize : ∀ x, levelSize (aligned x lv) (n + 1) = x / 2 ^ lv := fun x => by
    rw [hn, levelSize_aligned_self]
  have hpow : (0 : Int) < 2 ^ n := by positivity
  have hdouble : (2 : Int) ^ lv = 2 * 2 ^ n := by rw [← hn, pow_succ]; ring
  have hpart : ∀ x y, x < 2 → y < 2 →
      sign x * sign y * g - R ≤
        2 * (levelLL A' (aligned h lv) (aligned w lv) n (2 * a + x) (2 * b + y) -
          levelLL A (aligned h lv) (aligned w lv) n (2 * a + x) (2 * b + y)) ∧
      2 * (levelLL A' (aligned h lv) (aligned w lv) n (2 * a + x) (2 * b + y) -
          levelLL A (aligned h lv) (aligned w lv) n (2 * a + x) (2 * b + y)) ≤
        sign x * sign y * g + 2 ^ lv + R := fun x y hx hy => by
    have hsign : ∀ c k, sign (2 * c + k) = sign k := fun c k => by
      rw [sign, sign, Nat.mul_add_mod]
    obtain ⟨hlo, hhi⟩ := levelLL_sub_bounds hA hA' hlv (l := n) (a := 2 * a + x)
      (b := 2 * b + y) (c := 2 ^ lv) (lo := sign x * sign y * g - R)
      (hi := sign x * sign y * g + 2 ^ lv + R) (by omega)
      (by rw [levelSize_aligned_succ h (by omega), hsize]; omega)
      (by rw [levelSize_aligned_succ w (by omega), hsize]; omega)
      fun i j hi hj => by
        obtain ⟨hlo, hhi⟩ := hpixels i j
          (by rw [← hn, pow_succ, ← Nat.div_div_eq_div_mul, hi]; omega)
          (by rw [← hn, pow_succ, ← Nat.div_div_eq_div_mul, hj]; omega)
        rw [squareSign, hi, hj, hsign, hsign] at hlo hhi
        constructor <;> linarith
    rw [show ∀ z : Int, (2 : Int) ^ lv * z = 2 * z * 2 ^ n from fun z => by rw [hdouble]; ring]
      at hlo hhi
    exact ⟨le_of_mul_le_mul_right hlo hpow, le_of_mul_le_mul_right hhi hpow⟩
  obtain ⟨h00, h00'⟩ := hpart 0 0 (by omega) (by omega)
  obtain ⟨h01, h01'⟩ := hpart 0 1 (by omega) (by omega)
  obtain ⟨h10, h10'⟩ := hpart 1 0 (by omega) (by omega)
  obtain ⟨h11, h11'⟩ := hpart 1 1 (by omega) (by omega)
  have hsum := two_mul_levelOut_aligned hA hlv (by omega : n < lv) (by rwa [hsize])
    (by rwa [hsize]) 2 (i := a) (j := b) (h := h) (w := w)
  have hsum' := two_mul_levelOut_aligned hA' hlv (by omega : n < lv) (by rwa [hsize])
    (by rwa [hsize]) 2 (i := a) (j := b) (h := h) (w := w)
  have hsign0 : sign 0 = 1 := rfl
  have hsign1 : sign 1 = -1 := rfl
  simp only [bandSigns, add_zero, hsign0, hsign1] at *
  rw [abs_le]
  constructor <;> linarith

end

end Sys2Proof.Proofs
end

section
/-! PROOFS. The bits DWTEXT reads from a marked image with noise, and the recovery of the payload
(44 R224, R226). -/

namespace Sys2Proof.Proofs

open Sys2Proof.Machine Sys2Proof.Claims Sys2Proof.Laws

/-- A disturbance of an embedded multiple below half a step leaves its bit (42 R175). -/
theorem parityBit_of_close {C S z : Int} {t : Bool} (h : 2 * |z - qembedRaw C t S| < S) :
    parityBit z S = t := by
  have hz : z = qembedRaw C t S + (z - qembedRaw C t S) := (add_sub_cancel _ _).symm
  rw [← qextract_eq_parityBit, hz]
  rcases abs_cases (z - qembedRaw C t S) with ⟨habs, _⟩ | ⟨habs, _⟩ <;> rw [habs] at h <;>
    exact qextract_qembedRaw_add t (by omega) (by omega)

section
variable {m m' : Memory} {src src' aux w h len r lv a : Nat} {S : Int} (hlv : 1 ≤ lv)
  (hlv' : lv ≤ 7) (hS : 1 ≤ S) (hS' : S ≤ 0x7FFFFFFF)
  (hnoise : ∀ i j, i < h → j < w →
    |blue m' src' w i j - dwtMarked m src aux w h len r lv S i j| ≤ 2 ^ 15 * (2 * a + 1))
include hlv hlv' hS hS' hnoise

/-- The change of a pixel of square (b, c) of the image, against that of its coefficient. -/
theorem noisy_pixel_bounds {b c i j : Nat} (hb : b < h / 2 ^ lv) (hc : c < w / 2 ^ lv)
    (hi : i / 2 ^ lv = b) (hj : j / 2 ^ lv = c) :
    -(2 ^ lv * (2 ^ 15 * (2 * a + 1))) ≤ 2 ^ lv * (blue m' src' w i j - blue m src w i j) -
        squareSign (lv - 1) i j * markShift m src aux w h len r lv S b c ∧
      2 ^ lv * (blue m' src' w i j - blue m src w i j) -
        squareSign (lv - 1) i j * markShift m src aux w h len r lv S b c ≤
          2 ^ lv + 2 ^ lv * (2 ^ 15 * (2 * a + 1)) := by
  have hi' : i < aligned h lv := (Nat.div_lt_iff_lt_mul (by positivity)).1 (hi ▸ hb)
  have hj' : j < aligned w lv := (Nat.div_lt_iff_lt_mul (by positivity)).1 (hj ▸ hc)
  obtain ⟨e, he, hlo, hhi⟩ := dwtMarked_eq_blue_add (m := m) (src := src) (aux := aux) (len := len)
    (r := r) hlv hlv' hS hS' hi' hj'
  rw [hi, hj] at hlo hhi
  have hnear := abs_le.1 (hnoise i j (hi'.trans_le (alignedSize_le h lv))
    (hj'.trans_le (alignedSize_le w lv)))
  rw [he] at hnear
  obtain ⟨hnear, hnear'⟩ := hnear
  have hpow : (0 : Int) ≤ 2 ^ lv := by positivity
  have hscaled := mul_le_mul_of_nonneg_left hnear hpow
  have hscaled' := mul_le_mul_of_nonneg_left hnear' hpow
  constructor <;> linarith

/-- Every carrier bit reads back (44 R226). -/
theorem dwtBit_of_noise (hstrength : (2 ^ lv * (2 * a + 1) + 1) * 2 ^ 16 ≤ S)
    (hfits : streamBits len r ≤ (w / 2 ^ lv) * (h / 2 ^ lv)) {k : Nat}
    (hk : k < streamBits len r) : dwtBit m' src' w h lv S k = frameBit m aux len (k / r) := by
  have hband := hk.trans_le hfits
  have hrow : k / (w / 2 ^ lv) < h / 2 ^ lv := Nat.div_lt_of_lt_mul hband
  have hcolumn : k % (w / 2 ^ lv) < w / 2 ^ lv :=
    Nat.mod_lt _ (Nat.pos_of_mul_pos_right (Nat.zero_lt_of_lt hband))
  have hclose := abs_carrier_sub_le (pixelData_blue m src w) (pixelData_blue m' src' w) hlv'
    (Nat.sub_add_cancel hlv) hrow hcolumn fun i j hi hj =>
      noisy_pixel_bounds hlv hlv' hS hS' hnoise hrow hcolumn hi hj
  have hmultiple := carrierOut_add_markShift (m := m) (src := src) (aux := aux) (w := w) (h := h)
    (len := len) (r := r) hlv hlv' hS hS' (i := k / (w / 2 ^ lv)) (j := k % (w / 2 ^ lv))
    (by rwa [Nat.div_add_mod'])
  rw [Nat.div_add_mod'] at hmultiple
  have hclose' : |carrierOut m' src' w h lv (k / (w / 2 ^ lv)) (k % (w / 2 ^ lv)) -
      qembedRaw (carrierOut m src w h lv (k / (w / 2 ^ lv)) (k % (w / 2 ^ lv)))
        (frameBit m aux len (k / r)) S| ≤ 2 ^ lv * (2 ^ 15 * (2 * a + 1)) + 2 ^ (lv - 1) :=
    hmultiple ▸ hclose
  have hhalf : (2 : Int) ^ lv = 2 * 2 ^ (lv - 1) := by
    rw [← pow_succ', Nat.sub_add_cancel hlv]
  have hpow : (2 : Int) ^ lv ≤ 2 ^ 7 := pow_le_pow_right₀ (by norm_num) hlv'
  have hbit : dwtBit m' src' w h lv S k =
      parityBit (sat32 (carrierOut m' src' w h lv (k / (w / 2 ^ lv)) (k % (w / 2 ^ lv)))) S := rfl
  rw [hbit, sat32_carrierOut hlv hlv']
  exact parityBit_of_close (by linarith)

end

/-- Settles O50: the pixels of each square move together, up to rounding and noise, so that every
carrier bit reads back. -/
theorem dwtMarkSurvivesNoise : Obligations.DwtMarkSurvivesNoise := by
  intro s t u a hs hexec hu hopt hlevels hclamp hnear hstrength
  obtain ⟨hw, hh, hS, hr, hfl⟩ := hopt
  obtain ⟨m, d, c, hexec', hrestored, -⟩ := dwtembMarks s hs
  obtain rfl := Host.Outcome.next.inj (hexec.symm.trans hexec')
  obtain ⟨hlv, hlv'⟩ := runs_levels hs rfl
  obtain ⟨hS1, hS2⟩ := runs_strength hs rfl
  have hfits : streamBits s.snap.len.toNat s.snap.r.toNat ≤
      (s.snap.w.toNat / 2 ^ s.snap.lv.toNat) * (s.snap.h.toNat / 2 ^ s.snap.lv.toNat) :=
    coeffs_eq s.snap ▸ runs_capacity hs rfl
  set bits := dwtBits (loadBytes u.mem u.snap.src.toNat (4 * (s.snap.w.toNat * s.snap.h.toNat)))
    s.snap.w.toNat s.snap.h.toNat s.snap.s.toNat s.snap.lv.toNat
  have hlength : bits.val.length =
      (s.snap.w.toNat / 2 ^ s.snap.lv.toNat) * (s.snap.h.toNat / 2 ^ s.snap.lv.toNat) :=
    (length_dwtBits (length_loadBytes _ _ _) hlv _).trans (dwtCoeffs_eq _ _ _)
  have hop : operationOf .dwtext u = reportDecode u.snap.dst.toNat
      (decodeStream bits.val s.snap.r.toNat u.snap.fl.toNat)
      (reportCapacity u.snap.coeffs u.snap.redundancy
        (reportUnits u.snap.coeffs (drawScratch (noteSat bits.clipped u)))) := by
    simp only [bits, ← hw, ← hh, ← hS, ← hr, ← hlevels]
    rfl
  refine recovers_of_stream hu hop (runs_redundancy hs rfl) (runs_length hs rfl) hfl
    (hlength ▸ hfits) fun k hk => ?_
  rw [getD_dwtBits _ hlv (hk.trans_le hfits)]
  exact dwtBit_of_noise hlv hlv' (by omega) (by omega)
    (fun i j hi hj => abs_blue_sub_marked_le hrestored hclamp hnear hi hj)
    (by exact_mod_cast hstrength) hfits hk

end Sys2Proof.Proofs
end

section
/-! PROOFS. Locality of both embeddings (44 R229). -/

namespace Sys2Proof.Proofs

open Sys2Proof.Machine Sys2Proof.Claims Sys2Proof.Laws

/-- Outside the blocks that carry a bit the channel stays (42 R179). -/
theorem dctMarked_ne_blue {m : Memory} {src aux w h len r i j : Nat} {S : Int}
    (hne : dctMarked m src aux w h len r S i j ≠ blue m src w i j) :
    j / 8 < w / 8 ∧ i / 8 < h / 8 ∧ i / 8 * (w / 8) + j / 8 < streamBits len r := by
  unfold dctMarked at hne
  dsimp only at hne
  split at hne
  case isTrue hmarked =>
    obtain ⟨hi, hj, hb⟩ := hmarked
    exact ⟨by omega, by omega, hb⟩
  case isFalse => contradiction

/-- Outside the squares of the coefficients that carry a bit the channel comes back exactly
(43 R203). -/
theorem dwtMarked_ne_blue {m : Memory} {src aux w h len r lv i j : Nat} {S : Int} (hlv : 1 ≤ lv)
    (hlv' : lv ≤ 7) (hS : 1 ≤ S) (hS' : S ≤ 0x7FFFFFFF)
    (hne : dwtMarked m src aux w h len r lv S i j ≠ blue m src w i j) :
    j / 2 ^ lv < w / 2 ^ lv ∧ i / 2 ^ lv < h / 2 ^ lv ∧
      i / 2 ^ lv * (w / 2 ^ lv) + j / 2 ^ lv < streamBits len r := by
  by_cases hin : i < aligned h lv ∧ j < aligned w lv
  case neg => rw [dwtMarked, if_neg hin] at hne; contradiction
  obtain ⟨hi, hj⟩ := hin
  refine ⟨(Nat.div_lt_iff_lt_mul (by positivity)).2 hj,
    (Nat.div_lt_iff_lt_mul (by positivity)).2 hi, Nat.lt_of_not_le fun hk => hne ?_⟩
  obtain ⟨e, he, hlo, hhi⟩ := dwtMarked_eq_blue_add (m := m) (src := src) (aux := aux) (len := len)
    (r := r) hlv hlv' hS hS' hi hj
  rw [markShift_of_le hlv hlv' hk, mul_zero, sub_zero] at hlo hhi
  have hpow : (0 : Int) < 2 ^ lv := by positivity
  have hzero : e = 0 := by
    have hle : 0 ≤ e := nonneg_of_mul_nonneg_right hlo hpow
    have hlt : e < 1 := lt_of_mul_lt_mul_left (by rwa [mul_one]) hpow.le
    omega
  rw [he, hzero, add_zero]

/-- A restored buffer differs from its source in channel 2 only, where the matrix differs from the
channel (40 R135). -/
theorem restored_ne {m m' : Memory} {src dst w h i j c : Nat} {M : Nat → Nat → Int}
    (hr : Restored m m' src dst w h M) (hi : i < h) (hj : j < w) (hc : c < 4)
    (hne : readByte m' (dst + 4 * (i * w + j) + c) ≠ readByte m (src + 4 * (i * w + j) + c)) :
    c = 2 ∧ M i j ≠ blue m src w i j := by
  obtain ⟨hblue, hother⟩ := hr i j hi hj
  have hc2 : c = 2 := by
    by_contra hc2
    exact hne (hother c (by omega))
  subst hc2
  refine ⟨rfl, fun heq => hne (BitVec.eq_of_toNat_eq ?_)⟩
  rw [heq, restoredByte_blue] at hblue
  exact_mod_cast hblue

/-- RES_USED holds the number of carrier positions an embedding used: it is below 2^32. -/
theorem toNat_used {w h : BitVec 16} {d len r : Nat}
    (hfits : streamBits len r ≤ (w.toNat / d) * (h.toNat / d)) :
    (BitVec.ofNat 32 ((32 + 8 * len) * r)).toNat = streamBits len r :=
  Nat.mod_eq_of_lt (hfits.trans_lt (mul_div_lt_word w h d))

/-- Settles O47: outside the positions that carry a bit, the marked matrix is the channel. -/
theorem markingIsLocal : Obligations.MarkingIsLocal := by
  intro i s t hi hruns hexec w h side y x c hy hx hc hne
  rcases hi with rfl | rfl
  · have hfits : streamBits s.snap.len.toNat s.snap.r.toNat ≤ (w / 8) * (h / 8) :=
      runs_capacity hruns rfl
    obtain ⟨m, hexec', hrestored, -⟩ := dctembMarks s hruns
    obtain rfl := Host.Outcome.next.inj (hexec.symm.trans hexec')
    obtain ⟨hc2, hdiffer⟩ := restored_ne hrestored hy hx hc hne
    refine ⟨hc2, ?_⟩
    rw [toNat_used hfits]
    exact dctMarked_ne_blue hdiffer
  · have hfits : streamBits s.snap.len.toNat s.snap.r.toNat ≤
        (w / 2 ^ s.snap.lv.toNat) * (h / 2 ^ s.snap.lv.toNat) :=
      coeffs_eq s.snap ▸ runs_capacity hruns rfl
    obtain ⟨m, d, clip, hexec', hrestored, -⟩ := dwtembMarks s hruns
    obtain rfl := Host.Outcome.next.inj (hexec.symm.trans hexec')
    obtain ⟨hc2, hdiffer⟩ := restored_ne hrestored hy hx hc hne
    obtain ⟨hlv, hlv'⟩ := runs_levels hruns rfl
    obtain ⟨hS, hS'⟩ := runs_strength hruns rfl
    refine ⟨hc2, ?_⟩
    rw [toNat_used hfits]
    exact dwtMarked_ne_blue hlv hlv' (by omega) (by omega) hdiffer

end Sys2Proof.Proofs
end

section
/-! PROOFS. What marking does to the pixels of a block: the basis image of X[3][4], up to rounding
(42 R179, 44 R225). -/

namespace Sys2Proof.Proofs

open Sys2Proof.Machine Sys2Proof.Claims Sys2Proof.Laws

/-! ### One coefficient changed -/

/-- Changing coefficient p by δ changes an inverse sum by the ROM entry times δ, up to two
roundings. -/
theorem inverseSum_add_close {X Y : Nat → Int} {p : Nat} {δ : Int} (hp : p < 8)
    (hY : ∀ k < 8, Y k = X k + if k = p then δ else 0) (n : Nat) :
    |2 ^ 30 * (inverseSum Y n - inverseSum X n) - matAt cosRom p n * δ| ≤ 2 ^ 30 := by
  have hsum : ∑ k ∈ Finset.range 8, matAt cosRom k n * Y k =
      ∑ k ∈ Finset.range 8, matAt cosRom k n * X k + matAt cosRom p n * δ := by
    rw [Finset.sum_congr rfl fun k hk => by rw [hY k (Finset.mem_range.1 hk), mul_add],
      Finset.sum_add_distrib]
    simp [hp]
  have hrndX := abs_rnd_thirty_sub_le (∑ k ∈ Finset.range 8, matAt cosRom k n * X k)
  have hrndY := abs_rnd_thirty_sub_le (∑ k ∈ Finset.range 8, matAt cosRom k n * Y k)
  unfold inverseSum
  rw [hsum] at hrndY ⊢
  rw [abs_le] at *
  constructor <;> linarith

section
variable {B : Nat → Nat → Int} (hB : ∀ i j, i < 8 → j < 8 → |B i j| ≤ 2 ^ 24) (t : Bool)
  {S : Int} (hS : 1 ≤ S) (hS' : S ≤ 0x7FFFFFFF)

/-- What an embedding adds to X[3][4] of a block (42 R179). -/
def coeffShift (B : Nat → Nat → Int) (t : Bool) (S : Int) : Int :=
  qembedRaw (forwardBlock B 3 4) t S - forwardBlock B 3 4

include hB hS hS'

/-- X[3][4] becomes the multiple of its bit: nothing saturates. -/
theorem markedCoeff_carrier : markedCoeff B t S 3 4 = qembedRaw (forwardBlock B 3 4) t S := by
  have hC := abs_forwardBlock_le hB (u := 3) (v := 4) (by omega) (by omega)
  have hclip := (clips_eq_false_iff _).1 (clips_qembedRaw t hS hS' (hC.trans (by norm_num)))
  rw [markedCoeff, if_pos ⟨rfl, rfl⟩, sat32_forwardBlock_of_pixels hB (by omega) (by omega),
    ← qembedRaw_eq_nudged, hclip]

theorem markedCoeff_eq_add {u v : Nat} (hu : u < 8) (hv : v < 8) : markedCoeff B t S u v =
    forwardBlock B u v + if u = 3 ∧ v = 4 then coeffShift B t S else 0 := by
  by_cases hcarrier : u = 3 ∧ v = 4
  · obtain ⟨rfl, rfl⟩ := hcarrier
    rw [markedCoeff_carrier hB t hS hS', if_pos ⟨rfl, rfl⟩, coeffShift, add_sub_cancel]
  · rw [markedCoeff, if_neg hcarrier, if_neg hcarrier, add_zero,
      sat32_forwardBlock_of_pixels hB hu hv]

omit hB hS' in
theorem abs_coeffShift_le : |coeffShift B t S| ≤ S := abs_qembedRaw_sub_le t hS

omit hS hS' in
/-- The column pass of the inverse does not saturate, on the coefficients of pixel data. -/
theorem inverseColumns_forwardBlock {i v : Nat} (hi : i < 8) (hv : v < 8) :
    inverseColumns (forwardBlock B) i v = inverseSum (fun u => forwardBlock B u v) i := by
  have hle := abs_inverseSum_le (X := fun u => forwardBlock B u v) (M := 2 ^ 27 + 4) (D := 0)
    (p := 0) (by norm_num) le_rfl (by omega)
    (fun u hu => by simpa using abs_forwardBlock_le hB hu hv) hi
  exact sat32_of_abs_le (by omega)

omit hS hS' in
/-- Nor does it on the marked coefficients. -/
theorem inverseColumns_markedCoeff {i v : Nat} (hi : i < 8) (hv : v < 8) :
    inverseColumns (markedCoeff B t S) i v = inverseSum (fun u => markedCoeff B t S u v) i ∧
      |inverseColumns (markedCoeff B t S) i v| ≤ 1407692757 := by
  have hle := abs_inverseSum_markedCoeff_le hB t S hi hv
  have hle' : |inverseSum (fun u => markedCoeff B t S u v) i| ≤ 1407692757 := by
    split at hle <;> omega
  have heq : inverseColumns (markedCoeff B t S) i v = _ :=
    sat32_of_abs_le (hle'.trans (by norm_num))
  exact ⟨heq, heq ▸ hle'⟩

/-- Marking changes column 4 of the column pass only. -/
theorem inverseColumns_markedCoeff_add {i : Nat} (hi : i < 8) : ∃ d,
    (∀ v < 8, inverseColumns (markedCoeff B t S) i v =
      inverseColumns (forwardBlock B) i v + if v = 4 then d else 0) ∧
    |2 ^ 30 * d - matAt cosRom 3 i * coeffShift B t S| ≤ 2 ^ 30 := by
  have hcoeff := fun u v hu hv => markedCoeff_eq_add hB t hS hS' (u := u) (v := v) hu hv
  refine ⟨_, fun v hv => ?_, inverseSum_add_close (by omega) (X := fun u => forwardBlock B u 4)
    (Y := fun u => markedCoeff B t S u 4) (fun u hu => by simpa using hcoeff u 4 hu (by omega)) i⟩
  rw [(inverseColumns_markedCoeff hB t hi hv).1, inverseColumns_forwardBlock hB hi hv]
  split
  case isTrue hv4 => subst hv4; ring
  case isFalse hv4 =>
    rw [add_zero]
    exact inverseSum_congr (fun u hu => by simpa [hv4] using hcoeff u v hu hv) i

/-- The pixels of a marked block: the basis image of X[3][4] times its change, up to 13 units of
rounding (44 R225). -/
theorem inverseBlock_markedCoeff_close {i j : Nat} (hi : i < 8) (hj : j < 8) :
    |2 ^ 60 * (inverseBlock (markedCoeff B t S) i j - B i j) -
      matAt cosRom 3 i * matAt cosRom 4 j * coeffShift B t S| ≤ 13 * 2 ^ 60 := by
  obtain ⟨d, hcolumns, hd⟩ := inverseColumns_markedCoeff_add hB t hS hS' hi
  have hrow : |2 ^ 30 * (inverseBlock (markedCoeff B t S) i j -
      inverseBlock (forwardBlock B) i j) - matAt cosRom 4 j * d| ≤ 2 ^ 30 :=
    inverseSum_add_close (p := 4) (by omega) hcolumns j
  have hback := abs_inverseBlock_sub_le (X := forwardBlock B)
    (fun i j hi hj => (hB i j hi hj).trans (by norm_num)) (fun _ _ _ _ => rfl) hi hj
  have hrom := abs_cosRom_le 4 (by omega) j hj
  have hscaled : |matAt cosRom 4 j * (2 ^ 30 * d - matAt cosRom 3 i * coeffShift B t S)| ≤
      526555088 * 2 ^ 30 := by
    rw [abs_mul]
    exact mul_le_mul hrom hd (abs_nonneg _) (by norm_num)
  rw [abs_le] at *
  constructor <;> linarith

end

/-! ### The pixels of an image -/

/-- A pixel of the tiling is the cell of its block at its position (42 R176). -/
theorem blockCell_of_pixel {m : Memory} {src w i j : Nat} (hj : j / 8 < w / 8) :
    blockCell m src w (i / 8 * (w / 8) + j / 8) (i % 8) (j % 8) = blue m src w i j := by
  have hrow : (i / 8 * (w / 8) + j / 8) / (w / 8) = i / 8 := by
    rw [Nat.add_comm, Nat.add_mul_div_right _ _ (by omega), Nat.div_eq_of_lt hj, Nat.zero_add]
  have hcolumn : (i / 8 * (w / 8) + j / 8) % (w / 8) = j / 8 := by
    rw [Nat.add_comm, Nat.add_mul_mod_self_right, Nat.mod_eq_of_lt hj]
  rw [blockCell, hrow, hcolumn, Nat.div_add_mod, Nat.div_add_mod]

/-- No sat32 of a marked block clips (42 R180). -/
theorem sat32_inverseBlock_markedCoeff {B : Nat → Nat → Int}
    (hB : ∀ i j, i < 8 → j < 8 → |B i j| ≤ 2 ^ 24) (t : Bool) (S : Int) {i j : Nat} (hi : i < 8)
    (hj : j < 8) : sat32 (inverseBlock (markedCoeff B t S) i j) =
      inverseBlock (markedCoeff B t S) i j :=
  not_not.1 fun hclip => not_inverseBlockClips_markedCoeff hB t S (.inr ⟨i, j, hi, hj, hclip⟩)

end Sys2Proof.Proofs
end

section
/-! PROOFS. Imperceptibility of both embeddings (44 R225). -/

namespace Sys2Proof.Proofs

open Sys2Proof.Machine Sys2Proof.Claims Sys2Proof.Laws

/-! ### The change of a pixel -/

/-- The most a byte at (i, j) of a block changes when X[3][4] moves by at most 60.0. -/
def blockChange (i j : Nat) : Nat :=
  ((|matAt cosRom 3 i * matAt cosRom 4 j| * (60 * 2 ^ 16) + (2 ^ 15 + 13) * 2 ^ 60) /
    2 ^ 76).toNat

/-- The energy of the change of a block is below 65.025 per pixel. -/
theorem sum_sq_blockChange :
    ∑ i ∈ Finset.range 8, ∑ j ∈ Finset.range 8, blockChange i j ^ 2 ≤ 4161 := by decide

/-- A bound on how far the marked matrix is from the channel bounds the change of the byte. -/
theorem abs_restoredByte_blue_sub_le {m : Memory} {src w i j n : Nat} {M : Int}
    (hM : |M - blue m src w i j| < n * 2 ^ 16 + 2 ^ 15) :
    |restoredByte M - ((readByte m (src + 4 * (i * w + j) + 2)).toNat : Int)| ≤ n := by
  have hbyte := (readByte m (src + 4 * (i * w + j) + 2)).isLt
  exact abs_restoredByte_sub_le (by omega) (by omega) hM

/-- The change of a pixel by DCTEMB at S ≤ 60.0. -/
theorem abs_restoredByte_dctMarked_le {m : Memory} {src aux w h len r i j : Nat} {S : Int}
    (hS : 1 ≤ S) (hS60 : S ≤ 60 * 2 ^ 16) :
    |restoredByte (dctMarked m src aux w h len r S i j) -
      ((readByte m (src + 4 * (i * w + j) + 2)).toNat : Int)| ≤
      (if i < 8 * (h / 8) ∧ j < 8 * (w / 8) then blockChange (i % 8) (j % 8) else 0 : Nat) := by
  by_cases hsame : dctMarked m src aux w h len r S i j = blue m src w i j
  · rw [hsame, restoredByte_blue, sub_self, abs_zero]
    exact Int.natCast_nonneg _
  obtain ⟨hj, hi, hb⟩ := dctMarked_ne_blue hsame
  have htile : i < 8 * (h / 8) ∧ j < 8 * (w / 8) := by omega
  have hB : ∀ b i j, i < 8 → j < 8 → |blockCell m src w b i j| ≤ 2 ^ 24 := fun b i j _ _ =>
    abs_blockCell_le m src w b i j
  have hi8 : i % 8 < 8 := Nat.mod_lt _ (by omega)
  have hj8 : j % 8 < 8 := Nat.mod_lt _ (by omega)
  have hmarked : (i < 8 * (h / 8) ∧ j < 8 * (w / 8) ∧
      i / 8 * (w / 8) + j / 8 < (32 + 8 * len) * r) := ⟨htile.1, htile.2, hb⟩
  rw [if_pos htile]
  refine abs_restoredByte_blue_sub_le ?_
  rw [dctMarked, if_pos hmarked, sat32_inverseBlock_markedCoeff (hB _) _ _ hi8 hj8]
  have hclose := inverseBlock_markedCoeff_close (hB (i / 8 * (w / 8) + j / 8))
    (frameBit m aux len ((i / 8 * (w / 8) + j / 8) / r)) hS (hS60.trans (by norm_num)) hi8 hj8
  have hshift := (abs_coeffShift_le (B := blockCell m src w (i / 8 * (w / 8) + j / 8))
    (frameBit m aux len ((i / 8 * (w / 8) + j / 8) / r)) hS).trans hS60
  rw [blockCell_of_pixel hj] at hclose
  set E := inverseBlock (markedCoeff (blockCell m src w (i / 8 * (w / 8) + j / 8))
    (frameBit m aux len ((i / 8 * (w / 8) + j / 8) / r)) S) (i % 8) (j % 8) - blue m src w i j
  have hbasis : |matAt cosRom 3 (i % 8) * matAt cosRom 4 (j % 8) *
      coeffShift (blockCell m src w (i / 8 * (w / 8) + j / 8))
        (frameBit m aux len ((i / 8 * (w / 8) + j / 8) / r)) S| ≤
      |matAt cosRom 3 (i % 8) * matAt cosRom 4 (j % 8)| * (60 * 2 ^ 16) := by
    rw [abs_mul]
    exact mul_le_mul_of_nonneg_left hshift (abs_nonneg _)
  have hE : 2 ^ 60 * |E| ≤
      |matAt cosRom 3 (i % 8) * matAt cosRom 4 (j % 8)| * (60 * 2 ^ 16) + 13 * 2 ^ 60 := by
    have habs : |2 ^ 60 * E| = 2 ^ 60 * |E| := by rw [abs_mul]; rfl
    rw [← habs]
    rw [abs_le] at *
    constructor <;> linarith
  have hnonneg := abs_nonneg (matAt cosRom 3 (i % 8) * matAt cosRom 4 (j % 8))
  unfold blockChange
  omega

/-- The change of a pixel by DWTEMB at S ≤ 7.5·2^Lv is at most 8. -/
theorem abs_restoredByte_dwtMarked_le {m : Memory} {src aux w h len r lv i j : Nat} {S : Int}
    (hlv : 1 ≤ lv) (hlv' : lv ≤ 7) (hS : 1 ≤ S) (hS' : S ≤ 0x7FFFFFFF)
    (hS15 : 2 * S ≤ 15 * 2 ^ lv * 2 ^ 16) :
    |restoredByte (dwtMarked m src aux w h len r lv S i j) -
      ((readByte m (src + 4 * (i * w + j) + 2)).toNat : Int)| ≤ (8 : Nat) := by
  refine abs_restoredByte_blue_sub_le ?_
  by_cases hin : i < aligned h lv ∧ j < aligned w lv
  case neg =>
    rw [dwtMarked, if_neg hin, sub_self, abs_zero]
    norm_num
  obtain ⟨e, he, hlo, hhi⟩ := dwtMarked_eq_blue_add (m := m) (src := src) (aux := aux) (len := len)
    (r := r) hlv hlv' hS hS' hin.1 hin.2
  have hshift := abs_markShift_le (m := m) (src := src) (aux := aux) (w := w) (h := h) (len := len)
    (r := r) hlv hlv' hS hS' (i / 2 ^ lv) (j / 2 ^ lv)
  have hpow : (0 : Int) < 2 ^ lv := by positivity
  have hupper : e < 15 * 2 ^ 15 + 1 := by
    refine lt_of_mul_lt_mul_left (a := 2 ^ lv) ?_ hpow.le
    rw [abs_le] at hshift
    rcases squareSign_eq (lv - 1) i j with hs | hs <;> rw [hs] at hhi <;> linarith
  have hlower : -(15 * 2 ^ 15) ≤ e := by
    refine le_of_mul_le_mul_left (a := 2 ^ lv) ?_ hpow
    rw [abs_le] at hshift
    rcases squareSign_eq (lv - 1) i j with hs | hs <;> rw [hs] at hlo <;> linarith
  rw [he, add_sub_cancel_left, abs_lt]
  omega

/-! ### The sum over the image -/

/-- A sum over the whole groups of 8 of a range. -/
theorem sum_tiles (f : Nat → Nat) (n : Nat) :
    (∑ i ∈ Finset.range n, if i < 8 * (n / 8) then f (i % 8) else 0) =
      n / 8 * ∑ i ∈ Finset.range 8, f i := by
  have hgroups : ∀ q, ∑ i ∈ Finset.range (8 * q), f (i % 8) =
      q * ∑ i ∈ Finset.range 8, f i := by
    intro q
    induction q with
    | zero => simp
    | succ q ih =>
      have hlast : ∑ i ∈ Finset.range 8, f ((8 * q + i) % 8) = ∑ i ∈ Finset.range 8, f i :=
        Finset.sum_congr rfl fun i hi => by
          rw [Nat.mul_add_mod, Nat.mod_eq_of_lt (Finset.mem_range.1 hi)]
      rw [Nat.mul_succ, Finset.sum_range_add (fun i => f (i % 8)), ih, hlast, Nat.succ_mul]
  have hfilter : (Finset.range n).filter (· < 8 * (n / 8)) = Finset.range (8 * (n / 8)) := by
    ext i
    simp only [Finset.mem_filter, Finset.mem_range]
    omega
  rw [← Finset.sum_filter, hfilter, hgroups]

/-- The change of the channel at a pixel, from the change of its byte. -/
theorem toNat_sq_blue_sub_le {m m' : Memory} {src dst w h i j n : Nat} {M : Nat → Nat → Int}
    (hr : Restored m m' src dst w h M) (hi : i < h) (hj : j < w)
    (hn : |restoredByte (M i j) - ((readByte m (src + 4 * (i * w + j) + 2)).toNat : Int)| ≤ n) :
    ((blue m src w i j - blue m' dst w i j) ^ 2).toNat ≤ n ^ 2 * 2 ^ 32 := by
  obtain ⟨hbyte, -⟩ := hr i j hi hj
  have hsq : (blue m src w i j - blue m' dst w i j) ^ 2 =
      (restoredByte (M i j) - ((readByte m (src + 4 * (i * w + j) + 2)).toNat : Int)) ^ 2 *
        2 ^ 32 := by
    rw [blue, blue, hbyte]; ring
  have hle := sq_le_sq' (abs_le.1 hn).1 (abs_le.1 hn).2
  rw [hsq, Int.toNat_le]
  push_cast
  exact mul_le_mul_of_nonneg_right hle (by norm_num)

section
variable {m m' : Memory} {src dst w h : Nat} {M : Nat → Nat → Int}
  (hr : Restored m m' src dst w h M)
include hr

/-- D is at most the sum of the bounds on each byte, in pixel units. -/
theorem squaredDiff_restored_le (n : Nat → Nat → Nat)
    (hn : ∀ i j, |restoredByte (M i j) -
      ((readByte m (src + 4 * (i * w + j) + 2)).toNat : Int)| ≤ n i j) :
    squaredDiff (blue m src w) (blue m' dst w) h w ≤
      (∑ i ∈ Finset.range h, ∑ j ∈ Finset.range w, n i j ^ 2) * 2 ^ 32 := by
  rw [Finset.sum_mul]
  refine Finset.sum_le_sum fun i hi => ?_
  rw [Finset.sum_mul]
  exact Finset.sum_le_sum fun j hj =>
    toNat_sq_blue_sub_le hr (Finset.mem_range.1 hi) (Finset.mem_range.1 hj) (hn i j)

/-- Bytes that change by at most 8 keep the PSNR above 30 dB. -/
theorem psnr_of_le_eight (hh : 1 ≤ h) (hw : 1 ≤ w)
    (hn : ∀ i j, |restoredByte (M i j) -
      ((readByte m (src + 4 * (i * w + j) + 2)).toNat : Int)| ≤ (8 : Nat)) :
    1000 * squaredDiff (blue m src w) (blue m' dst w) h w < 65025 * (h * w) * 2 ^ 32 := by
  have hD := squaredDiff_restored_le hr (fun _ _ => 8) hn
  have hcells : (∑ _i ∈ Finset.range h, ∑ _j ∈ Finset.range w, 8 ^ 2) = 64 * (h * w) := by
    simp only [Finset.sum_const, Finset.card_range, smul_eq_mul]; ring
  rw [hcells] at hD
  have hpos : 0 < h * w := Nat.mul_pos hh hw
  omega

/-- So do bytes of blocks whose energy is that of a marked block. -/
theorem psnr_of_blockChange (hh : 1 ≤ h) (hw : 1 ≤ w)
    (hn : ∀ i j, |restoredByte (M i j) -
      ((readByte m (src + 4 * (i * w + j) + 2)).toNat : Int)| ≤
        (if i < 8 * (h / 8) ∧ j < 8 * (w / 8) then blockChange (i % 8) (j % 8) else 0 : Nat)) :
    1000 * squaredDiff (blue m src w) (blue m' dst w) h w < 65025 * (h * w) * 2 ^ 32 := by
  have hD := squaredDiff_restored_le hr _ hn
  have hcells : (∑ i ∈ Finset.range h, ∑ j ∈ Finset.range w,
      (if i < 8 * (h / 8) ∧ j < 8 * (w / 8) then blockChange (i % 8) (j % 8) else 0) ^ 2) =
      h / 8 * (w / 8 * ∑ i ∈ Finset.range 8, ∑ j ∈ Finset.range 8, blockChange i j ^ 2) := by
    have hrow : ∀ i, (∑ j ∈ Finset.range w,
        (if i < 8 * (h / 8) ∧ j < 8 * (w / 8) then blockChange (i % 8) (j % 8) else 0) ^ 2) =
        if i < 8 * (h / 8) then w / 8 * ∑ j ∈ Finset.range 8, blockChange (i % 8) j ^ 2 else 0 := by
      intro i
      split
      case isTrue hi =>
        rw [← sum_tiles (fun j => blockChange (i % 8) j ^ 2)]
        refine Finset.sum_congr rfl fun j _ => ?_
        simp only [hi, true_and, ite_pow]
        rfl
      case isFalse hi => simp [hi]
    rw [Finset.sum_congr rfl fun i _ => hrow i,
      sum_tiles (fun i => w / 8 * ∑ j ∈ Finset.range 8, blockChange i j ^ 2), ← Finset.mul_sum]
  have henergy : h / 8 * (w / 8 * ∑ i ∈ Finset.range 8, ∑ j ∈ Finset.range 8,
      blockChange i j ^ 2) ≤ h / 8 * (w / 8 * 4161) :=
    Nat.mul_le_mul_left _ (Nat.mul_le_mul_left _ sum_sq_blockChange)
  have htiles : 64 * (h / 8 * (w / 8)) ≤ h * w :=
    calc 64 * (h / 8 * (w / 8)) = (h / 8 * 8) * (w / 8 * 8) := by ring
      _ ≤ h * w := Nat.mul_le_mul (Nat.div_mul_le_self h 8) (Nat.div_mul_le_self w 8)
  have hpos : 0 < h * w := Nat.mul_pos hh hw
  rw [hcells] at hD
  rw [← Nat.mul_assoc (h / 8) (w / 8) 4161] at henergy
  omega

end

/-- Settles O48: a marked block has the energy of one basis image of size 60.0, and a DWT byte moves
by at most 8. -/
theorem markIsImperceptible : Obligations.MarkIsImperceptible := by
  intro i s t hi hruns hexec w h
  rcases hi with ⟨rfl, hS⟩ | ⟨rfl, hS⟩
  · obtain ⟨hw, hh⟩ := runs_dims hruns rfl
    obtain ⟨hS1, -⟩ := runs_strength hruns rfl
    obtain ⟨m, hexec', hrestored, -⟩ := dctembMarks s hruns
    obtain rfl := Host.Outcome.next.inj (hexec.symm.trans hexec')
    exact psnr_of_blockChange hrestored hh hw fun _ _ =>
      abs_restoredByte_dctMarked_le (by omega) (by omega)
  · obtain ⟨hw, hh⟩ := runs_dims hruns rfl
    obtain ⟨hS1, hS2⟩ := runs_strength hruns rfl
    obtain ⟨hlv, hlv'⟩ := runs_levels hruns rfl
    obtain ⟨m, d, c, hexec', hrestored, -⟩ := dwtembMarks s hruns
    obtain rfl := Host.Outcome.next.inj (hexec.symm.trans hexec')
    exact psnr_of_le_eight hrestored hh hw fun _ _ =>
      abs_restoredByte_dwtMarked_le hlv hlv' (by omega) (by omega) (by exact_mod_cast hS)

end Sys2Proof.Proofs
end

section
/-! PROOFS. The forward transform of a marked block with noise (44 R224): a pass of the forward
transform gives back what the inverse pass began with, and multiplies a disturbance by the magnitude
of its ROM row. -/

namespace Sys2Proof.Proofs

open Sys2Proof.Machine Sys2Proof.Claims Sys2Proof.Laws

/-! ### Forward after inverse -/

/-- The product of the ROM with its transpose, less 2^60 times the identity. -/
def rowGramError (k l : Nat) : Int :=
  ∑ n ∈ Finset.range 8, matAt cosRom k n * matAt cosRom l n - if l = k then 2 ^ 60 else 0

/-- The rows of the ROM are orthonormal up to the rounding of its entries. -/
theorem sum_abs_rowGramError : ∀ k < 8,
    ∑ l ∈ Finset.range 8, |rowGramError k l| ≤ 3018816224 := by decide

/-- The magnitude of ROM row 3. -/
theorem sum_abs_cosRom_three : ∑ n ∈ Finset.range 8, |matAt cosRom 3 n| = 2751909508 := by decide

/-- The magnitude of ROM row 4. -/
theorem sum_abs_cosRom_four : ∑ n ∈ Finset.range 8, |matAt cosRom 4 n| = 3037000496 := by decide

theorem kDct_eq : kDct = 2751909508 * 3037000496 := by
  rw [kDct, sum_abs_cosRom_three, sum_abs_cosRom_four]

/-- The forward sums of the inverse ones, before any rnd. -/
theorem sum_cosRom_row_mul (y : Nat → Int) {k : Nat} (hk : k < 8) :
    ∑ n ∈ Finset.range 8, matAt cosRom k n * ∑ l ∈ Finset.range 8, matAt cosRom l n * y l =
      2 ^ 60 * y k + ∑ l ∈ Finset.range 8, rowGramError k l * y l := by
  have hdelta : ∑ l ∈ Finset.range 8, (if l = k then 2 ^ 60 else 0) * y l = 2 ^ 60 * y k := by
    simp [ite_mul, hk]
  have hgram : ∀ l, ∑ n ∈ Finset.range 8, matAt cosRom k n * (matAt cosRom l n * y l) =
      (if l = k then 2 ^ 60 else 0) * y l + rowGramError k l * y l := fun l => by
    rw [← add_mul, rowGramError, add_sub_cancel, Finset.sum_mul]
    exact Finset.sum_congr rfl fun n _ => (mul_assoc _ _ _).symm
  simp only [Finset.mul_sum]
  rw [Finset.sum_comm, Finset.sum_congr rfl fun l _ => hgram l, Finset.sum_add_distrib, hdelta]

/-- The forward sum of samples within P of inverse sums: what the ROM's entries, the rounding and
the disturbance of the samples add to the error. -/
theorem forwardSum_close {x y : Nat → Int} {M P A : Int} (hM : 0 ≤ M) (hP : 0 ≤ P)
    (hy : ∀ l < 8, |y l| ≤ M) (hx : ∀ n < 8, |x n - inverseSum y n| ≤ P) {k : Nat} (hk : k < 8)
    (hA : ∑ n ∈ Finset.range 8, |matAt cosRom k n| ≤ A) :
    |forwardSum x k - y k| * 2 ^ 60 ≤ 3018816224 * M + A * (2 ^ 29 + 2 ^ 30 * P) + 2 ^ 59 := by
  have hsample : ∀ n < 8,
      |2 ^ 30 * x n - ∑ l ∈ Finset.range 8, matAt cosRom l n * y l| ≤ 2 ^ 29 + 2 ^ 30 * P := by
    intro n hn
    have hrnd := abs_rnd_thirty_sub_le (∑ l ∈ Finset.range 8, matAt cosRom l n * y l)
    have hxn := hx n hn
    unfold inverseSum at hxn
    rw [abs_le] at *
    constructor <;> linarith
  have hsplit : 2 ^ 30 * ∑ n ∈ Finset.range 8, matAt cosRom k n * x n =
      2 ^ 60 * y k + ∑ l ∈ Finset.range 8, rowGramError k l * y l +
        ∑ n ∈ Finset.range 8, matAt cosRom k n *
          (2 ^ 30 * x n - ∑ l ∈ Finset.range 8, matAt cosRom l n * y l) := by
    rw [← sum_cosRom_row_mul y hk, ← Finset.sum_add_distrib, Finset.mul_sum]
    exact Finset.sum_congr rfl fun n _ => by ring
  have hgram := abs_sum_mul_le hM (sum_abs_rowGramError k hk) hy
  have hround := abs_sum_mul_le (by positivity) hA hsample
  have hforward := abs_rnd_thirty_sub_le (∑ n ∈ Finset.range 8, matAt cosRom k n * x n)
  unfold forwardSum
  rw [abs_le] at hgram hround hforward
  generalize rnd _ 30 = z at *
  rcases abs_cases (z - y k) with ⟨hz, _⟩ | ⟨hz, _⟩ <;> rw [hz] <;> linarith

/-! ### Both passes -/

section
variable {B B' : Nat → Nat → Int} (hB : ∀ i j, i < 8 → j < 8 → |B i j| ≤ 2 ^ 24)
  (hB' : ∀ i j, i < 8 → j < 8 → |B' i j| ≤ 2 ^ 24) {t : Bool} {S P : Int} (hP : 0 ≤ P)
  (hnoise : ∀ i j, i < 8 → j < 8 → |B' i j - inverseBlock (markedCoeff B t S) i j| ≤ P)
include hB hB' hP hnoise

/-- The row pass gives back column 4 of the inverse's column pass. -/
theorem forwardRows_of_noise {i : Nat} (hi : i < 8) :
    |forwardRows B' i 4 - inverseColumns (markedCoeff B t S) i 4| * 2 ^ 60 ≤
      3018816224 * 1407692757 + 3037000496 * (2 ^ 29 + 2 ^ 30 * P) + 2 ^ 59 := by
  rw [(forwardRows_eq_forwardSum (fun i j hi hj => (hB' i j hi hj).trans (by norm_num)) hi
    (by omega)).1]
  exact forwardSum_close (by norm_num) hP
    (fun v hv => (inverseColumns_markedCoeff hB t hi hv).2) (fun j hj => hnoise i j hi hj)
    (by omega) sum_abs_cosRom_four.le

omit hB' hP hnoise in
/-- The column pass gives back X[3][4]. -/
theorem forwardBlock_of_noise {Q : Int} (hQ : 0 ≤ Q)
    (hrows : ∀ i < 8, |forwardRows B' i 4 - inverseColumns (markedCoeff B t S) i 4| ≤ Q) :
    |forwardBlock B' 3 4 - markedCoeff B t S 3 4| * 2 ^ 60 ≤
      3018816224 * (2 ^ 27 + 4 + 2 ^ 31) + 2751909508 * (2 ^ 29 + 2 ^ 30 * Q) + 2 ^ 59 := by
  have hcolumn : ∀ u < 8, |markedCoeff B t S u 4| ≤ 2 ^ 27 + 4 + 2 ^ 31 := fun u hu =>
    (abs_markedCoeff_le hB t S hu (by omega)).trans (by split <;> norm_num)
  have hrows' : ∀ i < 8, |forwardRows B' i 4 - inverseSum (fun u => markedCoeff B t S u 4) i| ≤ Q :=
    fun i hi => by
      rw [← (inverseColumns_markedCoeff hB t hi (by omega)).1]
      exact hrows i hi
  exact forwardSum_close (by norm_num) hQ hcolumn hrows' (by omega) sum_abs_cosRom_three.le

/-- A strength of twice the disturbance times K_DCT, and 128 raw units for the rounding, keeps the
carrier coefficient within half a step of its multiple (44 R224, R226). -/
theorem parityBit_forwardBlock_of_noise (hS : 1 ≤ S) (hS' : S ≤ 0x7FFFFFFF)
    (hstrength : kDct * P ≤ (S - 128) * 2 ^ 59) : parityBit (forwardBlock B' 3 4) S = t := by
  set N : Int := 3018816224 * 1407692757 + 3037000496 * (2 ^ 29 + 2 ^ 30 * P) + 2 ^ 59 with hN
  have hrows : ∀ i < 8,
      |forwardRows B' i 4 - inverseColumns (markedCoeff B t S) i 4| ≤ N / 2 ^ 60 := fun i hi =>
    (Int.le_ediv_iff_mul_le (by norm_num)).2 (forwardRows_of_noise hB hB' hP hnoise hi)
  have hcolumn := forwardBlock_of_noise hB (Int.ediv_nonneg (by positivity)
    (by norm_num)) hrows
  have hfloor : N / 2 ^ 60 * 2 ^ 60 ≤ N := Int.ediv_mul_le _ (by norm_num)
  rw [markedCoeff_carrier hB t hS hS'] at hcolumn
  rw [kDct_eq] at hstrength
  exact parityBit_of_close (by linarith)

end

end Sys2Proof.Proofs
end

section
/-! PROOFS. The bits DCTEXT reads from a marked image with noise, and the recovery of the payload
(44 R224, R226). -/

namespace Sys2Proof.Proofs

open Sys2Proof.Machine Sys2Proof.Claims Sys2Proof.Laws

/-- A pixel of a block that carries a bit, after embedding (42 R179). -/
theorem dctMarked_of_block {m : Memory} {src aux w h len r b i j : Nat} {S : Int}
    (hb : b < (w / 8) * (h / 8)) (hk : b < streamBits len r) (hi : i < 8) (hj : j < 8) :
    dctMarked m src aux w h len r S (8 * (b / (w / 8)) + i) (8 * (b % (w / 8)) + j) =
      inverseBlock (markedCoeff (blockCell m src w b) (frameBit m aux len (b / r)) S) i j := by
  obtain ⟨hrow, hcolumn⟩ := block_bounds hb
  have hk' : b < (32 + 8 * len) * r := hk
  have hquot : ∀ c x, x < 8 → (8 * c + x) / 8 = c := fun c x hx => by omega
  have hrem : ∀ c x, x < 8 → (8 * c + x) % 8 = x := fun c x hx => by omega
  rw [dctMarked, hquot _ _ hi, hquot _ _ hj, hrem _ _ hi, hrem _ _ hj, Nat.div_add_mod',
    if_pos ⟨by omega, by omega, hk'⟩, sat32_inverseBlock_markedCoeff
      (fun i j _ _ => abs_blockCell_le m src w b i j) _ _ hi hj]

/-- Every carrier bit reads back (44 R226). -/
theorem dctBit_of_noise {m m' : Memory} {src src' aux w h len r a b : Nat} {S : Int} (hS : 1 ≤ S)
    (hS' : S ≤ 0x7FFFFFFF)
    (hnoise : ∀ i j, i < h → j < w →
      |blue m' src' w i j - dctMarked m src aux w h len r S i j| ≤ 2 ^ 15 * (2 * a + 1))
    (hstrength : DctStrengthFor S a) (hb : b < (w / 8) * (h / 8)) (hk : b < streamBits len r) :
    dctBit m' src' w S b = frameBit m aux len (b / r) := by
  obtain ⟨hrow, hcolumn⟩ := block_bounds hb
  have hcells : ∀ i j, i < 8 → j < 8 → |blockCell m' src' w b i j -
      inverseBlock (markedCoeff (blockCell m src w b) (frameBit m aux len (b / r)) S) i j| ≤
        2 ^ 15 * (2 * a + 1) := fun i j hi hj =>
    dctMarked_of_block (m := m) (src := src) (aux := aux) (S := S) hb hk hi hj ▸
      hnoise _ _ (by omega) (by omega)
  have hB : ∀ m src i j, i < 8 → j < 8 → |blockCell m src w b i j| ≤ 2 ^ 24 :=
    fun m src i j _ _ => abs_blockCell_le m src w b i j
  rw [DctStrengthFor] at hstrength
  rw [dctBit, sat32_forwardBlock_of_pixels (hB m' src') (by omega) (by omega)]
  exact parityBit_forwardBlock_of_noise (hB m src) (hB m' src') (by positivity) hcells hS hS'
    (by linarith)

/-- Settles O49: the noise on a block moves its carrier coefficient by at most K_DCT times its
amplitude, so that every carrier bit reads back. -/
theorem dctMarkSurvivesNoise : Obligations.DctMarkSurvivesNoise := by
  refine ⟨fun S => ?_, fun s t u a hs hexec hu hopt hclamp hnear hstrength => ?_⟩
  · simp only [DctStrengthFor, kDct_eq]
    refine ⟨?_, ?_, ?_⟩ <;> intro hS <;> push_cast <;> omega
  obtain ⟨hw, hh, hS, hr, hfl⟩ := hopt
  obtain ⟨m, hexec', hrestored, -⟩ := dctembMarks s hs
  obtain rfl := Host.Outcome.next.inj (hexec.symm.trans hexec')
  obtain ⟨hS1, hS2⟩ := runs_strength hs rfl
  have hfits : streamBits s.snap.len.toNat s.snap.r.toNat ≤
      (s.snap.w.toNat / 8) * (s.snap.h.toNat / 8) := runs_capacity hs rfl
  set bits := dctBits (loadBytes u.mem u.snap.src.toNat (4 * (s.snap.w.toNat * s.snap.h.toNat)))
    s.snap.w.toNat s.snap.h.toNat s.snap.s.toNat
  have hlength : bits.val.length = (s.snap.w.toNat / 8) * (s.snap.h.toNat / 8) :=
    length_dctBits _ _ _ _
  have hop : operationOf .dctext u = reportDecode u.snap.dst.toNat
      (decodeStream bits.val s.snap.r.toNat u.snap.fl.toNat)
      (reportCapacity u.snap.blocks u.snap.redundancy
        (reportUnits u.snap.blocks (noteSat bits.clipped u))) := by
    simp only [bits, ← hw, ← hh, ← hS, ← hr]
    rfl
  refine recovers_of_stream hu hop (runs_redundancy hs rfl) (runs_length hs rfl) hfl
    (hlength ▸ hfits) fun k hk => ?_
  rw [getD_dctBits _ (hk.trans_le hfits)]
  exact dctBit_of_noise (by omega) (by omega)
    (fun i j hi hj => abs_blue_sub_marked_le hrestored hclamp hnear hi hj) hstrength
    (hk.trans_le hfits) hk

end Sys2Proof.Proofs
end

section
/-! PROOFS. The checks of 60 R245: the condition behind each code, the lowest code that wins, and
the codes each command can complete with (60 R242, R246). -/

namespace Sys2Proof.Proofs

open Sys2Proof.Machine Sys2Proof.Claims Sys2Proof.Laws

/-! ### The fields a command reads (30 R94, R96) -/

theorem readsStrength_iff (i : Instr) : readsStrength i = true ↔
    i ∈ [.qembed, .qextract, .dctemb, .dctext, .dwtemb, .dwtext] := by
  cases i <;> decide

theorem readsRedundancy_iff (i : Instr) : readsRedundancy i = true ↔
    i ∈ [.pack, .unpack, .dctcap, .dctemb, .dctext, .dwtcap, .dwtemb, .dwtext] := by
  cases i <;> decide

theorem readsLevels_iff (i : Instr) : readsLevels i = true ↔
    i ∈ [.dwt2d, .idwt2d, .dwtcap, .dwtemb, .dwtext] := by
  cases i <;> decide

theorem readsDims_iff (i : Instr) : readsDims i = true ↔
    i ∈ [.dwt2d, .idwt2d, .chext, .chrst, .psnr, .dctcap, .dctemb, .dctext, .dwtcap, .dwtemb,
      .dwtext] := by
  cases i <;> decide

theorem readsLength_iff (i : Instr) : readsLength i = true ↔
    i ∈ [.qembed, .qextract, .pack, .dctemb, .dwtemb] := by
  cases i <;> decide

/-! ### The condition of each code -/

section
variable (i : Instr) (p : Snapshot)

@[simp] theorem not_checkHolds_illegalCmd : ¬CheckHolds i p .illegalCmd := id

@[simp] theorem not_checkHolds_busError : ¬CheckHolds i p .busError := id

@[simp] theorem checkHolds_badOption : CheckHolds i p .badOption ↔ badOption i p = true := by
  simp only [badOption, strengthOk, levelsOk, Bool.or_eq_true, Bool.and_eq_true,
    Bool.not_eq_true', decide_eq_true_eq, decide_eq_false_iff_not, readsStrength_iff,
    readsRedundancy_iff, readsLevels_iff, or_assoc]
  rfl

@[simp] theorem checkHolds_badDim : CheckHolds i p .badDim ↔ badDim i p = true := by
  simp only [badDim, Bool.and_eq_true, decide_eq_true_eq, readsDims_iff]
  rfl

@[simp] theorem checkHolds_badLength : CheckHolds i p .badLength ↔ badLength i p = true := by
  simp only [badLength, Bool.and_eq_true, decide_eq_true_eq, readsLength_iff]
  rfl

/-- Only the three embeddings have a carrier (60 R245). -/
@[simp] theorem checkHolds_capacity : CheckHolds i p .capacity ↔ overCapacity i p = true := by
  cases i
  case pack =>
    rw [overCapacity_iff (n := p.n.toNat) rfl]
    simp [CheckHolds, streamBits, frameBits, Snapshot.length, Snapshot.redundancy]
  case dctemb =>
    rw [overCapacity_iff (n := (p.w.toNat / 8) * (p.h.toNat / 8)) rfl]
    simp [CheckHolds, streamBits, frameBits, Snapshot.length, Snapshot.redundancy]
  case dwtemb =>
    rw [overCapacity_iff (i := .dwtemb) (congrArg some (coeffs_eq p))]
    simp [CheckHolds, streamBits, frameBits, Snapshot.length, Snapshot.redundancy]
  all_goals simp [CheckHolds, overCapacity, carrier]

@[simp] theorem checkHolds_align : CheckHolds i p .align ↔ badAlign i p = true := by
  simp [CheckHolds, regionRows_eq_regions, badAlign, Region.misaligned, Region.nonEmpty,
    and_assoc]

@[simp] theorem checkHolds_addrRange : CheckHolds i p .addrRange ↔ badRange i p = true := by
  simp [CheckHolds, regionRows_eq_regions, badRange, Region.outOfRange, Region.nonEmpty]

end

/-- Some write region shares a byte with a region at another place of the list (20 R70). -/
theorem anyOverlap_eq_true_iff (rs : List Region) : anyOverlap rs = true ↔
    ∃ (k l : Nat) (r q : Region), k ≠ l ∧ rs[k]? = some r ∧ rs[l]? = some q ∧
      r.access = .write ∧ r.overlaps q = true := by
  rw [← Bool.not_eq_false, anyOverlap_eq_false_iff, List.pairwise_iff_getElem]
  constructor
  · intro h
    push Not at h
    obtain ⟨k, l, hk, hl, hlt, hw, a, hr, hq⟩ := h
    have hq := eq_true_of_ne_false hq
    rcases hw with hw | hw
    · exact ⟨k, l, _, _, hlt.ne, List.getElem?_eq_getElem hk, List.getElem?_eq_getElem hl, hw,
        (overlaps_iff _ _).2 ⟨a, hr, hq⟩⟩
    · exact ⟨l, k, _, _, hlt.ne', List.getElem?_eq_getElem hl, List.getElem?_eq_getElem hk, hw,
        (overlaps_iff _ _).2 ⟨a, hq, hr⟩⟩
  · rintro ⟨k, l, r, q, hne, hr, hq, hw, hov⟩ h
    obtain ⟨hk, rfl⟩ := List.getElem?_eq_some_iff.1 hr
    obtain ⟨hl, rfl⟩ := List.getElem?_eq_some_iff.1 hq
    obtain ⟨a, har, haq⟩ := (overlaps_iff _ _).1 hov
    rcases Nat.lt_or_gt_of_ne hne with hlt | hlt
    · exact Bool.false_ne_true ((h k l hk hl hlt (.inl hw) a har).symm.trans haq)
    · exact Bool.false_ne_true ((h l k hl hk hlt (.inr hw) a haq).symm.trans har)

@[simp] theorem checkHolds_overlap (i : Instr) (p : Snapshot) :
    CheckHolds i p .overlap ↔ badOverlap i p = true := by
  rw [badOverlap, anyOverlap_eq_true_iff]
  simp [CheckHolds, regionRows_eq_regions, Region.overlaps, Region.nonEmpty, and_assoc]

/-! ### The lowest code wins (60 R245) -/

theorem codeNumber_injective : Function.Injective codeNumber := by
  intro e e' h
  cases e <;> cases e' <;> simp_all [codeNumber]

/-- What firstError gives is a condition that holds, and every condition of a lower code fails. -/
theorem checkHolds_of_firstError {i : Instr} {p : Snapshot} {e : ErrCode}
    (h : firstError i p = some e) :
    CheckHolds i p e ∧ ∀ e' : ErrCode, codeNumber e' < codeNumber e → ¬CheckHolds i p e' := by
  unfold firstError at h
  repeat' split at h
  all_goals cases h
  all_goals
    refine ⟨by simpa, fun e' hlt => ?_⟩
    cases e' <;> simp_all [codeNumber]

theorem firstError_eq_none_iff_checkHolds (i : Instr) (p : Snapshot) :
    firstError i p = none ↔ ∀ e, ¬CheckHolds i p e := by
  rw [firstError_eq_none_iff]
  constructor
  · rintro ⟨hoption, hdim, hlength, hover, halign, hrange, hoverlap⟩ e
    cases e <;> simp [*]
  · intro h
    simp only [← Bool.not_eq_true]
    exact ⟨by simpa using h .badOption, by simpa using h .badDim, by simpa using h .badLength,
      by simpa using h .capacity, by simpa using h .align, by simpa using h .addrRange,
      by simpa using h .overlap⟩

/-- Settles O14: firstError gives a holding condition with no lower one, and there is only one
such. -/
theorem lowestErrorCodeWins : Obligations.LowestErrorCodeWins := by
  refine fun i p => ⟨fun e => ⟨checkHolds_of_firstError, fun ⟨hholds, hleast⟩ => ?_⟩,
    firstError_eq_none_iff_checkHolds i p⟩
  cases hfirst : firstError i p with
  | none => exact absurd hholds ((firstError_eq_none_iff_checkHolds i p).1 hfirst e)
  | some e' =>
    obtain ⟨hholds', hleast'⟩ := checkHolds_of_firstError hfirst
    have hle : codeNumber e' ≤ codeNumber e := Nat.not_lt.1 fun hlt => hleast' e hlt hholds
    have hge : codeNumber e ≤ codeNumber e' := Nat.not_lt.1 fun hlt => hleast e' hlt hholds'
    rw [codeNumber_injective (Nat.le_antisymm hle hge)]

/-! ### The codes a command can complete with (60 R246) -/

/-- A condition that holds has its code in the command's row of the table: a field must be read, a
region marked S must be there, or a written one next to another. -/
theorem mem_possibleCodes_of_checkHolds {i : Instr} {p : Snapshot} {e : ErrCode}
    (h : CheckHolds i p e) : e ∈ possibleCodes i := by
  cases e
  case illegalCmd => exact h.elim
  case busError => exact h.elim
  case badOption => rcases h with ⟨hi, -⟩ | ⟨hi, -⟩ | ⟨hi, -⟩ <;> revert i <;> decide
  case badDim => obtain ⟨hi, -⟩ := h; revert i; decide
  case badLength => obtain ⟨hi, -⟩ := h; revert i; decide
  case capacity => rcases h with ⟨rfl, -⟩ | ⟨rfl, -⟩ | ⟨rfl, -⟩ <;> decide
  case align =>
    obtain ⟨r, hr, -, hsamples, -⟩ := h
    have hany : (regionRows i p).any Region.samples = true := List.any_eq_true.2 ⟨r, hr, hsamples⟩
    cases i
    case nop | pack | unpack | dctcap | dctemb | dctext | dwtcap =>
      exact absurd hany Bool.false_ne_true
    all_goals decide
  case addrRange =>
    obtain ⟨r, hr, -⟩ := h
    cases i
    case nop | dctcap | dwtcap => exact absurd hr List.not_mem_nil
    all_goals decide
  case overlap =>
    obtain ⟨k, -, r, -, -, hr, -, hwrite, -⟩ := h
    have hany : (regionRows i p).any Region.isWrite = true :=
      List.any_eq_true.2 ⟨r, List.mem_of_getElem? hr, decide_eq_true hwrite⟩
    cases i
    case nop | psnr | dctcap | dwtcap => exact absurd hany Bool.false_ne_true
    all_goals decide

/-- A snapshot whose lowest error is e for every command that can fail with e. Otherwise its fields
are legal for every command: an image of 56 × 56 pixels carries the 48 bits of a two-byte payload. -/
def failingSnapshot (e : ErrCode) : Snapshot :=
  let legal : Snapshot :=
    { op := 0, rsv := 0, w := 56, h := 56, src := 0x10000, aux := 0x20000, dst := 0x30000
      scr := 0x40000, len := 2, s := 1, r := 1, lv := 1, fl := 0, t := 0, n := 100 }
  match e with
  | .illegalCmd | .busError => legal
  | .badOption => { legal with s := 0, r := 0, lv := 0 }
  | .badDim => { legal with w := 0 }
  | .badLength => { legal with len := 0 }
  | .capacity => { legal with r := 0xFFFF }
  | .align => { legal with src := 0x10001, aux := 0x20001, dst := 0x30001, scr := 0x40001 }
  | .addrRange =>
    { legal with src := 0xFFFFFFFC, aux := 0xFFFFFFFC, dst := 0xFFFFFFFC, scr := 0xFFFFFFFC }
  | .overlap => { legal with aux := 0x10000, dst := 0x10000, scr := 0x10000 }

theorem firstError_failingSnapshot (i : Instr) :
    ∀ e ∈ possibleCodes i, firstError i (failingSnapshot e) = some e := by
  cases i <;> decide

/-- Settles O15: the conditions that can hold lie in the table, and each code of the table has a
snapshot that fails with it. -/
theorem possibleCodesPerCommand : Obligations.PossibleCodesPerCommand := fun i e =>
  ⟨fun ⟨_, h⟩ => mem_possibleCodes_of_checkHolds (checkHolds_of_firstError h).1,
    fun h => ⟨failingSnapshot e, firstError_failingSnapshot i e h⟩⟩

end Sys2Proof.Proofs
end

section
/-! PROOFS. How a command completes: the step that runs it, its error completions, and the three
outcomes (60 R240 to R245). -/

namespace Sys2Proof.Proofs

open Sys2Proof.Machine Sys2Proof.Claims Sys2Proof.Laws

/-! ### The step that completes a command (60 R240) -/

/-- Settles O5: with an empty list or at a pause the step is the sequencer's, which runs the latched
command or, while BUSY = 0, does nothing. -/
theorem stepRunsLatchedCommand : Obligations.StepRunsLatchedCommand := by
  refine ⟨fun s i hbusy hdecode => ⟨fun hhost => ?_, fun rest hhost => ?_⟩,
    fun s hidle => ⟨fun hhost => ?_, fun rest hhost => ?_⟩⟩
  · rw [step_of_host_nil hhost, sequencerStep_of_decode hbusy hdecode]
  · rw [step_of_pause hhost, sequencerStep_of_decode (s := { s with host := rest }) hbusy hdecode]
  · rw [step_of_host_nil hhost, sequencerStep_of_idle hidle]
  · rw [step_of_pause hhost, sequencerStep_of_idle (s := { s with host := rest }) hidle]

/-! ### Error completions (60 R243, R244) -/

theorem errorCompletion_eq (e : ErrCode) (s : State) :
    errorCompletion e s = { s with status := errStatus s.status e } := rfl

theorem busErrorCompletion_eq (i : Instr) (s : State) : busErrorCompletion i s =
    { s with mem := (busErrorCompletion i s).mem, draws := (busErrorCompletion i s).draws
             status := errStatus s.status .busError } := by
  rw [busErrorCompletion, drawRegions_eq]; rfl

/-- Settles O10. -/
theorem checkErrorCompletes : Obligations.CheckErrorCompletes := by
  intro i s e h
  rw [exec_eq_complete, complete_of_error h, errorCompletion_eq]

theorem allBusOK_eq_false_iff (f : Platform) (rs : List Region) : allBusOK f rs = false ↔
    ∃ r ∈ rs, ∃ a, r.base ≤ a ∧ a < r.base + r.size ∧ busOK f a = false := by
  rw [← Bool.not_eq_true, allBusOK_iff]
  push Not
  simp only [contains_iff, Bool.not_eq_true, and_assoc]

/-- Settles O11: no region is on a device, so the completion is BUS_ERROR's, and no command writes
outside its write regions. -/
theorem busErrorCompletes : Obligations.BusErrorCompletes := by
  intro i s hfirst hplain hunbacked
  rw [regionRows_eq_regions] at hplain hunbacked ⊢
  have hdevice : touchesDevice s.platform (regions i s.snap) = false := by
    rw [← Bool.not_eq_true, touchesDevice_eq_true_iff]
    rintro ⟨r, hr, a, hlo, hhi, u, hu, hua⟩
    exact hplain r hr u hu a hlo hhi hua
  have hexec : exec i s = .next (busErrorCompletion i s) := by
    rw [exec_eq_complete,
      complete_of_busError hfirst hdevice ((allBusOK_eq_false_iff _ _).2 hunbacked)]
  exact ⟨_, _, hexec.trans (congrArg _ (busErrorCompletion_eq i s)),
    fun a => exec_readByte_outside hexec⟩

/-! ### The three outcomes (60 R241) -/

/-- BUS_ERROR is no check error: no firstError gives it (60 R245). -/
theorem firstError_ne_busError (i : Instr) (p : Snapshot) : firstError i p ≠ some .busError :=
  fun h => (checkHolds_of_firstError h).1

/-- How the sequencer completes a latched word: an error that is not BUS_ERROR, BUS_ERROR, or the
success of a command that runs. -/
theorem sequencerStep_cases {s t : State} (hbusy : s.status.busy = true)
    (h : sequencerStep s = .next t) :
    (∃ e, e ≠ .busError ∧ t = errorCompletion e s) ∨ (∃ i, t = busErrorCompletion i s) ∨
      ∃ i, Runs i s ∧ t = finish (operationOf i s) := by
  cases hdecode : decode s.snap.word with
  | error e =>
    rw [sequencerStep_of_illegal hbusy hdecode] at h
    cases h
    exact .inl ⟨.illegalCmd, by decide, rfl⟩
  | ok i =>
    rw [sequencerStep_of_decode hbusy hdecode] at h
    rcases exec_cases h with ⟨e, hfirst, ht⟩ | ⟨-, -, ht⟩ | ⟨hruns, ht⟩
    · exact .inl ⟨e, fun he => firstError_ne_busError i s.snap (he ▸ hfirst), ht⟩
    · exact .inr (.inl ⟨i, ht⟩)
    · exact .inr (.inr ⟨i, hruns, ht⟩)

/-- Settles O9: a command in flight began with flags and results clear; an error completion leaves
them so, and a success comes with no error (60 R241, R243). -/
theorem commandOutcomes : Obligations.CommandOutcomes := by
  intro s t hinv hbusy hhost hstep
  rw [step_of_host_nil hhost] at hstep
  have hclear := hinv.busy_clear hbusy
  obtain ⟨-, -, hsat, hdetect, hpass, hinf, -, hresults⟩ := hinv.busy_clear hbusy
  rcases sequencerStep_cases hbusy hstep with ⟨e, hne, rfl⟩ | ⟨i, rfl⟩ | ⟨i, -, rfl⟩
  · exact ⟨rfl, .inr (.inl ⟨e, hne, rfl, rfl⟩),
      fun _ => ⟨hresults, rfl, hsat, hdetect, hpass, hinf, fun _ => rfl⟩⟩
  · rw [busErrorCompletion_eq]
    exact ⟨rfl, .inr (.inr ⟨_, _, rfl⟩),
      fun _ => ⟨hresults, rfl, hsat, hdetect, hpass, hinf, fun hcode => absurd rfl hcode⟩⟩
  · obtain ⟨herr, hcode, -⟩ := reported_operationOf i hclear
    exact ⟨rfl, .inl ⟨rfl, herr, hcode⟩, fun h => absurd (herr.symm.trans h) Bool.false_ne_true⟩

end Sys2Proof.Proofs
end

section
/-! PROOFS. The host's accesses while a command is in flight: the invariant at reset, the reset
input, the HAZARD fault, a host read, and parameter writes (70 R270 to R278). -/

namespace Sys2Proof.Proofs

open Sys2Proof.Machine Sys2Proof.Claims Sys2Proof.Laws

/-! ### The bytes of the command in flight (70 R276, R277) -/

theorem inFlightByte_iff (s : State) (onlyWritten : Bool) (a : Nat) :
    InFlightByte s onlyWritten a ↔
      ∃ r ∈ activeRegions s, (onlyWritten = true → r.access = .write) ∧ r.contains a = true := by
  simp only [InFlightByte, regionRows_eq_regions, mem_activeRegions, contains_iff]
  constructor
  · rintro ⟨hbusy, i, hi, r, hr, hin⟩
    exact ⟨r, ⟨hbusy, i, hi, hr⟩, hin⟩
  · rintro ⟨r, ⟨hbusy, i, hi, hr⟩, hin⟩
    exact ⟨hbusy, i, hi, r, hr, hin⟩

theorem inFlightByte_false_iff (s : State) (a : Nat) :
    InFlightByte s false a ↔ (activeRegions s).any (fun r => r.contains a) = true := by
  simp [inFlightByte_iff]

theorem inFlightByte_true_iff (s : State) (a : Nat) :
    InFlightByte s true a ↔ (abandonedRegions s).any (fun r => r.contains a) = true := by
  simp [inFlightByte_iff, mem_abandonedRegions, and_assoc]

/-! ### The reset input (70 R270 to R272) -/

/-- Settles O6: flags and results are 0, nothing is listed in memory, and no command is in
flight. -/
theorem resetSatisfiesInvariant : Obligations.ResetSatisfiesInvariant :=
  inv_of_clear ⟨rfl, rfl, rfl, rfl, rfl, rfl, rfl, rfl⟩ wf_nil fun hbusy => by cases hbusy

/-- The reset input restores the reset state but for the memory, the platform and the host's
side. -/
theorem resetInput_eq (s : State) : resetInput s =
    { State.reset with mem := (resetInput s).mem, platform := s.platform, host := s.host,
                       rdata := s.rdata, draws := (resetInput s).draws } := by
  rw [resetInput, drawRegions_eq]; rfl

theorem readByte_resetInput {s : State} {a : Nat} (h : ¬InFlightByte s true a) :
    readByte (resetInput s).mem a = readByte s.mem a :=
  readByte_drawRegions (by simpa [inFlightByte_true_iff] using h)

/-- Without a command in flight there is nothing to abandon (70 R272). -/
theorem resetInput_mem_of_idle {s : State} (h : s.status.busy = false) :
    (resetInput s).mem = s.mem := by
  have hnone : abandonedRegions s = [] := by simp [abandonedRegions, activeRegions, h]
  simp [resetInput, hnone, drawRegions]

/-- Settles O58: the step is the reset input's, which draws in the write regions of a command in
flight and nowhere else. -/
theorem resetInputRestores : Obligations.ResetInputRestores := by
  intro s rest hhost
  have hstep : step s = .next (resetInput { s with host := rest }) :=
    step_of_hostOp hhost (by simp)
  exact ⟨_, _, _, hstep.trans (congrArg _ (resetInput_eq _)),
    fun _ ha => readByte_resetInput (s := { s with host := rest }) ha,
    fun hidle => resetInput_mem_of_idle (s := { s with host := rest }) hidle⟩

/-! ### Memory accesses of the host (70 R276, R277, 20 R60) -/

theorem hostMemWrite_of_inFlight {s : State} {a : Word} (h : InFlightByte s false a.toNat)
    (b : Byte) : hostMemWrite a b s = .fault .hostHazard :=
  if_pos ((inFlightByte_false_iff s _).1 h)

theorem hostMemWrite_of_free {s : State} {a : Word} (h : ¬InFlightByte s false a.toNat)
    (b : Byte) : hostMemWrite a b s = .next (putBytes a.toNat [b] s) :=
  if_neg (mt (inFlightByte_false_iff s _).2 h)

theorem hostMemRead_of_inFlight {s : State} {a : Word} (h : InFlightByte s true a.toNat) :
    hostMemRead a s =
      { s with rdata := (Config.freeByte s.draws).setWidth 32, draws := s.draws + 1 } :=
  if_pos ((inFlightByte_true_iff s _).1 h)

theorem hostMemRead_of_free {s : State} {a : Word} (h : ¬InFlightByte s true a.toNat) :
    hostMemRead a s = { s with rdata := (readByte s.mem a.toNat).setWidth 32 } :=
  if_neg (mt (inFlightByte_true_iff s _).2 h)

/-- Settles O59: the hazard is judged on the regions in flight; any other write is a memory write
of one byte. -/
theorem hostWriteHazard : Obligations.HostWriteHazard := by
  intro s rest a b hhost
  rw [step_of_hostOp hhost (by simp)]
  refine ⟨fun h => hostMemWrite_of_inFlight (s := { s with host := rest }) h b,
    fun h => ⟨_, hostMemWrite_of_free (s := { s with host := rest }) h b, ?_, fun x hx => ?_⟩⟩
  · exact readByte_writeBytes_inside (bs := [b]) (k := 0) Nat.zero_lt_one
  · refine readByte_writeBytes_outside ?_
    rw [List.length_singleton]
    omega

/-- Settles O60: a free draw for a byte in flight that is written, the memory's byte otherwise. -/
theorem hostReadDuringCommand : Obligations.HostReadDuringCommand := by
  intro s rest a hhost
  rw [step_of_hostOp hhost (by simp)]
  exact ⟨fun h => ⟨_, _, congrArg _ (hostMemRead_of_inFlight (s := { s with host := rest }) h)⟩,
    fun h => congrArg _ (hostMemRead_of_free (s := { s with host := rest }) h)⟩

/-! ### Parameter writes while a command is in flight (70 R278) -/

/-- A register other than CMD, STATUS and CTRL is a parameter register or read-only (10 R21). -/
theorem writeReg_params {r : Reg} (hcmd : r ≠ .cmd) (hstatus : r ≠ .status) (hctrl : r ≠ .ctrl)
    (v : Word) (s : State) :
    writeReg r v s = { s with params := (writeReg r v s).params } := by
  cases r
  case cmd => contradiction
  case status => contradiction
  case ctrl => contradiction
  all_goals rfl

theorem ofOffset_ne_ctrl : ∀ e ∈ writableRegisters, e.1 ≠ 0x008 →
    Reg.ofOffset e.1 ≠ some .ctrl := by decide

theorem drawRegions_withParams (rs : List Region) (s : State) (q : Params) :
    drawRegions rs { s with params := q } = { drawRegions rs s with params := q } := by
  induction rs generalizing s with
  | nil => rfl
  | cons r rs ih => exact ih (drawRegion r s)

theorem busErrorCompletion_withParams (i : Instr) (s : State) (q : Params) :
    busErrorCompletion i { s with params := q } = { busErrorCompletion i s with params := q } :=
  congrArg (errorCompletion .busError) (drawRegions_withParams (writeRegions i s.snap) s q)

theorem reportDecode_withParams (dst : Nat) (d : Option Decoded) (s : State) (q : Params) :
    reportDecode dst d { s with params := q } = { reportDecode dst d s with params := q } := by
  cases d <;> rfl

theorem psnrReport_withParams (n D : Nat) (s : State) (q : Params) :
    psnrReport n D { s with params := q } = { psnrReport n D s with params := q } := by
  unfold psnrReport; split <;> rfl

/-- Every operation takes its operands from the snapshot (10 R44). -/
theorem operationOf_withParams (i : Instr) (s : State) (q : Params) :
    operationOf i { s with params := q } = { operationOf i s with params := q } := by
  cases i
  case psnr => exact psnrReport_withParams _ _ s q
  case unpack => exact reportDecode_withParams _ _ (reportCapacity _ _ (reportUnits _ s)) q
  case dctext =>
    exact reportDecode_withParams _ _ (reportCapacity _ _ (reportUnits _ (noteSat _ s))) q
  case dwtext =>
    exact reportDecode_withParams _ _
      (reportCapacity _ _ (reportUnits _ (drawScratch (noteSat _ s)))) q
  all_goals rfl

/-- A command that answers a next state meets no device (20 R73). -/
theorem touchesDevice_eq_false_of_exec {i : Instr} {s t : State} (h : exec i s = .next t)
    (hfirst : firstError i s.snap = none) :
    touchesDevice s.platform (regions i s.snap) = false := by
  by_contra hdevice
  have hrefused := (exec_eq_refused_iff i s).2 ⟨hfirst, by simpa using hdevice⟩
  cases h.symm.trans hrefused

/-- Each of the three ways a command ends reads the snapshot and leaves the parameter registers
alone (10 R44). -/
theorem exec_withParams {i : Instr} {s t : State} (h : exec i s = .next t) (q : Params) :
    exec i { s with params := q } = .next { t with params := q } := by
  rcases exec_cases h with ⟨e, hfirst, rfl⟩ | ⟨hfirst, hbus, rfl⟩ | ⟨hruns, rfl⟩
  · rw [exec_eq_complete, complete_of_error (s := { s with params := q }) hfirst]; rfl
  · have hplain := touchesDevice_eq_false_of_exec h hfirst
    rw [exec_eq_complete, complete_of_busError (s := { s with params := q }) hfirst hplain hbus,
      busErrorCompletion_withParams]
  · rw [exec_of_runs (s := { s with params := q }) hruns, operationOf_withParams]; rfl

/-- Settles O57: such a write changes the parameter registers, which no command reads. -/
theorem parameterWritesMissCommand : Obligations.ParameterWritesMissCommand := by
  intro s v _ e he hne
  obtain ⟨r, hoff, hcmd, hstatus, -⟩ := writableRegisters_readBack e he
  have hctrl : r ≠ .ctrl := fun h => ofOffset_ne_ctrl e he hne (h ▸ hoff)
  have hwrite := writeReg_params hcmd hstatus hctrl v s
  refine ⟨r, _, hoff, hwrite, fun i t hexec => ?_⟩
  rw [hwrite]
  exact exec_withParams hexec _

end Sys2Proof.Proofs
end

section
/-! PROOFS. A command completes once the host's accesses are used up (60 R240, 70 R282). -/

namespace Sys2Proof.Proofs

open Sys2Proof.Machine Sys2Proof.Laws

/-! ### The sequencer's step -/

/-- Whatever way a command ends, BUSY is 0 after it (60 R240). -/
theorem busy_of_sequencerStep {s t : State} (h : sequencerStep s = .next t) :
    t.status.busy = false := by
  cases hbusy : s.status.busy with
  | false => rw [sequencerStep_of_idle hbusy] at h; cases h; exact hbusy
  | true =>
    rcases sequencerStep_cases hbusy h with ⟨e, -, rfl⟩ | ⟨i, rfl⟩ | ⟨i, -, rfl⟩ <;> rfl

/-- With no device in the platform no command is refused (20 R73). -/
theorem exec_next_of_noDevice {s : State} (hdevice : s.platform.device = []) (i : Instr) :
    ∃ t, exec i s = .next t := by
  rw [exec_eq_complete]
  have hplain : touchesDevice s.platform (regions i s.snap) = false := by
    simp [touchesDevice, hdevice]
  cases hfirst : firstError i s.snap with
  | some e => exact ⟨_, complete_of_error hfirst _⟩
  | none =>
    cases hbus : allBusOK s.platform (regions i s.snap) with
    | true => exact ⟨_, complete_of_runs ⟨hfirst, hplain, hbus⟩ _⟩
    | false => exact ⟨_, complete_of_busError hfirst hplain hbus _⟩

theorem sequencerStep_next_of_noDevice {s : State} (hdevice : s.platform.device = []) :
    ∃ t, sequencerStep s = .next t := by
  cases hbusy : s.status.busy with
  | false => exact ⟨s, sequencerStep_of_idle hbusy⟩
  | true =>
    cases hdecode : decode s.snap.word with
    | error e => exact ⟨_, sequencerStep_of_illegal hbusy hdecode⟩
    | ok i => rw [sequencerStep_of_decode hbusy hdecode]; exact exec_next_of_noDevice hdevice i

/-! ### What no step changes but the host's list -/

/-- The fields that no command and no access of the host changes: the platform (00 R8) and the
host's coming accesses. -/
def SamePlatformAndHost (s t : State) : Prop := t.platform = s.platform ∧ t.host = s.host

theorem samePlatformAndHost_sequencerStep {s t : State} (h : sequencerStep s = .next t) :
    SamePlatformAndHost s t := by
  cases hbusy : s.status.busy with
  | false => rw [sequencerStep_of_idle hbusy] at h; cases h; exact ⟨rfl, rfl⟩
  | true =>
    rcases sequencerStep_cases hbusy h with ⟨e, -, rfl⟩ | ⟨i, rfl⟩ | ⟨i, -, rfl⟩
    · exact ⟨rfl, rfl⟩
    · rw [busErrorCompletion_eq]; exact ⟨rfl, rfl⟩
    · rw [operationOf_frame]; exact ⟨rfl, rfl⟩

theorem samePlatformAndHost_writeReg (r : Reg) (v : Word) (s : State) :
    SamePlatformAndHost s (writeReg r v s) := by
  cases r
  case cmd =>
    cases hbusy : s.status.busy with
    | false => rw [writeReg_cmd_of_idle hbusy]; exact ⟨rfl, rfl⟩
    | true => rw [writeReg_cmd_of_busy hbusy]; exact ⟨rfl, rfl⟩
  all_goals exact ⟨rfl, rfl⟩

theorem samePlatformAndHost_hostStep {s t : State} {op : HostOp} (h : hostStep op s = .next t) :
    SamePlatformAndHost s t := by
  cases op with
  | regWrite addr size v =>
    cases h
    rcases hostRegWrite_cases addr size v s with he | ⟨r, he⟩ <;> rw [he]
    · exact ⟨rfl, rfl⟩
    · exact samePlatformAndHost_writeReg r v s
  | regRead addr size =>
    cases h
    unfold hostRegRead
    repeat' split
    all_goals exact ⟨rfl, rfl⟩
  | memWrite addr b =>
    simp only [hostStep, hostMemWrite] at h
    split at h
    · contradiction
    · cases h; exact ⟨rfl, rfl⟩
  | memRead addr =>
    cases h
    unfold hostMemRead
    split <;> exact ⟨rfl, rfl⟩
  | reset => cases h; rw [resetInput_eq]; exact ⟨rfl, rfl⟩
  | pause => cases h; exact ⟨rfl, rfl⟩

/-! ### The run -/

/-- Only a memory write of the host can fault (70 R276). -/
theorem hostStep_next {op : HostOp} (hop : ∀ a b, op ≠ .memWrite a b) (s : State) :
    ∃ t, hostStep op s = .next t := by
  cases op
  case memWrite a b => exact absurd rfl (hop a b)
  all_goals exact ⟨_, rfl⟩

/-- One access of the host that is no memory write, or its pause, is used up by one step. -/
theorem step_next_of_host_cons {s : State} {op : HostOp} {rest : List HostOp}
    (hdevice : s.platform.device = []) (hhost : s.host = op :: rest)
    (hop : ∀ a b, op ≠ .memWrite a b) :
    ∃ t, step s = .next t ∧ t.platform = s.platform ∧ t.host = rest := by
  by_cases hpause : op = .pause
  · subst hpause
    rw [step_of_pause hhost]
    obtain ⟨t, ht⟩ := sequencerStep_next_of_noDevice (s := { s with host := rest }) hdevice
    exact ⟨t, ht, samePlatformAndHost_sequencerStep ht⟩
  · rw [step_of_hostOp hhost hpause]
    obtain ⟨t, ht⟩ := hostStep_next hop { s with host := rest }
    exact ⟨t, ht, samePlatformAndHost_hostStep ht⟩

theorem run_succ_of_step {s t : State} (h : step s = .next t) (k : Nat) :
    Host.Core.run Sys2Proof.core (k + 1) s = Host.Core.run Sys2Proof.core k t := by
  have hcore : Sys2Proof.core.step s = .next t := h
  simp only [Host.Core.run, hcore]

/-- Settles O13, by induction on the host's list: each access is one step, and the step after the
last is the sequencer's. -/
theorem commandCompletesInBoundedSteps : Obligations.CommandCompletesInBoundedSteps := by
  intro s hdevice hwrites
  induction hhost : s.host generalizing s with
  | nil =>
    obtain ⟨t, ht⟩ := sequencerStep_next_of_noDevice hdevice
    have hrun := run_succ_of_step ((step_of_host_nil hhost).trans ht) 0
    exact ⟨t, hrun, busy_of_sequencerStep ht⟩
  | cons op rest ih =>
    rw [hhost, List.forall_mem_cons] at hwrites
    obtain ⟨hop, hrest⟩ := hwrites
    obtain ⟨u, hstep, hplatform, hu⟩ := step_next_of_host_cons hdevice hhost hop
    rw [List.length_cons, run_succ_of_step hstep]
    exact ih u (hplatform ▸ hdevice) (hu ▸ hrest) hu

end Sys2Proof.Proofs
end
